-- ==== Sys2Proof/Word.lean ====
section
/-! DEFINITION. The words that cross the command interface and the elements of the streams
(00_scope.md R8, R10, R11; 30_encoding.md R70). -/

namespace Sys2Proof

/-- A 32-bit word: a count, a weight, a command, data or read word (R8: `CNT_W`, `CMD_W`, `DATA_W`). -/
abbrev Word := BitVec 32

/-- A symbol: an unsigned value 0..255 (R8: `SYM_W`). -/
abbrev Symbol := BitVec 8

/-- A node index: 9 bits, 511 names no node (R8: `IDX_W`, `NULL_IDX`). -/
abbrev NodeIdx := BitVec 9

/-- The information word of an error (R8: `INFO_W`). -/
abbrev Info := BitVec 64

/-- One bit of a bit stream or of a code; `true` is 1 (R11). -/
abbrev Bit := Bool

/-- Which of the two words of a node entry NODE_RD and NODE_WR move: `SEL` 0 or 1 (R73, R74, R85). -/
inductive NodeSel where
  | structureWord
  | weightWord
deriving DecidableEq, Repr

/-- A command transaction `(CMD, DATA, SYMS, BITS)` (R16, R70). -/
structure Command where
  cmd  : Word
  data : Word := 0
  syms : List Symbol := []
  bits : List Bit := []
deriving DecidableEq, Repr

end Sys2Proof
end

