-- ==== Sys2Proof/Config.lean ====
section
/-! DEFINITION. The implementation parameters that the spec fixes (00_scope.md R8). `PORT_PROTOCOL` and
`LATENCY` are open, no rule reads them, and a model takes no argument for them (R9). Nothing is left free:
no behaviour of this hardware is "any value" (93_implementation_defined.md). -/

namespace Sys2Proof.Config

/-- Alphabet size (R8). -/
abbrev NSYM : Nat := 256

/-- Node arena entries, indices 0..510 (R8). -/
abbrev NNODE : Nat := 511

/-- Largest count or weight (R8). -/
def CNT_MAX : Nat := 0xFFFFFFFF

/-- The index value that names no node (R8). -/
def NULL_IDX : NodeIdx := 511#9

/-- The longest code length a table entry can hold (R8). -/
def MAX_LEN : Nat := 255

/-- The longest symbol stream COUNT and ENCODE_ALL accept (R8). -/
def SYM_STREAM_MAX : Nat := 0xFFFFFFFF

/-- The longest symbol stream ENCODE accepts and the longest bit stream DECODE accepts (R8). -/
def STREAM_MAX : Nat := 0xFFFFFFFFFFFFFFFF

end Sys2Proof.Config
end

