-- ==== Sys2Proof/Syntax.lean ====
section
/-! DEFINITION. The commands of the block as syntax: one constructor per row of the opcode table
(30_encoding.md R79). A command's streams are operands of it (R51, R70). -/

namespace Sys2Proof

inductive Instr where
  /-- NOP (R210). -/
  | nop
  /-- CLEAR (R211). -/
  | clear
  /-- REG_RD of register `r` (R212). -/
  | regRd (r : BitVec 2)
  /-- COUNT of the stream `syms` (R101). -/
  | count (syms : List Symbol)
  /-- FREQ_WR of the count `n` to symbol `c` (R102). -/
  | freqWr (c : Symbol) (n : Word)
  /-- FREQ_RD of symbol `c` (R103). -/
  | freqRd (c : Symbol)
  /-- BUILD (R123). -/
  | build
  /-- NODE_RD of the word `sel` of node `i` (R129). -/
  | nodeRd (i : NodeIdx) (sel : NodeSel)
  /-- NODE_WR of `d` to the word `sel` of node `i` (R130). -/
  | nodeWr (i : NodeIdx) (sel : NodeSel) (d : Word)
  /-- ROOT_WR of the root word `d` (R131). -/
  | rootWr (d : Word)
  /-- GENCODE (R152). -/
  | gencode
  /-- CODE_RD of the word `sel` of the code of `c` (R155). -/
  | codeRd (c : Symbol) (sel : BitVec 4)
  /-- ENCODE of the stream `syms` (R171). -/
  | encode (syms : List Symbol)
  /-- ENCODE_ALL of the stream `syms` (R172). -/
  | encodeAll (syms : List Symbol)
  /-- DECODE of the bit stream `bits` (R191). -/
  | decode (bits : List Bit)
deriving DecidableEq, Repr

end Sys2Proof
end

