-- ==== Sys2Proof/WellFormed.lean ====
section
/-! DEFINITION. Which commands have an encoding that decodes: the operand checks of 30_encoding.md R80,
conditions 3, 5 and 6. The other conditions of R80 cannot be violated by a term of `Instr`. -/

namespace Sys2Proof

/-- The index names an arena entry, 0..510 (R50, R80 condition 3). -/
def nodeIndexOk (i : NodeIdx) : Bool := i != Config.NULL_IDX

/-- `DATA[11:8] = 0` in a structure word that NODE_WR writes (R73, R80 condition 5). -/
def structureWordOk (d : Word) : Bool := d.extractLsb' 8 4 == 0#4

/-- `DATA[30:9] = 0` in a root word that ROOT_WR writes (R75, R80 condition 6). -/
def rootWordOk (d : Word) : Bool := d.extractLsb' 9 22 == 0#22

/-- CODE_RD's `SEL` is 0..8 (R80 condition 3). -/
def codeSelOk (sel : BitVec 4) : Bool := decide (sel.toNat ≤ 8)

/-- The DATA word of NODE_WR is one it accepts: only the structure word has reserved bits (R73, R74). -/
def nodeDataOk : NodeSel → Word → Bool
  | .structureWord, d => structureWordOk d
  | .weightWord, _ => true

/-- The command meets every operand check of R80. -/
def Instr.wellFormed : Instr → Bool
  | .nop => true
  | .clear => true
  | .regRd _ => true
  | .count _ => true
  | .freqWr _ _ => true
  | .freqRd _ => true
  | .build => true
  | .nodeRd i _ => nodeIndexOk i
  | .nodeWr i sel d => nodeIndexOk i && nodeDataOk sel d
  | .rootWr d => rootWordOk d
  | .gencode => true
  | .codeRd _ sel => codeSelOk sel
  | .encode _ => true
  | .encodeAll _ => true
  | .decode _ => true

end Sys2Proof
end

