-- ==== Sys2Proof/Decode.lean ====
section
/-! DEFINITION. The opcode table, the decode function and the encoder (30_encoding.md R71, R79 to R84). -/

namespace Sys2Proof

/-- Which input stream a row takes: the "stream in" column of R79. -/
inductive StreamIn where
  | none
  | syms
  | bits
deriving DecidableEq, Repr

/-- The mnemonics of R79. -/
inductive Mnemonic where
  | NOP | CLEAR | REG_RD | COUNT | FREQ_WR | FREQ_RD | BUILD | NODE_RD | NODE_WR | ROOT_WR
  | GENCODE | CODE_RD | ENCODE | ENCODE_ALL | DECODE
deriving DecidableEq, Repr

/-- One row of the opcode table of R79. -/
structure Row where
  opc       : BitVec 8
  mnemonic  : Mnemonic
  pattern   : Word
  mask      : Word
  usesData  : Bool
  streamIn  : StreamIn
deriving DecidableEq, Repr

/-- The opcode table of R79: OPC, mnemonic, Match, Mask, whether DATA is an operand, stream in. -/
def opcodeTable : List Row := [
  ⟨0x00#8, .NOP,        0x00000000#32, 0xFFFFFFFF#32, false, .none⟩,
  ⟨0x01#8, .CLEAR,      0x01000000#32, 0xFFFFFFFF#32, false, .none⟩,
  ⟨0x02#8, .REG_RD,     0x02000000#32, 0xFFFFFFFC#32, false, .none⟩,
  ⟨0x10#8, .COUNT,      0x10000000#32, 0xFFFFFFFF#32, false, .syms⟩,
  ⟨0x11#8, .FREQ_WR,    0x11000000#32, 0xFFFFFF00#32, true,  .none⟩,
  ⟨0x12#8, .FREQ_RD,    0x12000000#32, 0xFFFFFF00#32, false, .none⟩,
  ⟨0x20#8, .BUILD,      0x20000000#32, 0xFFFFFFFF#32, false, .none⟩,
  ⟨0x21#8, .NODE_RD,    0x21000000#32, 0xFFFEFE00#32, false, .none⟩,
  ⟨0x22#8, .NODE_WR,    0x22000000#32, 0xFFFEFE00#32, true,  .none⟩,
  ⟨0x23#8, .ROOT_WR,    0x23000000#32, 0xFFFFFFFF#32, true,  .none⟩,
  ⟨0x30#8, .GENCODE,    0x30000000#32, 0xFFFFFFFF#32, false, .none⟩,
  ⟨0x31#8, .CODE_RD,    0x31000000#32, 0xFFF0FF00#32, false, .none⟩,
  ⟨0x40#8, .ENCODE,     0x40000000#32, 0xFFFFFFFF#32, false, .syms⟩,
  ⟨0x41#8, .ENCODE_ALL, 0x41000000#32, 0xFFFFFFFF#32, false, .syms⟩,
  ⟨0x50#8, .DECODE,     0x50000000#32, 0xFFFFFFFF#32, false, .bits⟩]

/-- `CMD[31:24]` (R71). -/
def opcField (w : Word) : BitVec 8 := w.extractLsb' 24 8

/-- `CMD[19:16]` (R71). -/
def selField (w : Word) : BitVec 4 := w.extractLsb' 16 4

/-- A symbol operand, `IDX[7:0]` (R81). -/
def symbolField (w : Word) : Symbol := w.extractLsb' 0 8

/-- A node operand, `IDX[8:0]` (R81). -/
def nodeField (w : Word) : NodeIdx := w.extractLsb' 0 9

/-- A register operand, `IDX[1:0]` (R81). -/
def registerField (w : Word) : BitVec 2 := w.extractLsb' 0 2

/-- `SEL` of NODE_RD and NODE_WR: 0 is the structure word, and the mask of R79 leaves only 0 and 1. -/
def nodeSelField (w : Word) : NodeSel := if selField w = 0#4 then .structureWord else .weightWord

/-- The row of the table whose OPC is `CMD[31:24]`, if there is one (R83). -/
def rowOf (w : Word) : Option Row := opcodeTable.find? (fun r => r.opc == opcField w)

/-- The command with its operands, once a row is selected (R81). -/
def assemble (m : Mnemonic) (c : Command) : Instr :=
  match m with
  | .NOP => .nop
  | .CLEAR => .clear
  | .REG_RD => .regRd (registerField c.cmd)
  | .COUNT => .count c.syms
  | .FREQ_WR => .freqWr (symbolField c.cmd) c.data
  | .FREQ_RD => .freqRd (symbolField c.cmd)
  | .BUILD => .build
  | .NODE_RD => .nodeRd (nodeField c.cmd) (nodeSelField c.cmd)
  | .NODE_WR => .nodeWr (nodeField c.cmd) (nodeSelField c.cmd) c.data
  | .ROOT_WR => .rootWr c.data
  | .GENCODE => .gencode
  | .CODE_RD => .codeRd (symbolField c.cmd) (selField c.cmd)
  | .ENCODE => .encode c.syms
  | .ENCODE_ALL => .encodeAll c.syms
  | .DECODE => .decode c.bits

/-- The illegal-command checks of R80 (2, 4, 7 and 8 on the row; 3, 5 and 6 are `wellFormed`). -/
def rowAccepts (r : Row) (c : Command) : Bool :=
  (c.cmd &&& r.mask == r.pattern)
  && (r.usesData || c.data == 0#32)
  && (r.streamIn == .syms || c.syms.isEmpty)
  && (r.streamIn == .bits || c.bits.isEmpty)
  && (assemble r.mnemonic c).wellFormed

/-- The decode function of R83. `none` is ILLEGAL. -/
def decode (c : Command) : Option Instr :=
  match rowOf c.cmd with
  | none => none
  | some r => if rowAccepts r c then some (assemble r.mnemonic c) else none

/-- `SEL` of a node word selector (R85). -/
def NodeSel.bits : NodeSel → BitVec 4
  | .structureWord => 0#4
  | .weightWord => 1#4

/-- A command word from its fields `{OPC, RSV = 0, SEL, IDX}` (R71). -/
def commandWord (opc : BitVec 8) (sel : BitVec 4) (idx : BitVec 16) : Word :=
  opc ++ 0#4 ++ sel ++ idx

/-- The command that encodes an instruction (R79, R85). -/
def encode : Instr → Command
  | .nop => { cmd := commandWord 0x00#8 0#4 0#16 }
  | .clear => { cmd := commandWord 0x01#8 0#4 0#16 }
  | .regRd r => { cmd := commandWord 0x02#8 0#4 (r.setWidth 16) }
  | .count syms => { cmd := commandWord 0x10#8 0#4 0#16, syms := syms }
  | .freqWr c n => { cmd := commandWord 0x11#8 0#4 (c.setWidth 16), data := n }
  | .freqRd c => { cmd := commandWord 0x12#8 0#4 (c.setWidth 16) }
  | .build => { cmd := commandWord 0x20#8 0#4 0#16 }
  | .nodeRd i sel => { cmd := commandWord 0x21#8 sel.bits (i.setWidth 16) }
  | .nodeWr i sel d => { cmd := commandWord 0x22#8 sel.bits (i.setWidth 16), data := d }
  | .rootWr d => { cmd := commandWord 0x23#8 0#4 0#16, data := d }
  | .gencode => { cmd := commandWord 0x30#8 0#4 0#16 }
  | .codeRd c sel => { cmd := commandWord 0x31#8 sel (c.setWidth 16) }
  | .encode syms => { cmd := commandWord 0x40#8 0#4 0#16, syms := syms }
  | .encodeAll syms => { cmd := commandWord 0x41#8 0#4 0#16, syms := syms }
  | .decode bits => { cmd := commandWord 0x50#8 0#4 0#16, bits := bits }

/-- The command whose bits are `w`, bit 0 the least significant bit of CMD and bit 32 that of DATA; the
bits from `nbits` up are 0 and both streams are empty (notes/assumptions/13.md). -/
def tableCommand (nbits w : Nat) : Command :=
  let bits := w % 2 ^ nbits
  { cmd := BitVec.ofNat 32 bits, data := BitVec.ofNat 32 (bits / 2 ^ 32) }

/-- The instruction the decoder reads from an instruction whose bits are `w`. -/
def decodeTableWord (nbits w : Nat) : Option Instr := decode (tableCommand nbits w)

end Sys2Proof
end

