-- ==== Sys2Proof/Machine/State.lean ====
section
/-! DEFINITION. The architectural state of the block (10_state.md R22), the host interface the model keeps
beside it (R21, R78, R271), the causes of an error, and the reasons a step can stop. -/

namespace Sys2Proof.Machine

/-- KIND of a node entry: 0 Leaf, 1 Internal (R26). -/
inductive NodeKind where
  | leaf
  | internal
deriving DecidableEq, Repr

/-- One arena entry (R26). The defaults are the reset values. -/
structure NodeEntry where
  valid  : Bool := false
  kind   : NodeKind := .leaf
  left   : NodeIdx := 0#9
  right  : NodeIdx := 0#9
  symbol : Symbol := 0#8
  weight : Word := 0#32
deriving DecidableEq, Repr

/-- One code table entry (R30). Code bit `k` is `cval[clen - 1 - k]`. The defaults are the reset values. -/
structure CodeEntry where
  cvalid : Bool := false
  clen   : BitVec 8 := 0#8
  cval   : BitVec 255 := 0#255
deriving DecidableEq, Repr

/-- `FREQ[0..255]` (R25). -/
abbrev FreqTable := Vector Word Config.NSYM

/-- `NODE[0..510]` (R26). -/
abbrev Arena := Vector NodeEntry Config.NNODE

/-- `CODE[0..255]` (R30). -/
abbrev CodeTable := Vector CodeEntry Config.NSYM

/-- The causes a command can fail with (60_exceptions.md R230). -/
inductive Cause where
  | emptyAlphabet
  | unknownSymbol
  | truncatedStream
  | invalidTree
  | illegalCommand
  | overflow
deriving DecidableEq, Repr

/-- The RESULT of a command (R230). Code 7 is reserved and never returned, so it has no constructor. -/
inductive Result where
  | ok
  | failed (c : Cause)
deriving DecidableEq, Repr

/-- The argument of `raise E(info)` (R13, R236). -/
structure Raise where
  cause : Cause
  info  : Info
deriving DecidableEq, Repr

/-- What a command hands back on success: the read word and the output streams (R13, R78). -/
structure Output where
  rdata   : Word := 0#32
  outSyms : List Symbol := []
  outBits : List Bit := []
deriving DecidableEq, Repr

/-- The response to a command: `(RESULT, RDATA, OUT_SYMS, OUT_BITS)` (R16, R78). -/
structure Response where
  result  : Result
  rdata   : Word
  outSyms : List Symbol
  outBits : List Bit
deriving DecidableEq, Repr

/-- What the outside can do to the block between two commands. -/
inductive HostEvent where
  /-- The host issues a command (R16). -/
  | command (c : Command)
  /-- The reset is applied, between commands or in place of a command it abandons (R260, R261). -/
  | reset
  /-- A command from a second host on the same instance (R248): the step refuses it. -/
  | secondHost (c : Command)
  /-- The power is lost and comes back (R250): the step refuses it. -/
  | powerLoss
deriving DecidableEq, Repr

/-- The machine. The first eight fields are the architectural state, all of it (R22); the last three are the
model's record of the host interface (notes/assumptions/1.md). -/
structure State where
  /-- `FREQ` (R25) -/
  freq       : FreqTable
  /-- `NODE` (R26) -/
  node       : Arena
  /-- `ROOT_VALID` (R29) -/
  rootValid  : Bool
  /-- `ROOT_IDX` (R29) -/
  rootIdx    : NodeIdx
  /-- `CODE` (R30) -/
  code       : CodeTable
  /-- `TABLE_VALID` (R31) -/
  tableValid : Bool
  /-- `LAST_ERR` (R23) -/
  lastErr    : BitVec 3
  /-- `ERR_INFO` (R24) -/
  errInfo    : Info
  /-- What the host has yet to do, next first (R21, R271). -/
  pending    : List HostEvent
  /-- The index of the next command in the host's list (R21). -/
  pos        : Nat
  /-- The responses returned so far, oldest first (R271). -/
  responses  : List Response
deriving DecidableEq, Repr

/-- No command and no event faults: "No behaviour of this hardware is `stuck` or `any value`"
(93_implementation_defined.md), and an error is a response and a next state (R236). Closed, without
constructors: nobody raises a fault. -/
inductive Fault where
deriving DecidableEq, Repr

/-- Why a step has no meaning. -/
inductive Refusal where
  /-- Raised by an arm of `exec` whose instruction has no meaning yet. Safe: the machine stops. -/
  | notModelled (mnemonic : String)
  /-- Raised by `step` on a second host's command: "a model must refuse it" (R248). Safe: the machine stops. -/
  | secondHost
  /-- Raised by `step` on a power loss: the state after it "is not specified" (R250). Safe: the machine stops. -/
  | powerLoss
deriving DecidableEq, Repr

/-- The machine right after reset: every field of R22 is 0 (R35, R260). The host interface is empty
(notes/assumptions/15.md). -/
def State.reset : State where
  freq       := Vector.replicate Config.NSYM 0#32
  node       := Vector.replicate Config.NNODE {}
  rootValid  := false
  rootIdx    := 0#9
  code       := Vector.replicate Config.NSYM {}
  tableValid := false
  lastErr    := 0#3
  errInfo    := 0#64
  pending    := []
  pos        := 0
  responses  := []

end Sys2Proof.Machine
end

