-- ==== Sys2Proof/Machine/Operands.lean ====
section
/-! DEFINITION. The word formats of the command interface (30_encoding.md R73 to R77) and the elements of the
three tables (20_memory.md R50, R55). -/

namespace Sys2Proof.Machine

/-- Reading `KIND` as a bit (R26). -/
def NodeKind.bit : NodeKind → Bool
  | .leaf => false
  | .internal => true

/-- The kind a `KIND` bit names (R26). -/
def NodeKind.ofBit : Bool → NodeKind
  | false => .leaf
  | true => .internal

/-- The structure word `{VALID, KIND, LEFT, RIGHT, 0b0000, SYMBOL}` of an entry (R73). -/
def NodeEntry.structureWord (e : NodeEntry) : Word :=
  BitVec.ofBool e.valid ++ BitVec.ofBool e.kind.bit ++ e.left ++ e.right ++ 0#4 ++ e.symbol

/-- The entry with its fields of the structure word taken from `d`; the weight stays (R73, R130). -/
def NodeEntry.withStructureWord (e : NodeEntry) (d : Word) : NodeEntry :=
  { e with
    valid  := d.getLsbD 31
    kind   := NodeKind.ofBit (d.getLsbD 30)
    left   := d.extractLsb' 21 9
    right  := d.extractLsb' 12 9
    symbol := d.extractLsb' 0 8 }

/-- The word of an entry that NODE_RD returns (R73, R74, R129). -/
def NodeEntry.word (e : NodeEntry) : NodeSel → Word
  | .structureWord => e.structureWord
  | .weightWord => e.weight

/-- The entry after NODE_WR of `d` (R73, R74, R130). -/
def NodeEntry.withWord (e : NodeEntry) : NodeSel → Word → NodeEntry
  | .structureWord, d => e.withStructureWord d
  | .weightWord, d => { e with weight := d }

/-- The root word `{ROOT_VALID, 0^22, ROOT_IDX}` (R29, R75). -/
def rootWord (valid : Bool) (idx : NodeIdx) : Word := BitVec.ofBool valid ++ 0#22 ++ idx

/-- `ROOT_VALID` of a root word (R75). -/
def rootWordValid (d : Word) : Bool := d.getLsbD 31

/-- `ROOT_IDX` of a root word (R75). -/
def rootWordIdx (d : Word) : NodeIdx := d.extractLsb' 0 9

/-- The code header word `{CVALID, 0^23, CLEN}` (R76). -/
def CodeEntry.headerWord (e : CodeEntry) : Word := BitVec.ofBool e.cvalid ++ 0#23 ++ e.clen

/-- Value word `k`, bits `[32k+31 : 32k]` of the code value extended to 256 bits (R77). -/
def CodeEntry.valueWord (e : CodeEntry) (k : Nat) : Word := (e.cval.setWidth 256).extractLsb' (32 * k) 32

/-- The word of a code entry that CODE_RD returns for `SEL` (R155). -/
def CodeEntry.word (e : CodeEntry) (sel : BitVec 4) : Word :=
  if sel = 0#4 then e.headerWord else e.valueWord (sel.toNat - 1)

/-- `value(p)`: a bit string as a number, first bit most significant (R152). -/
def pathValue (p : List Bit) : Nat := p.foldl (fun v b => 2 * v + b.toNat) 0

/-- The code entry of the path `p` (R151). -/
def CodeEntry.ofPath (p : List Bit) : CodeEntry where
  cvalid := true
  clen   := BitVec.ofNat 8 p.length
  cval   := BitVec.ofNat 255 (pathValue p)

/-- The bits an encoder emits for an entry: `CVAL[CLEN - 1 - j]` for `j` from 0 (R30, R171). -/
def CodeEntry.bits (e : CodeEntry) : List Bit :=
  (List.range e.clen.toNat).map (fun j => e.cval.getLsbD (e.clen.toNat - 1 - j))

/-- `FREQ[c]` of a table (R12, R25). -/
def FreqTable.entry (f : FreqTable) (c : Symbol) : Word := f[c.toNat]'c.isLt

/-- The table after `FREQ[c] <- v` (R12). -/
def FreqTable.put (f : FreqTable) (c : Symbol) (v : Word) : FreqTable := f.set c.toNat v c.isLt

/-- The table with every count 0 (R25). -/
def FreqTable.zero : FreqTable := Vector.replicate Config.NSYM 0#32

/-- `NODE[i]` of an arena. Index 511 names no slot, and reads as an empty one (R28, notes/assumptions/9.md). -/
def Arena.entry (A : Arena) (i : NodeIdx) : NodeEntry := A[i.toNat]?.getD {}

/-- The arena after `NODE[i] <- e`. Index 511 names no slot, and nothing is written (notes/assumptions/9.md). -/
def Arena.put (A : Arena) (i : NodeIdx) (e : NodeEntry) : Arena := A.setIfInBounds i.toNat e

/-- The arena with every field of every entry 0 (R26). -/
def Arena.empty : Arena := Vector.replicate Config.NNODE {}

/-- `absent(j)`: `j` is 511 or names an empty slot (R28). -/
def Arena.absent (A : Arena) (j : NodeIdx) : Bool := j == Config.NULL_IDX || !(A.entry j).valid

/-- `CODE[c]` of a table (R12, R30). -/
def CodeTable.entry (t : CodeTable) (c : Symbol) : CodeEntry := t[c.toNat]'c.isLt

/-- The table after `CODE[c] <- e` (R12). -/
def CodeTable.put (t : CodeTable) (c : Symbol) (e : CodeEntry) : CodeTable := t.set c.toNat e c.isLt

/-- The table with every field of every entry 0 (R30, R31). -/
def CodeTable.empty : CodeTable := Vector.replicate Config.NSYM {}

end Sys2Proof.Machine
end

