-- ==== Sys2Proof/Machine/Flags.lean ====
section
/-! DEFINITION. The result codes and the STATUS, ERR_INFO and ROOT registers behind REG_RD
(10_state.md R23, R24, R29; 45_control.md R212, R213; 60_exceptions.md R230). -/

namespace Sys2Proof.Machine

/-- The 3-bit code of a cause (R230). -/
def Cause.code : Cause → BitVec 3
  | .emptyAlphabet => 1#3
  | .unknownSymbol => 2#3
  | .truncatedStream => 3#3
  | .invalidTree => 4#3
  | .illegalCommand => 5#3
  | .overflow => 6#3

/-- The 3-bit RESULT (R230). -/
def Result.code : Result → BitVec 3
  | .ok => 0#3
  | .failed c => c.code

/-- `zext_32({TABLE_VALID, ROOT_VALID, 0b0, LAST_ERR})` (R23). -/
def statusWord (tableValid rootValid : Bool) (lastErr : BitVec 3) : Word :=
  (BitVec.ofBool tableValid ++ BitVec.ofBool rootValid ++ 0#1 ++ lastErr).setWidth 32

/-- `ERR_INFO[31:0]` (R24). -/
def infoLow (info : Info) : Word := info.extractLsb' 0 32

/-- `ERR_INFO[63:32]` (R24). -/
def infoHigh (info : Info) : Word := info.extractLsb' 32 32

/-- The register of REG_RD's map with number `r` (R212, R213). -/
def State.register (s : State) (r : BitVec 2) : Word :=
  match r.toNat with
  | 0 => statusWord s.tableValid s.rootValid s.lastErr
  | 1 => infoLow s.errInfo
  | 2 => infoHigh s.errInfo
  | _ => rootWord s.rootValid s.rootIdx

end Sys2Proof.Machine
end

