-- ==== Sys2Proof/Machine/Ops.lean ====
section
/-! DEFINITION. The named operations over the state: the end of a command, with success or with an error
(00_scope.md R13; 60_exceptions.md R236), ClearTable (10_state.md R31), reset (70_reset_and_hazards.md R260), and
taking the next event from the host (10_state.md R21). -/

namespace Sys2Proof.Machine

/-- The response of a command that fails (R78, R236). -/
def Response.failure (c : Cause) : Response := ⟨.failed c, 0#32, [], []⟩

/-- The response of a command that succeeds (R13, R78). -/
def Response.success (o : Output) : Response := ⟨.ok, o.rdata, o.outSyms, o.outBits⟩

/-- The end of a command without `raise`: result OK (R13). The error record stays (R238). -/
def State.respond (s : State) (o : Output) : State :=
  { s with responses := s.responses ++ [Response.success o] }

/-- The error record, the one operation by which a command fails: `LAST_ERR <- E`, `ERR_INFO <- info`, respond
`(E, 0, [], [])`, and nothing else (R236). The block enters no handler and changes no mode (R237). -/
def State.raise (s : State) (e : Raise) : State :=
  { s with
    lastErr   := e.cause.code
    errInfo   := e.info
    responses := s.responses ++ [Response.failure e.cause] }

/-- The end of a command that ran from `s`: the writes and the output are committed together, or they are all
discarded and the error record is applied to `s` (R13, R56, R236). -/
def State.complete (s : State) : Except Raise (State × Output) → State
  | .ok (t, o) => t.respond o
  | .error e => s.raise e

/-- A command's outcome: every command ends in a next state (R16, R17). -/
def finish (s : State) (r : Except Raise (State × Output)) : Host.Outcome State Fault Refusal :=
  .next (s.complete r)

/-- `raise E(info)` with the information word given as a number (R13, R231). -/
def Raise.of (c : Cause) (info : Nat) : Raise := ⟨c, BitVec.ofNat 64 info⟩

/-- `raise ILLEGAL_COMMAND(0)` (R80, R83). -/
def State.illegal (s : State) : State := s.raise (Raise.of .illegalCommand 0)

/-- A command whose operands fail the checks of R80 is illegal; otherwise it does what `r` says. -/
def checked (ok : Bool) (r : Except Raise (State × Output)) : Except Raise (State × Output) :=
  if ok then r else .error (Raise.of .illegalCommand 0)

/-- ClearTable (R31). -/
def State.clearTable (s : State) : State := { s with code := CodeTable.empty, tableValid := false }

/-- `FREQ[c] <- v` (R12). -/
def State.writeFreq (s : State) (c : Symbol) (v : Word) : State := { s with freq := s.freq.put c v }

/-- `NODE[i] <- e` (R12). -/
def State.writeNode (s : State) (i : NodeIdx) (e : NodeEntry) : State := { s with node := s.node.put i e }

/-- `ROOT_VALID <- v; ROOT_IDX <- i` (R12, R29). -/
def State.writeRoot (s : State) (v : Bool) (i : NodeIdx) : State := { s with rootValid := v, rootIdx := i }

/-- Every piece of architectural state takes its reset value; the host interface is not part of it
(R35, R211, R260). -/
def State.toReset (s : State) : State :=
  { State.reset with pending := s.pending, pos := s.pos, responses := s.responses }

/-- The next event from the host, and the state in which it is executed: the position has moved on by 1 (R21). -/
def State.takeEvent (s : State) : Option (HostEvent × State) :=
  match s.pending with
  | [] => none
  | e :: rest => some (e, { s with pending := rest, pos := s.pos + 1 })

/-- The state in which the host issues command `c` next, before what it had yet to issue. -/
def State.issue (s : State) (c : Command) : State := { s with pending := .command c :: s.pending }

end Sys2Proof.Machine
end

