-- ==== Sys2Proof/Machine/CodeGenerator.lean ====
section
/-! DEFINITION. Code table generator commands (42_code_generator.md R150 to R159). -/

namespace Sys2Proof.Machine

/-- The worklist of GENCODE: entries `(i, p)`, top first (R152). It visits an index at most once and only the 511
slots can be visited, so `NNODE + 1` turns never run out (R17, notes/assumptions/10.md). -/
def walk (A : Arena) : Nat → List NodeIdx → List (NodeIdx × List Bit) → CodeTable → Except Raise CodeTable
  | _, _, [], t => .ok t
  | 0, _, _ :: _, _ => .error (Raise.of .invalidTree 0)
  | fuel + 1, seen, (i, p) :: stack, t =>
    if A.absent i || seen.contains i then .error (Raise.of .invalidTree 0)
    else
      match (A.entry i).kind with
      | .leaf =>
        if (t.entry (A.entry i).symbol).cvalid then .error (Raise.of .invalidTree 0)
        else walk A fuel (i :: seen) stack (t.put (A.entry i).symbol (CodeEntry.ofPath p))
      | .internal =>
        walk A fuel (i :: seen)
          (((A.entry i).left, p ++ [false]) :: ((A.entry i).right, p ++ [true]) :: stack) t

/-- GENCODE's table, a function of the root registers and the arena alone (R152, R158). A Leaf root gets the code
`0` (R154). -/
def generateTable (A : Arena) (rootValid : Bool) (root : NodeIdx) : Except Raise CodeTable :=
  if !rootValid || A.absent root then .error (Raise.of .invalidTree 0)
  else
    match (A.entry root).kind with
    | .leaf => .ok (CodeTable.empty.put (A.entry root).symbol (CodeEntry.ofPath [false]))
    | .internal => walk A (Config.NNODE + 1) [] [(root, [])] CodeTable.empty

/-- The writes of GENCODE (R152). -/
def State.generateCodes (s : State) : Except Raise State :=
  match generateTable s.node s.rootValid s.rootIdx with
  | .error e => .error e
  | .ok t => .ok { s with code := t, tableValid := true }

/-- GENCODE (R152). -/
def execGencode (s : State) : Host.Outcome State Fault Refusal :=
  finish s (do
    let t ← s.generateCodes
    .ok (t, {}))

/-- CODE_RD (R155). -/
def execCodeRd (c : Symbol) (sel : BitVec 4) (s : State) : Host.Outcome State Fault Refusal :=
  finish s (checked (codeSelOk sel) (.ok (s, { rdata := (s.code.entry c).word sel })))

end Sys2Proof.Machine
end

