-- ==== Sys2Proof/Machine/Control.lean ====
section
/-! DEFINITION. Control and register-access commands (45_control.md R210 to R216). -/

namespace Sys2Proof.Machine

/-- NOP (R210). -/
def execNop (s : State) : Host.Outcome State Fault Refusal :=
  finish s (.ok (s, {}))

/-- CLEAR (R211). -/
def execClear (s : State) : Host.Outcome State Fault Refusal :=
  finish s (.ok (s.toReset, {}))

/-- REG_RD (R212). -/
def execRegRd (r : BitVec 2) (s : State) : Host.Outcome State Fault Refusal :=
  finish s (.ok (s, { rdata := s.register r }))

end Sys2Proof.Machine
end

