-- ==== Sys2Proof/Machine/Decoder.lean ====
section
/-! DEFINITION. The decoder command (44_decoder.md R190 to R197). -/

namespace Sys2Proof.Machine

/-- The child a bit leads to: LEFT for 0, RIGHT for 1 (R191). -/
def NodeEntry.child (e : NodeEntry) (b : Bit) : NodeIdx := if b then e.right else e.left

/-- DECODE's loop from bit index `k`. `cur` is `none` in state ROOT and the current node in state IN_PROGRESS
(R191). The first error in stream order is the one raised (R234). -/
def decodeFrom (A : Arena) (root : NodeIdx) : Nat → Option NodeIdx → List Bit → Except Raise (List Symbol)
  | _, none, [] => .ok []
  | k, some _, [] => .error (Raise.of .truncatedStream k)
  | k, cur, b :: bs =>
    if k = Config.STREAM_MAX then .error (Raise.of .overflow Config.STREAM_MAX)
    else
      match (A.entry root).kind with
      | .leaf =>
        if b then .error (Raise.of .invalidTree k)
        else
          match decodeFrom A root (k + 1) cur bs with
          | .error e => .error e
          | .ok out => .ok ((A.entry root).symbol :: out)
      | .internal =>
        let nxt := (A.entry (cur.getD root)).child b
        if A.absent nxt then .error (Raise.of .invalidTree k)
        else
          match (A.entry nxt).kind with
          | .leaf =>
            match decodeFrom A root (k + 1) none bs with
            | .error e => .error e
            | .ok out => .ok ((A.entry nxt).symbol :: out)
          | .internal => decodeFrom A root (k + 1) (some nxt) bs

/-- The output of DECODE, a function of the stream, the root registers and the arena (R191, R197). -/
def decodeStream (A : Arena) (rootValid : Bool) (root : NodeIdx) (bits : List Bit) : Except Raise (List Symbol) :=
  if !bits.isEmpty && (!rootValid || A.absent root) then .error (Raise.of .invalidTree 0)
  else decodeFrom A root 0 none bits

/-- DECODE (R191). -/
def execDecode (bits : List Bit) (s : State) : Host.Outcome State Fault Refusal :=
  finish s (do
    let out ← decodeStream s.node s.rootValid s.rootIdx bits
    .ok (s, { outSyms := out }))

end Sys2Proof.Machine
end

