-- ==== Sys2Proof/Machine/Frequency.lean ====
section
/-! DEFINITION. Frequency counter commands (40_frequency_counter.md R100 to R105). -/

namespace Sys2Proof.Machine

/-- One turn of COUNT's loop: `FREQ[c] <- FREQ[c] + 1` (R101). -/
def FreqTable.increment (f : FreqTable) (c : Symbol) : FreqTable := f.put c (f.entry c + 1#32)

/-- The table COUNT leaves: every count 0, then one increment per symbol of the stream (R101). -/
def countTable (syms : List Symbol) : FreqTable := syms.foldl FreqTable.increment FreqTable.zero

/-- The stream length check of COUNT and ENCODE_ALL, then the writes of COUNT (R101, R172). -/
def State.countStream (s : State) (syms : List Symbol) : Except Raise State :=
  if syms.length > Config.SYM_STREAM_MAX then .error (Raise.of .overflow Config.SYM_STREAM_MAX)
  else .ok { s with freq := countTable syms }

/-- COUNT (R101). -/
def execCount (syms : List Symbol) (s : State) : Host.Outcome State Fault Refusal :=
  finish s (do
    let t ← s.countStream syms
    .ok (t, {}))

/-- FREQ_WR (R102). -/
def execFreqWr (c : Symbol) (n : Word) (s : State) : Host.Outcome State Fault Refusal :=
  finish s (.ok (s.writeFreq c n, {}))

/-- FREQ_RD (R103). -/
def execFreqRd (c : Symbol) (s : State) : Host.Outcome State Fault Refusal :=
  finish s (.ok (s, { rdata := s.freq.entry c }))

end Sys2Proof.Machine
end

