-- ==== Sys2Proof/Machine/TreeBuilder.lean ====
section
/-! DEFINITION. Tree builder and tree access commands (41_tree_builder.md R120 to R131). -/

namespace Sys2Proof.Machine

/-- The symbols with a non-zero count, in ascending order (R123, R25). -/
def presentSymbols (f : FreqTable) : List Symbol :=
  (f.toList.zipIdx.filter (fun p => p.1 != 0#32)).map (fun p => BitVec.ofNat 8 p.2)

/-- A Leaf entry as BUILD writes it (R123, R27). -/
def NodeEntry.newLeaf (c : Symbol) (w : Word) : NodeEntry :=
  { valid := true, kind := .leaf, symbol := c, weight := w }

/-- An Internal entry as BUILD writes it (R123, R27). -/
def NodeEntry.newInternal (l r : NodeIdx) (w : Word) : NodeEntry :=
  { valid := true, kind := .internal, left := l, right := r, weight := w }

/-- `A[j], A[j+1], …` receive one Leaf per symbol of the list, in its order (R123, R121). -/
def plantLeaves (f : FreqTable) : Nat → List Symbol → Arena → Arena
  | _, [], A => A
  | j, c :: cs, A => plantLeaves f (j + 1) cs (A.put (BitVec.ofNat 9 j) (NodeEntry.newLeaf c (f.entry c)))

/-- The priority key `(WEIGHT, index)` of `i` is less than that of `j` (R14, R121). -/
def Arena.before (A : Arena) (i j : NodeIdx) : Bool :=
  decide ((A.entry i).weight < (A.entry j).weight)
  || ((A.entry i).weight == (A.entry j).weight && decide (i < j))

/-- `argmin` over the non-empty set `h :: t` (R14). -/
def Arena.argmin (A : Arena) (h : NodeIdx) (t : List NodeIdx) : NodeIdx :=
  t.foldl (fun m i => if A.before i m then i else m) h

/-- The merge loop of BUILD with `m` merges to go, over the min-priority structure `h :: t`: it answers the arena
and the only element left (R123). The first node extracted goes LEFT (R122), and the merged node takes the next
free index (R121). -/
def mergeLoop : Nat → Arena → NodeIdx → List NodeIdx → Nat → Except Raise (Arena × NodeIdx)
  | 0, A, h, _, _ => .ok (A, h)
  | m + 1, A, h, t, next =>
    let a := A.argmin h t
    match (h :: t).erase a with
    | [] => .ok (A, a)
    | h₁ :: t₁ =>
      let b := A.argmin h₁ t₁
      let w := (A.entry a).weight.toNat + (A.entry b).weight.toNat
      if w > Config.CNT_MAX then .error (Raise.of .overflow 0)
      else
        let i := BitVec.ofNat 9 next
        mergeLoop m (A.put i (NodeEntry.newInternal a b (BitVec.ofNat 32 w))) i ((h₁ :: t₁).erase b) (next + 1)

/-- BUILD's arena and root index, a function of FREQ alone (R123, R127). The loop runs exactly `n - 1` times. -/
def buildTree (f : FreqTable) : Except Raise (Arena × NodeIdx) :=
  let syms := presentSymbols f
  let n := syms.length
  match (List.range n).map (BitVec.ofNat 9) with
  | [] => .error (Raise.of .emptyAlphabet 0)
  | h :: t => mergeLoop (n - 1) (plantLeaves f 0 syms Arena.empty) h t n

/-- The writes of BUILD (R123). -/
def State.buildFromFreq (s : State) : Except Raise State :=
  match buildTree s.freq with
  | .error e => .error e
  | .ok (A, r) => .ok ({ s with node := A }.writeRoot true r).clearTable

/-- BUILD (R123). -/
def execBuild (s : State) : Host.Outcome State Fault Refusal :=
  finish s (do
    let t ← s.buildFromFreq
    .ok (t, {}))

/-- NODE_RD (R129). -/
def execNodeRd (i : NodeIdx) (sel : NodeSel) (s : State) : Host.Outcome State Fault Refusal :=
  finish s (checked (nodeIndexOk i) (.ok (s, { rdata := (s.node.entry i).word sel })))

/-- NODE_WR (R130). -/
def execNodeWr (i : NodeIdx) (sel : NodeSel) (d : Word) (s : State) : Host.Outcome State Fault Refusal :=
  finish s (checked (nodeIndexOk i && nodeDataOk sel d)
    (.ok ((s.writeNode i ((s.node.entry i).withWord sel d)).clearTable, {})))

/-- ROOT_WR (R131). -/
def execRootWr (d : Word) (s : State) : Host.Outcome State Fault Refusal :=
  finish s (checked (rootWordOk d) (.ok ((s.writeRoot (rootWordValid d) (rootWordIdx d)).clearTable, {})))

end Sys2Proof.Machine
end

