-- ==== Sys2Proof/Machine/Encoder.lean ====
section
/-! DEFINITION. Encoder commands (43_encoder.md R170 to R175). -/

namespace Sys2Proof.Machine

/-- ENCODE's loop from stream index `k`: the length check, the symbol check, then the bits of the code (R171). -/
def encodeFrom (t : CodeTable) : Nat → List Symbol → Except Raise (List Bit)
  | _, [] => .ok []
  | k, c :: cs =>
    if k = Config.STREAM_MAX then .error (Raise.of .overflow Config.STREAM_MAX)
    else if !(t.entry c).cvalid then .error (Raise.of .unknownSymbol k)
    else
      match encodeFrom t (k + 1) cs with
      | .error e => .error e
      | .ok bs => .ok ((t.entry c).bits ++ bs)

/-- The output of ENCODE, a function of the code table and the stream (R170, R171). -/
def encodeStream (t : CodeTable) (syms : List Symbol) : Except Raise (List Bit) := encodeFrom t 0 syms

/-- ENCODE (R171). -/
def execEncode (syms : List Symbol) (s : State) : Host.Outcome State Fault Refusal :=
  finish s (do
    let bs ← encodeStream s.code syms
    .ok (s, { outBits := bs }))

/-- ENCODE_ALL's writes for the empty stream, after those of COUNT: no tree and no table (R172). -/
def State.dropTree (s : State) : State := ({ s with node := Arena.empty }.writeRoot false 0#9).clearTable

/-- ENCODE_ALL's writes and output (R172). -/
def State.encodeWhole (s : State) (syms : List Symbol) : Except Raise (State × Output) := do
  let s₁ ← s.countStream syms
  if syms.isEmpty then .ok (s₁.dropTree, {})
  else do
    let s₂ ← s₁.buildFromFreq
    let s₃ ← s₂.generateCodes
    let bs ← encodeStream s₃.code syms
    .ok (s₃, { outBits := bs })

/-- ENCODE_ALL (R172). -/
def execEncodeAll (syms : List Symbol) (s : State) : Host.Outcome State Fault Refusal :=
  finish s (s.encodeWhole syms)

end Sys2Proof.Machine
end

