-- ==== Sys2Proof/Machine/Dispatch.lean ====
section
/-! DEFINITION. One arm per command of the opcode table (30_encoding.md R79). -/

namespace Sys2Proof.Machine

def exec (i : Instr) (s : State) : Host.Outcome State Fault Refusal :=
  match i with
  | .nop => Sys2Proof.Machine.execNop s
  | .clear => Sys2Proof.Machine.execClear s
  | .regRd r => Sys2Proof.Machine.execRegRd r s
  | .count syms => Sys2Proof.Machine.execCount syms s
  | .freqWr c n => Sys2Proof.Machine.execFreqWr c n s
  | .freqRd c => Sys2Proof.Machine.execFreqRd c s
  | .build => Sys2Proof.Machine.execBuild s
  | .nodeRd j sel => Sys2Proof.Machine.execNodeRd j sel s
  | .nodeWr j sel d => Sys2Proof.Machine.execNodeWr j sel d s
  | .rootWr d => Sys2Proof.Machine.execRootWr d s
  | .gencode => Sys2Proof.Machine.execGencode s
  | .codeRd c sel => Sys2Proof.Machine.execCodeRd c sel s
  | .encode syms => Sys2Proof.Machine.execEncode syms s
  | .encodeAll syms => Sys2Proof.Machine.execEncodeAll syms s
  | .decode bits => Sys2Proof.Machine.execDecode bits s

end Sys2Proof.Machine
end

