-- ==== Sys2Proof/Machine/Step.lean ====
section
/-! DEFINITION. One step of the block: the next event of the host, executed to completion
(00_scope.md R16; 10_state.md R21; 70_reset_and_hazards.md R260, R261, R271). -/

namespace Sys2Proof.Machine

/-- A command is decoded and executed; one that does not decode raises ILLEGAL_COMMAND (R80, R83). -/
def execCommand (c : Command) (s : State) : Host.Outcome State Fault Refusal :=
  match decode c with
  | some i => exec i s
  | none => .next s.illegal

/-- One event (R16, R248, R250, R260). -/
def execEvent (e : HostEvent) (s : State) : Host.Outcome State Fault Refusal :=
  match e with
  | .command c => execCommand c s
  | .reset => .next s.toReset
  | .secondHost _ => .refused .secondHost
  | .powerLoss => .refused .powerLoss

/-- One step. With nothing issued the block is idle and holds its state (R250, notes/assumptions/3.md). -/
def step (s : State) : Host.Outcome State Fault Refusal :=
  match s.takeEvent with
  | none => .next s
  | some (e, t) => execEvent e t

/-- `s` with the command whose table bits are `w` issued by the host as its next one (notes/assumptions/2.md,
notes/assumptions/13.md). -/
def State.withFetchWord (s : State) (nbits w : Nat) : State := s.issue (tableCommand nbits w)

end Sys2Proof.Machine
end

