-- ==== Sys2Proof/Machine/Assembler.lean ====
section
/-! DEFINITION. The textual form of a program, one command a line, and its pseudo-instructions (30_encoding.md
R85, R86). A line gives the commands it encodes as; whether a command is legal is the decoder's question, not the
assembler's. What R53, R85 and R86 leave open is fixed in notes/assumptions/18.md (spelling), 19.md (the values of
characters) and 20.md (the values of operands). -/

namespace Sys2Proof.Machine.Asm

/-- An operand as it is written (R85). -/
inductive Operand where
  /-- A number, or a character in single quotes, which stands for a number wherever it is written
  (DESIGN CHOICE, notes/assumptions/20.md). -/
  | number (n : Nat)
  /-- A name such as `STATUS`, `S` or `H`. -/
  | name (cs : List Char)
  /-- A symbol stream: a double-quoted string or a bracketed list of numbers. -/
  | stream (syms : List Symbol)
  /-- A bit stream, `b"..."`. -/
  | bits (bs : List Bit)
deriving DecidableEq, Repr

/-- The value of a digit in bases up to 16. -/
def digit (c : Char) : Option Nat :=
  if '0' ≤ c ∧ c ≤ '9' then some (c.toNat - '0'.toNat)
  else if 'a' ≤ c ∧ c ≤ 'f' then some (c.toNat - 'a'.toNat + 10)
  else if 'A' ≤ c ∧ c ≤ 'F' then some (c.toNat - 'A'.toNat + 10)
  else none

/-- The digits of a number in a base, after the value `n` read so far. -/
def digits (base : Nat) : Nat → List Char → Option Nat
  | n, [] => some n
  | n, c :: cs =>
    match digit c with
    | some d => if d < base then digits base (n * base + d) cs else none
    | none => none

/-- A number: decimal, `0x` hexadecimal or `0b` binary (R10, R85). -/
def number : List Char → Option Nat
  | '0' :: 'x' :: c :: cs => digits 16 0 (c :: cs)
  | '0' :: 'b' :: c :: cs => digits 2 0 (c :: cs)
  | c :: cs => digits 10 0 (c :: cs)
  | [] => none

/-- A character as a symbol, by its ASCII value (R53). R53 says nothing of a character that has none: U+0080 to
U+00FF stand for the symbols of their code points, and a higher one for no symbol (DESIGN CHOICE,
notes/assumptions/19.md). -/
def symbolOf (c : Char) : Option Symbol := if c.toNat < 256 then some (BitVec.ofNat 8 c.toNat) else none

/-- A symbol written as a number. -/
def symbolOfNumber (n : Nat) : Option Symbol := if n < 256 then some (BitVec.ofNat 8 n) else none

/-- A bit of `b"..."`. -/
def bitOf (c : Char) : Option Bit := if c = '0' then some false else if c = '1' then some true else none

/-- A blank. -/
def isBlank (c : Char) : Bool := c == ' ' || c == '\t' || c == '\r' || c == '\n'

/-- The text without blanks at either end. -/
def trim (cs : List Char) : List Char := ((cs.dropWhile isBlank).reverse.dropWhile isBlank).reverse

/-- What quotation or bracket a character stands in. -/
inductive Inside where
  | nothing
  /-- Right behind an opening single quote: the next character is the quoted one, whichever it is. -/
  | quote
  /-- Behind the quoted character: the next single quote closes. -/
  | quoted
  | doubleQuote
  | bracket
deriving DecidableEq, Repr

/-- Where the next character stands, after `c`. -/
def Inside.after : Inside → Char → Inside
  | .nothing, c => if c = '\'' then .quote else if c = '"' then .doubleQuote else if c = '[' then .bracket else .nothing
  | .quote, _ => .quoted
  | .quoted, c => if c = '\'' then .nothing else .quoted
  | .doubleQuote, c => if c = '"' then .nothing else .doubleQuote
  | .bracket, c => if c = ']' then .nothing else .bracket

/-- The line up to the `;` that starts a comment (R85). -/
def withoutComment : Inside → List Char → List Char
  | _, [] => []
  | m, c :: cs => if m = .nothing ∧ c = ';' then [] else c :: withoutComment (m.after c) cs

/-- The pieces between commas that stand in no quotation or bracket; `cur` is the piece so far, reversed. -/
def pieces : Inside → List Char → List Char → List (List Char)
  | _, cur, [] => [cur.reverse]
  | m, cur, c :: cs =>
    if m = .nothing ∧ c = ',' then cur.reverse :: pieces .nothing [] cs else pieces (m.after c) (c :: cur) cs

/-- The characters of a string up to the closing double quote, which ends the operand. -/
def untilQuote : List Char → Option (List Char)
  | [] => none
  | '"' :: cs => if cs = [] then some [] else none
  | c :: cs => (untilQuote cs).map (c :: ·)

/-- The characters of a list up to the closing bracket, which ends the operand. -/
def untilBracket : List Char → Option (List Char)
  | [] => none
  | ']' :: cs => if cs = [] then some [] else none
  | c :: cs => (untilBracket cs).map (c :: ·)

/-- The symbols of a bracketed list (R85). -/
def listSymbols (cs : List Char) : Option (List Symbol) :=
  if trim cs = [] then some []
  else (pieces .nothing [] cs).mapM (fun p => (number (trim p)).bind symbolOfNumber)

/-- One operand (R85). A character in single quotes has its symbol's number (notes/assumptions/19.md, 20.md). -/
def operand (text : List Char) : Option Operand :=
  match trim text with
  | [] => none
  | ['\'', c, '\''] => (symbolOf c).map (fun s => .number s.toNat)
  | 'b' :: '"' :: cs => ((untilQuote cs).bind (List.mapM bitOf)).map .bits
  | '"' :: cs => ((untilQuote cs).bind (List.mapM symbolOf)).map .stream
  | '[' :: cs => ((untilBracket cs).bind listSymbols).map .stream
  | c :: cs => if c.isDigit then (number (c :: cs)).map .number else some (.name (c :: cs))

/-- The operands of a line; none when nothing follows the mnemonic. -/
def operands (text : List Char) : Option (List Operand) :=
  if trim text = [] then some [] else (pieces .nothing [] text).mapM operand

/-- A number that fits `w` bits. -/
def fits (w n : Nat) : Option Nat := if n < 2 ^ w then some n else none

/-- A register operand of REG_RD: a number or one of the names of R85. What numbers the operands of a line may be is
the model's choice, here and below (DESIGN CHOICE, notes/assumptions/20.md). -/
def registerOperand : Operand → Option Nat
  | .number n => fits 16 n
  | .name cs =>
    if cs = "STATUS".toList then some 0
    else if cs = "INFO_LO".toList then some 1
    else if cs = "INFO_HI".toList then some 2
    else if cs = "ROOT".toList then some 3
    else none
  | .stream _ => none
  | .bits _ => none

/-- A word selector of NODE_RD and NODE_WR: a number, `S` or `W` (R85). -/
def nodeSelOperand : Operand → Option Nat
  | .number n => fits 4 n
  | .name cs => if cs = ['S'] then some 0 else if cs = ['W'] then some 1 else none
  | .stream _ => none
  | .bits _ => none

/-- A word selector of CODE_RD: a number or `H` (R85). -/
def codeSelOperand : Operand → Option Nat
  | .number n => fits 4 n
  | .name cs => if cs = ['H'] then some 0 else none
  | .stream _ => none
  | .bits _ => none

/-- A symbol or node operand: a number that fits the IDX field (R71, R85). -/
def indexOperand : Operand → Option Nat
  | .number n => fits 16 n
  | .name _ => none
  | .stream _ => none
  | .bits _ => none

/-- A 32-bit number, or a quoted character in place of one (R85; DESIGN CHOICE, notes/assumptions/20.md). -/
def wordOperand : Operand → Option Nat
  | .number n => fits 32 n
  | .name _ => none
  | .stream _ => none
  | .bits _ => none

/-- A command word `base | (sel << 16) | idx` (R85). -/
def word (base sel idx : Nat) : Word := BitVec.ofNat 32 (base ||| (sel <<< 16) ||| idx)

/-- `NODE_WR i, sel, d` (R85). -/
def nodeWr (i sel d : Nat) : Command := { cmd := word 0x22000000 sel i, data := BitVec.ofNat 32 d }

/-- `ROOT_WR d` (R85). -/
def rootWr (d : Nat) : Command := { cmd := word 0x23000000 0 0, data := BitVec.ofNat 32 d }

/-- `REG_RD r` (R85). -/
def regRd (r : Nat) : Command := { cmd := word 0x02000000 0 r }

/-- The lines of R85 without an operand, and the pseudo-instructions of R86 that stand for one of them. -/
def plainLine (m : List Char) : Option (List Command) :=
  if m = "NOP".toList then some [{ cmd := word 0x00000000 0 0 }]
  else if m = "CLEAR".toList then some [{ cmd := word 0x01000000 0 0 }]
  else if m = "BUILD".toList ∨ m = "BUILD_TREE".toList then some [{ cmd := word 0x20000000 0 0 }]
  else if m = "GENCODE".toList ∨ m = "BUILD_TABLE".toList then some [{ cmd := word 0x30000000 0 0 }]
  else if m = "NOROOT".toList then some [rootWr 0]
  else if m = "RD_STATUS".toList then some [regRd 0]
  else if m = "RD_INFO".toList then some [regRd 1, regRd 2]
  else if m = "RD_ROOT".toList then some [regRd 3]
  else none

/-- The lines of R85 and R86 with a stream operand. -/
def streamLine (m : List Char) : Operand → Option (List Command)
  | .stream syms =>
    if m = "COUNT".toList then some [{ cmd := word 0x10000000 0 0, syms := syms }]
    else if m = "ENCODE".toList then some [{ cmd := word 0x40000000 0 0, syms := syms }]
    else if m = "ENCODE_ALL".toList ∨ m = "HUFF_ENCODE".toList then
      some [{ cmd := word 0x41000000 0 0, syms := syms }]
    else none
  | .bits bs =>
    if m = "DECODE".toList ∨ m = "HUFF_DECODE".toList then some [{ cmd := word 0x50000000 0 0, bits := bs }] else none
  | .number _ => none
  | .name _ => none

/-- The lines of R85 and R86 with one operand. -/
def lineOne (m : List Char) (x : Operand) : Option (List Command) :=
  if m = "REG_RD".toList then (registerOperand x).map (fun r => [regRd r])
  else if m = "FREQ_RD".toList then (indexOperand x).map (fun s => [{ cmd := word 0x12000000 0 s }])
  else if m = "ROOT_WR".toList then (wordOperand x).map (fun d => [rootWr d])
  else if m = "SETROOT".toList then (indexOperand x).map (fun i => [rootWr (0x80000000 ||| i)])
  else streamLine m x

/-- The lines of R85 with two operands. -/
def lineTwo (m : List Char) (x y : Operand) : Option (List Command) :=
  if m = "FREQ_WR".toList then do
    let s ← indexOperand x
    let n ← wordOperand y
    some [{ cmd := word 0x11000000 0 s, data := BitVec.ofNat 32 n }]
  else if m = "NODE_RD".toList then do
    let i ← indexOperand x
    let sel ← nodeSelOperand y
    some [{ cmd := word 0x21000000 sel i }]
  else if m = "CODE_RD".toList then do
    let s ← indexOperand x
    let sel ← codeSelOperand y
    some [{ cmd := word 0x31000000 sel s }]
  else none

/-- The lines of R85 and R86 with three operands: NODE_WR and `LEAF i, s, w`. As in the other lines `s` is accepted up
to 16 bits (DESIGN CHOICE, notes/assumptions/20.md). -/
def lineThree (m : List Char) (x y z : Operand) : Option (List Command) :=
  if m = "NODE_WR".toList then do
    let i ← indexOperand x
    let sel ← nodeSelOperand y
    let d ← wordOperand z
    some [nodeWr i sel d]
  else if m = "LEAF".toList then do
    let i ← indexOperand x
    let s ← indexOperand y
    let w ← wordOperand z
    some [nodeWr i 0 (0x80000000 ||| s), nodeWr i 1 w]
  else none

/-- The line `INODE i, l, r, w` (R86). R86 gives `l` and `r` no range: the line is accepted if they fit the 9 bits of
their fields (DESIGN CHOICE, notes/assumptions/20.md). -/
def lineFour (m : List Char) (x y z u : Operand) : Option (List Command) :=
  if m = "INODE".toList then do
    let i ← indexOperand x
    let l ← (indexOperand y).bind (fun n => fits 9 n)
    let r ← (indexOperand z).bind (fun n => fits 9 n)
    let w ← wordOperand u
    some [nodeWr i 0 (0xC0000000 ||| (l <<< 21) ||| (r <<< 12)), nodeWr i 1 w]
  else none

/-- The commands of a mnemonic and its operands (R85, R86). -/
def instruction (m : List Char) : List Operand → Option (List Command)
  | [] => plainLine m
  | [x] => lineOne m x
  | [x, y] => lineTwo m x y
  | [x, y, z] => lineThree m x y z
  | [x, y, z, u] => lineFour m x y z u
  | _ :: _ :: _ :: _ :: _ :: _ => none

/-- One line: no command for a blank line or a comment, `none` for a line R85 and R86 do not describe. -/
def line (text : List Char) : Option (List Command) :=
  let body := trim (withoutComment .nothing text)
  if body = [] then some []
  else
    let isName (c : Char) : Bool := c.isAlphanum || c == '_'
    let m := body.takeWhile isName
    match body.dropWhile isName with
    | [] => instruction m []
    | c :: rest => if isBlank c then (operands rest).bind (instruction m) else none

/-- A program: its lines, one command a line, in order (R85). -/
def program (lines : List String) : Option (List Command) :=
  (lines.mapM (fun l => line l.toList)).map List.flatten

end Sys2Proof.Machine.Asm
end

