-- ==== Sys2Proof/Safety.lean ====
section
/-! DEFINITION. The terms in which the claims speak: what a command leaves unchanged, the tree that stands in the
arena, the defects of R153, and the invariant of the machine (10_state.md R31, R32; 60_exceptions.md R230). -/

namespace Sys2Proof.Machine

/-! ### Frames (10_state.md R34) -/

/-- FREQ is unchanged. -/
def SameFreq (s t : State) : Prop := t.freq = s.freq

/-- The arena and the root registers are unchanged. -/
def SameTree (s t : State) : Prop := t.node = s.node ∧ t.rootValid = s.rootValid ∧ t.rootIdx = s.rootIdx

/-- The code table and TABLE_VALID are unchanged. -/
def SameTable (s t : State) : Prop := t.code = s.code ∧ t.tableValid = s.tableValid

/-- LAST_ERR and ERR_INFO are unchanged. -/
def SameErrors (s t : State) : Prop := t.lastErr = s.lastErr ∧ t.errInfo = s.errInfo

/-- What the host has yet to do, and the position in its list, are unchanged. -/
def SameHost (s t : State) : Prop := t.pending = s.pending ∧ t.pos = s.pos

/-- From `s` to `t` the command answered OK with output `o`, and nothing more was answered (R13, R78). -/
def AnswersOk (s t : State) (o : Output) : Prop :=
  t.responses = s.responses ++ [⟨.ok, o.rdata, o.outSyms, o.outBits⟩]

/-- From `s` to `t` the command answered with the response `r`, and nothing more was answered (R16). -/
def Responds (s t : State) (r : Response) : Prop := t.responses = s.responses ++ [r]

/-- All of the architectural state of R22 is unchanged. -/
def SameState (s t : State) : Prop := SameFreq s t ∧ SameTree s t ∧ SameTable s t ∧ SameErrors s t

/-- The command did nothing but answer OK with output `o`. -/
def OnlyAnswers (s t : State) (o : Output) : Prop :=
  SameFreq s t ∧ SameTree s t ∧ SameTable s t ∧ SameErrors s t ∧ SameHost s t ∧ AnswersOk s t o

/-- The command failed with cause `c` and information `info`: the error record of R236 and nothing else. -/
def FailsWith (s t : State) (c : Cause) (info : Info) : Prop :=
  SameFreq s t ∧ SameTree s t ∧ SameTable s t ∧ SameHost s t ∧ t.lastErr = c.code ∧ t.errInfo = info
  ∧ t.responses = s.responses ++ [⟨.failed c, 0#32, [], []⟩]

/-- Every piece of architectural state is 0 (R22, R35). -/
def AllZero (s : State) : Prop :=
  (∀ c : Symbol, s.freq.entry c = 0#32)
  ∧ (∀ i : NodeIdx, s.node.entry i = ⟨false, .leaf, 0#9, 0#9, 0#8, 0#32⟩)
  ∧ s.rootValid = false ∧ s.rootIdx = 0#9
  ∧ (∀ c : Symbol, s.code.entry c = ⟨false, 0#8, 0#255⟩)
  ∧ s.tableValid = false ∧ s.lastErr = 0#3 ∧ s.errInfo = 0#64

/-- The code table is cleared (R31). -/
def TableCleared (t : State) : Prop := t.tableValid = false ∧ ∀ c : Symbol, t.code.entry c = {}

/-! ### Illegal commands (30_encoding.md R80) -/

/-- The eight conditions of R80, any one of which makes a command illegal. -/
inductive IllegalForm (c : Command) : Prop where
  /-- 1. OPC is not in the table. -/
  | noRow (h : ∀ r ∈ opcodeTable, r.opc ≠ opcField c.cmd)
  /-- 2. `(CMD AND Mask) ≠ Match` for the row of OPC. -/
  | mask (r : Row) (hr : r ∈ opcodeTable) (ho : r.opc = opcField c.cmd) (h : c.cmd &&& r.mask ≠ r.pattern)
  /-- 3. NODE_RD or NODE_WR with `IDX[8:0] = 0x1FF`. -/
  | node (ho : opcField c.cmd = 0x21#8 ∨ opcField c.cmd = 0x22#8) (h : c.cmd.extractLsb' 0 9 = 0x1FF#9)
  /-- 3. CODE_RD with `SEL > 8`. -/
  | sel (ho : opcField c.cmd = 0x31#8) (h : 8 < (c.cmd.extractLsb' 16 4).toNat)
  /-- 4. `DATA ≠ 0` for a row that does not use DATA. -/
  | data (r : Row) (hr : r ∈ opcodeTable) (ho : r.opc = opcField c.cmd) (hu : r.usesData = false) (h : c.data ≠ 0#32)
  /-- 5. NODE_WR with `SEL = 0` and `DATA[11:8] ≠ 0`. -/
  | structureWord (ho : opcField c.cmd = 0x22#8) (hs : c.cmd.extractLsb' 16 4 = 0#4) (h : c.data.extractLsb' 8 4 ≠ 0#4)
  /-- 6. ROOT_WR with `DATA[30:9] ≠ 0`. -/
  | rootWord (ho : opcField c.cmd = 0x23#8) (h : c.data.extractLsb' 9 22 ≠ 0#22)
  /-- 7. `SYMS` non-empty for a row whose stream in is not SYMS. -/
  | syms (r : Row) (hr : r ∈ opcodeTable) (ho : r.opc = opcField c.cmd) (hu : r.streamIn ≠ .syms) (h : c.syms ≠ [])
  /-- 8. `BITS` non-empty for a row whose stream in is not BITS. -/
  | bits (r : Row) (hr : r ∈ opcodeTable) (ho : r.opc = opcField c.cmd) (hu : r.streamIn ≠ .bits) (h : c.bits ≠ [])

/-! ### Sequences of commands -/

/-- The commands run one after the other, from the first state to the last (R60). -/
inductive Runs : State → List Instr → State → Prop where
  | nil (s : State) : Runs s [] s
  | cons {s t u : State} {i : Instr} {is : List Instr} (h : exec i s = .next t) (hs : Runs t is u) : Runs s (i :: is) u

end Sys2Proof.Machine

namespace Sys2Proof

/-- The command is none of those that replace or alter the tree (43_encoder.md R173, 41_tree_builder.md R128). -/
def Instr.keepsTree : Instr → Bool
  | .nop => true
  | .clear => false
  | .regRd _ => true
  | .count _ => true
  | .freqWr _ _ => true
  | .freqRd _ => true
  | .build => false
  | .nodeRd _ _ => true
  | .nodeWr _ _ _ => false
  | .rootWr _ => false
  | .gencode => true
  | .codeRd _ _ => true
  | .encode _ => true
  | .encodeAll _ => false
  | .decode _ => true

/-- The command is one of the four read commands (45_control.md R214). -/
def Instr.isRead : Instr → Bool
  | .nop => false
  | .clear => false
  | .regRd _ => true
  | .count _ => false
  | .freqWr _ _ => false
  | .freqRd _ => true
  | .build => false
  | .nodeRd _ _ => true
  | .nodeWr _ _ _ => false
  | .rootWr _ => false
  | .gencode => false
  | .codeRd _ _ => true
  | .encode _ => false
  | .encodeAll _ => false
  | .decode _ => false

end Sys2Proof

namespace Sys2Proof.Machine

/-- The state is reached by some number of steps of some program from reset (R271). -/
def Reachable (s : State) : Prop :=
  ∃ (events : List HostEvent) (k : Nat), Sys2Proof.core.run k { State.reset with pending := events } = .next s

/-! ### The tree in an arena -/

/-- The node that the path `p` leads to from node `i`, through Internal nodes: `false` goes LEFT and `true` goes
RIGHT (42_code_generator.md R151). `none` if a step starts at a Leaf or reaches an absent node. -/
def Arena.follow (A : Arena) (i : NodeIdx) : List Bit → Option NodeIdx
  | [] => if A.absent i then none else some i
  | b :: p =>
    if A.absent i then none
    else
      match (A.entry i).kind with
      | .leaf => none
      | .internal => A.follow ((A.entry i).child b) p

/-- The defects on which GENCODE fails, in the order of 42_code_generator.md R153. -/
inductive Malformed (A : Arena) (rootValid : Bool) (root : NodeIdx) : Prop where
  /-- Condition 1: no root, or the root index names an absent node. -/
  | noRoot (h : rootValid = false ∨ A.absent root = true)
  /-- Condition 2: a reachable Internal node has a null child. -/
  | nullChild (p : List Bit) (i : NodeIdx) (b : Bit) (h : A.follow root p = some i)
      (hk : (A.entry i).kind = .internal) (ha : A.absent ((A.entry i).child b) = true)
  /-- Condition 3: two different paths reach one node (the empty path reaches the root). -/
  | shared (p q : List Bit) (i : NodeIdx) (hne : p ≠ q) (hp : A.follow root p = some i)
      (hq : A.follow root q = some i)
  /-- Condition 4: two reachable Leaves carry the same symbol. -/
  | duplicate (p q : List Bit) (i j : NodeIdx) (hne : i ≠ j) (hp : A.follow root p = some i)
      (hq : A.follow root q = some j) (hi : (A.entry i).kind = .leaf) (hj : (A.entry j).kind = .leaf)
      (hs : (A.entry i).symbol = (A.entry j).symbol)

/-- `c` has the code `p` in the tree: `p` is the path from the root to a Leaf of symbol `c` (R151), or the root is
that Leaf and `p` is `0` (R154). -/
def HasCode (A : Arena) (root : NodeIdx) (c : Symbol) (p : List Bit) : Prop :=
  ∃ q i, A.follow root q = some i ∧ (A.entry i).kind = .leaf ∧ (A.entry i).symbol = c
    ∧ p = if q = [] then [false] else q

/-- `i` is a child of the Internal node `j`, on the side `b`. -/
def Arena.ChildOf (A : Arena) (i j : NodeIdx) (b : Bit) : Prop :=
  (A.entry j).valid = true ∧ (A.entry j).kind = .internal ∧ (A.entry j).child b = i

/-- `e` stores the code `p`: `CVALID` 1, `CLEN` the length, code bit `k` in `CVAL[CLEN - 1 - k]`, and the bits of
`CVAL` from `CLEN` up are 0 (10_state.md R30). -/
def CodeEntry.Stores (e : CodeEntry) (p : List Bit) : Prop :=
  e.cvalid = true ∧ e.clen.toNat = p.length
  ∧ (∀ (k : Nat) (h : k < p.length), e.cval.getLsbD (p.length - 1 - k) = p[k])
  ∧ e.cval.toNat < 2 ^ p.length

/-- The priority key `(WEIGHT, index)` of `i` is less than that of `j` (R14). -/
def Arena.KeyLess (A : Arena) (i j : NodeIdx) : Prop :=
  (A.entry i).weight.toNat < (A.entry j).weight.toNat
  ∨ ((A.entry i).weight = (A.entry j).weight ∧ i.toNat < j.toNat)

/-- Before node `j` was made, `i` was in the min-priority structure: it has a lower index, and it is the child of no
Internal node from `n` up that was made before `j` (R123). -/
def Arena.WaitingAt (A : Arena) (n j : Nat) (i : NodeIdx) : Prop :=
  i.toNat < j ∧ ∀ k : NodeIdx, n ≤ k.toNat → k.toNat < j → (A.entry k).left ≠ i ∧ (A.entry k).right ≠ i

/-- The nodes `n`, `n + 1`, … `m - 1` were made in that order, each of the two nodes with the least keys among those
waiting, the lesser on the left (41_tree_builder.md R121, R122). -/
def Arena.MergesTwoLeast (A : Arena) (n m : Nat) : Prop :=
  ∀ j : NodeIdx, n ≤ j.toNat → j.toNat < m →
    A.WaitingAt n j.toNat (A.entry j).left ∧ A.WaitingAt n j.toNat (A.entry j).right
    ∧ A.KeyLess (A.entry j).left (A.entry j).right
    ∧ ∀ i : NodeIdx, A.WaitingAt n j.toNat i → i ≠ (A.entry j).left → i ≠ (A.entry j).right →
        A.KeyLess (A.entry j).right i

/-- The number of distinct symbols: the `n` of R36 and R123. -/
def FreqTable.symbolCount (f : FreqTable) : Nat := f.toList.countP (fun w => w != 0#32)

/-- The sum of all counts (R104, R126). -/
def FreqTable.total (f : FreqTable) : Nat := (f.toList.map BitVec.toNat).sum

/-- The tree of the table `f` stands in the arena and root registers, as 10_state.md R36 lists it. -/
structure StandsBuilt (f : FreqTable) (t : State) : Prop where
  /-- Entries 0..n-1 are Leaves, each of a symbol with its count, -/
  leaf : ∀ j : NodeIdx, j.toNat < f.symbolCount → ∃ c : Symbol,
    t.node.entry j = ⟨true, .leaf, 0#9, 0#9, c, f.entry c⟩ ∧ f.entry c ≠ 0#32
  /-- in ascending symbol order, -/
  ascending : ∀ i j : NodeIdx, i.toNat < j.toNat → j.toNat < f.symbolCount →
    (t.node.entry i).symbol.toNat < (t.node.entry j).symbol.toNat
  /-- one for every symbol that has a count. -/
  every : ∀ c : Symbol, f.entry c ≠ 0#32 → ∃ j : NodeIdx, j.toNat < f.symbolCount ∧ (t.node.entry j).symbol = c
  /-- Entries n..2n-2 are Internal nodes, with nothing in the field they ignore. -/
  internal : ∀ j : NodeIdx, f.symbolCount ≤ j.toNat → j.toNat < 2 * f.symbolCount - 1 →
    (t.node.entry j).valid = true ∧ (t.node.entry j).kind = .internal ∧ (t.node.entry j).symbol = 0#8
  /-- Entries 2n-1..510 are empty. -/
  empty : ∀ j : NodeIdx, 2 * f.symbolCount - 1 ≤ j.toNat → t.node.entry j = ⟨false, .leaf, 0#9, 0#9, 0#8, 0#32⟩
  /-- `ROOT_VALID = 1`, -/
  rootValid : t.rootValid = true
  /-- and `ROOT_IDX = 2n - 2`. -/
  rootIdx : t.rootIdx.toNat = 2 * f.symbolCount - 2
  /-- Both children of an Internal node have smaller indices than it, -/
  lower : ∀ j : NodeIdx, f.symbolCount ≤ j.toNat → j.toNat < 2 * f.symbolCount - 1 →
    (t.node.entry j).left.toNat < j.toNat ∧ (t.node.entry j).right.toNat < j.toNat
  /-- and its weight is the exact sum of theirs. -/
  weight : ∀ j : NodeIdx, f.symbolCount ≤ j.toNat → j.toNat < 2 * f.symbolCount - 1 →
    (t.node.entry j).weight.toNat
      = (t.node.entry (t.node.entry j).left).weight.toNat + (t.node.entry (t.node.entry j).right).weight.toNat
  /-- The weight of the root is the sum of the counts. -/
  total : (t.node.entry t.rootIdx).weight.toNat = f.total
  /-- Every node other than the root is the child of exactly one Internal node, on one side. -/
  owned : ∀ i : NodeIdx, i.toNat < 2 * f.symbolCount - 2 → ∃! x : NodeIdx × Bit, t.node.ChildOf i x.1 x.2

/-! ### The invariant of the machine -/

/-- TABLE_VALID is 1 when the code table is the one GENCODE derives from the tree the arena and root registers now
hold; otherwise the table is empty (R31, R32). -/
def TableMatchesTree (s : State) : Prop :=
  (s.tableValid = true → generateTable s.node s.rootValid s.rootIdx = .ok s.code)
  ∧ (s.tableValid = false → s.code = CodeTable.empty)

/-- LAST_ERR is never the reserved code 7 (R230), and ERR_INFO is 0 if no command has failed (R24, R238). -/
def ErrorRecordLegal (s : State) : Prop := s.lastErr ≠ 7#3 ∧ (s.lastErr = 0#3 → s.errInfo = 0#64)

/-- What every step keeps. -/
structure Inv (s : State) : Prop where
  table : TableMatchesTree s
  errors : ErrorRecordLegal s

end Sys2Proof.Machine
end

