-- ==== Sys2Proof/Certificates/Slice0/Obligations.lean ====
section
/-! DEFINITION. The claims about the model. Each says what a numbered rule of the spec says the block does; a clause
that rests on a choice of the model names the log entry. -/

open Sys2Proof Sys2Proof.Machine

/-! ### Reset, steps and the host interface -/

/-- R35: after reset, and after CLEAR, every piece of state in R22 is 0. -/
def Obligations.ResetAndClearZeroEverything : Prop :=
  AllZero State.reset
  ∧ (∀ s : State, ∃ t, execEvent .reset s = .next t ∧ AllZero t)
  ∧ ∀ s : State, ∃ t, exec .clear s = .next t ∧ AllZero t ∧ SameHost s t ∧ AnswersOk s t {}

/-- R250: with no command the block is idle and holds its state. R261: a reset is a step of its own, between
commands, that sets the reset state and gives no response; that it moves the position on is the model's
(notes/assumptions/4.md). R248, R250: a second host and a power loss are refused (notes/assumptions/3.md, 5.md,
6.md). -/
def Obligations.StepsThatRunNoCommand : Prop :=
  ∀ (s : State) (rest : List HostEvent),
    (s.pending = [] → step s = .next s)
    ∧ (s.pending = .reset :: rest →
        step s = .next { State.reset with pending := rest, pos := s.pos + 1, responses := s.responses })
    ∧ (∀ c, s.pending = .secondHost c :: rest → step s = .refused .secondHost)
    ∧ (s.pending = .powerLoss :: rest → step s = .refused .powerLoss)

/-- R16, R21, R83: a step runs the command that is next, decoded, with the position moved on by 1. -/
def Obligations.StepRunsTheDecodedCommand : Prop :=
  ∀ (s : State) (c : Command) (rest : List HostEvent) (i : Instr),
    s.pending = .command c :: rest → decode c = some i →
    step s = exec i { s with pending := rest, pos := s.pos + 1 }

/-- R21, R264: one command is done per step, completely, whatever its result: it is taken from the host's list, the
position advances by exactly 1, and one response is added. -/
def Obligations.EveryCommandTakesOneStep : Prop :=
  ∀ (s : State) (c : Command) (rest : List HostEvent), s.pending = .command c :: rest →
    ∃ t r, step s = .next t ∧ t.pending = rest ∧ t.pos = s.pos + 1 ∧ Responds s t r

/-- R262: right after reset every command behaves as its rule says on the all-zero state; the five examples. -/
def Obligations.CommandsRightAfterReset : Prop :=
  (∃ t, exec .build State.reset = .next t ∧ FailsWith State.reset t .emptyAlphabet 0#64)
  ∧ (∃ t, exec .gencode State.reset = .next t ∧ FailsWith State.reset t .invalidTree 0#64)
  ∧ (∀ syms : List Symbol, syms ≠ [] →
      ∃ t, exec (.encode syms) State.reset = .next t ∧ FailsWith State.reset t .unknownSymbol 0#64)
  ∧ (∀ bits : List Bit, bits ≠ [] →
      ∃ t, exec (.decode bits) State.reset = .next t ∧ FailsWith State.reset t .invalidTree 0#64)
  ∧ ∃ t, exec (.decode []) State.reset = .next t ∧ OnlyAnswers State.reset t {}

/-! ### Encoding -/

/-- R80: a command to which any one of the eight conditions applies fails with ILLEGAL_COMMAND and information 0,
and changes nothing but the error record, before any other check of the command. -/
def Obligations.IllegalCommandsRaise : Prop :=
  ∀ (c : Command) (s : State), IllegalForm c →
    ∃ t, execCommand c s = .next t ∧ FailsWith s t .illegalCommand 0#64

/-- R83: the decoder refuses a command exactly when one of the conditions of R80 applies. -/
def Obligations.DecoderRefusesExactlyIllegalForms : Prop :=
  ∀ c : Command, decode c = none ↔ IllegalForm c

/-- R79: no command word selects two rows of the opcode table. R82: the reserved OPC values decode as illegal. R230:
the result codes, and that code 7 is never one. -/
def Obligations.CodesAreUnambiguous : Prop :=
  (∀ r₁ ∈ opcodeTable, ∀ r₂ ∈ opcodeTable, ∀ w : Word,
    w &&& r₁.mask = r₁.pattern → w &&& r₂.mask = r₂.pattern → r₁ = r₂)
  ∧ (∀ c : Command,
      (0x03 ≤ (opcField c.cmd).toNat ∧ (opcField c.cmd).toNat ≤ 0x0F)
      ∨ (0x13 ≤ (opcField c.cmd).toNat ∧ (opcField c.cmd).toNat ≤ 0x1F)
      ∨ (0x24 ≤ (opcField c.cmd).toNat ∧ (opcField c.cmd).toNat ≤ 0x2F)
      ∨ (0x32 ≤ (opcField c.cmd).toNat ∧ (opcField c.cmd).toNat ≤ 0x3F)
      ∨ (0x42 ≤ (opcField c.cmd).toNat ∧ (opcField c.cmd).toNat ≤ 0x4F)
      ∨ 0x51 ≤ (opcField c.cmd).toNat → decode c = none)
  ∧ Result.ok.code = 0#3 ∧ Cause.emptyAlphabet.code = 1#3 ∧ Cause.unknownSymbol.code = 2#3
  ∧ Cause.truncatedStream.code = 3#3 ∧ Cause.invalidTree.code = 4#3 ∧ Cause.illegalCommand.code = 5#3
  ∧ Cause.overflow.code = 6#3 ∧ ∀ r : Result, r.code ≠ 7#3

/-- R79, R81, R83, R85: decoding the encoding of a well-formed instruction gives it back. -/
def Obligations.DecodeOfEncode : Prop :=
  ∀ i : Instr, i.wellFormed = true → decode (encode i) = some i

/-- R79, R81, R83, R85: an instruction has one encoding only, and what decodes is well formed. -/
def Obligations.EncodeOfDecode : Prop :=
  ∀ (c : Command) (i : Instr), decode c = some i → encode i = c ∧ i.wellFormed = true

/-- R71, R79: words written out from the tables decode to what they stand for (a sanity check). -/
def Obligations.SpecWordsDecode : Prop :=
  decode { cmd := 0x02000003#32 } = some (.regRd 3#2)
  ∧ decode { cmd := 0x11000061#32, data := 3#32 } = some (.freqWr 0x61#8 3#32)
  ∧ decode { cmd := 0x21010004#32 } = some (.nodeRd 4#9 .weightWord)
  ∧ decode { cmd := 0x22000002#32, data := 0xC0001000#32 } = some (.nodeWr 2#9 .structureWord 0xC0001000#32)
  ∧ decode { cmd := 0x31080063#32 } = some (.codeRd 0x63#8 8#4)
  ∧ decode { cmd := 0x41000000#32, syms := [0x61#8] } = some (.encodeAll [0x61#8])
  ∧ decode { cmd := 0x50000000#32, bits := [false, true] } = some (.decode [false, true])

/-- R85: each line of the assembler encodes as the table says, for every operand, with numbers and with the names
of registers and words. -/
def Obligations.AssemblerLinesEncode : Prop :=
  (∀ (c : Symbol) (n d : Word) (r : BitVec 2) (i : NodeIdx) (sel : NodeSel) (k : BitVec 4) (syms : List Symbol)
      (bits : List Bit),
    Asm.instruction "NOP".toList [] = some [encode .nop]
    ∧ Asm.instruction "CLEAR".toList [] = some [encode .clear]
    ∧ Asm.instruction "REG_RD".toList [.number r.toNat] = some [encode (.regRd r)]
    ∧ Asm.instruction "COUNT".toList [.stream syms] = some [encode (.count syms)]
    ∧ Asm.instruction "FREQ_WR".toList [.number c.toNat, .number n.toNat] = some [encode (.freqWr c n)]
    ∧ Asm.instruction "FREQ_RD".toList [.number c.toNat] = some [encode (.freqRd c)]
    ∧ Asm.instruction "BUILD".toList [] = some [encode .build]
    ∧ Asm.instruction "NODE_RD".toList [.number i.toNat, .number sel.bits.toNat] = some [encode (.nodeRd i sel)]
    ∧ Asm.instruction "NODE_WR".toList [.number i.toNat, .number sel.bits.toNat, .number d.toNat]
        = some [encode (.nodeWr i sel d)]
    ∧ Asm.instruction "ROOT_WR".toList [.number d.toNat] = some [encode (.rootWr d)]
    ∧ Asm.instruction "GENCODE".toList [] = some [encode .gencode]
    ∧ Asm.instruction "CODE_RD".toList [.number c.toNat, .number k.toNat] = some [encode (.codeRd c k)]
    ∧ Asm.instruction "ENCODE".toList [.stream syms] = some [encode (.encode syms)]
    ∧ Asm.instruction "ENCODE_ALL".toList [.stream syms] = some [encode (.encodeAll syms)]
    ∧ Asm.instruction "DECODE".toList [.bits bits] = some [encode (.decode bits)])
  ∧ Asm.instruction "REG_RD".toList [.name "STATUS".toList] = some [encode (.regRd 0#2)]
  ∧ Asm.instruction "REG_RD".toList [.name "INFO_LO".toList] = some [encode (.regRd 1#2)]
  ∧ Asm.instruction "REG_RD".toList [.name "INFO_HI".toList] = some [encode (.regRd 2#2)]
  ∧ Asm.instruction "REG_RD".toList [.name "ROOT".toList] = some [encode (.regRd 3#2)]
  ∧ (∀ i : NodeIdx,
      Asm.instruction "NODE_RD".toList [.number i.toNat, .name ['S']] = some [encode (.nodeRd i .structureWord)]
      ∧ Asm.instruction "NODE_RD".toList [.number i.toNat, .name ['W']] = some [encode (.nodeRd i .weightWord)])
  ∧ ∀ c : Symbol, Asm.instruction "CODE_RD".toList [.number c.toNat, .name ['H']] = some [encode (.codeRd c 0#4)]

/-- R86: each pseudo-instruction expands into the commands shown. -/
def Obligations.PseudoInstructionsExpand : Prop :=
  (∀ (i l r : NodeIdx) (c : Symbol) (w : Word),
    Asm.instruction "LEAF".toList [.number i.toNat, .number c.toNat, .number w.toNat]
      = some [encode (.nodeWr i .structureWord (0x80000000#32 ||| c.setWidth 32)), encode (.nodeWr i .weightWord w)]
    ∧ Asm.instruction "INODE".toList [.number i.toNat, .number l.toNat, .number r.toNat, .number w.toNat]
      = some [encode (.nodeWr i .structureWord (0xC0000000#32 ||| (l.setWidth 32 <<< 21) ||| (r.setWidth 32 <<< 12))),
          encode (.nodeWr i .weightWord w)]
    ∧ Asm.instruction "SETROOT".toList [.number i.toNat] = some [encode (.rootWr (0x80000000#32 ||| i.setWidth 32))])
  ∧ Asm.instruction "NOROOT".toList [] = some [encode (.rootWr 0#32)]
  ∧ Asm.instruction "RD_STATUS".toList [] = some [encode (.regRd 0#2)]
  ∧ Asm.instruction "RD_INFO".toList [] = some [encode (.regRd 1#2), encode (.regRd 2#2)]
  ∧ Asm.instruction "RD_ROOT".toList [] = some [encode (.regRd 3#2)]
  ∧ (∀ syms, Asm.instruction "HUFF_ENCODE".toList [.stream syms] = some [encode (.encodeAll syms)])
  ∧ (∀ bits, Asm.instruction "HUFF_DECODE".toList [.bits bits] = some [encode (.decode bits)])
  ∧ Asm.instruction "BUILD_TREE".toList [] = some [encode .build]
  ∧ Asm.instruction "BUILD_TABLE".toList [] = some [encode .gencode]

/-! ### Rules over all commands -/

/-- A term of `Instr` that no command decodes to ends as an illegal command does (notes/assumptions/11.md). -/
def Obligations.IllFormedTermsAreIllegal : Prop :=
  ∀ (i : Instr) (s : State), i.wellFormed = false →
    ∃ t, exec i s = .next t ∧ FailsWith s t .illegalCommand 0#64

/-- R78: every command returns one response; the read word is that of a successful read, output bits come only from
a successful ENCODE or ENCODE_ALL, output symbols only from a successful DECODE, and a failure returns none of
them. -/
def Obligations.OneResponsePerCommand : Prop :=
  ∀ (c : Command) (s : State), ∃ t r, execCommand c s = .next t ∧ Responds s t r
    ∧ (r.rdata ≠ 0#32 → r.result = .ok ∧ ∃ i, decode c = some i ∧ i.isRead = true)
    ∧ (r.outBits ≠ [] → r.result = .ok ∧
        ((∃ syms, decode c = some (.encode syms)) ∨ ∃ syms, decode c = some (.encodeAll syms)))
    ∧ (r.outSyms ≠ [] → r.result = .ok ∧ ∃ bits, decode c = some (.decode bits))
    ∧ (r.result ≠ .ok → r.rdata = 0#32 ∧ r.outSyms = [] ∧ r.outBits = [])

/-- R236: a failing command applies the error record, and the state it leaves equals the state before it except
LAST_ERR and ERR_INFO. -/
def Obligations.FailureWritesOnlyTheErrorRecord : Prop :=
  ∀ (c : Command) (s : State), ∃ t r, execCommand c s = .next t ∧ Responds s t r ∧
    ∀ e, r.result = .failed e → FailsWith s t e t.errInfo

/-- R231: which command raises each cause, and the information word it records. For DECODE of a tree with a root, the
word is the index of the first bit whose step fails: the bits before it decode, or end in the middle of a path. -/
def Obligations.CausesAndInformation : Prop :=
  ∀ (c : Command) (s t : State) (e : Cause), execCommand c s = .next t → Responds s t (Response.failure e) →
    match e with
    | .emptyAlphabet => decode c = some .build ∧ t.errInfo = 0#64
    | .unknownSymbol => ∃ pre x post, decode c = some (.encode (pre ++ x :: post))
        ∧ (∀ d ∈ pre, (s.code.entry d).cvalid = true) ∧ (s.code.entry x).cvalid = false
        ∧ t.errInfo.toNat = pre.length
    | .truncatedStream => ∃ bits, decode c = some (.decode bits) ∧ t.errInfo.toNat = bits.length
    | .invalidTree => (decode c = some .gencode ∧ t.errInfo = 0#64)
        ∨ ∃ bits, decode c = some (.decode bits)
            ∧ ((s.rootValid = false ∨ s.node.absent s.rootIdx = true) → t.errInfo = 0#64)
            ∧ (s.rootValid = true → s.node.absent s.rootIdx = false →
                ∃ pre b post u, bits = pre ++ b :: post ∧ t.errInfo.toNat = pre.length
                  ∧ exec (.decode pre) s = .next u ∧ ¬ Responds s u (Response.failure .invalidTree)
                  ∧ ∃ v, exec (.decode (pre ++ [b])) s = .next v ∧ FailsWith s v .invalidTree t.errInfo)
    | .illegalCommand => decode c = none ∧ t.errInfo = 0#64
    | .overflow => (decode c = some .build ∧ t.errInfo = 0#64)
        ∨ (∃ syms, (decode c = some (.count syms) ∨ decode c = some (.encodeAll syms))
            ∧ t.errInfo = 0xFFFFFFFF#64 ∧ 0xFFFFFFFF < syms.length)
        ∨ (∃ syms, decode c = some (.encode syms) ∧ t.errInfo = 0xFFFFFFFFFFFFFFFF#64
            ∧ 0xFFFFFFFFFFFFFFFF < syms.length)
        ∨ ∃ bits, decode c = some (.decode bits) ∧ t.errInfo = 0xFFFFFFFFFFFFFFFF#64
            ∧ 0xFFFFFFFFFFFFFFFF < bits.length

/-- R238: a later success leaves the error record, a later failure overwrites it, and LAST_ERR = 0 means that no
command has failed since the last CLEAR. -/
def Obligations.ErrorRecordIsSticky : Prop :=
  (∀ (i : Instr) (s : State), i ≠ .clear → ∃ t r, exec i s = .next t ∧ Responds s t r
    ∧ (r.result = .ok → SameErrors s t) ∧ ∀ e, r.result = .failed e → t.lastErr = e.code)
  ∧ ∀ (is : List Instr) (s t : State), s.lastErr = 0#3 → .clear ∉ is → Runs s is t →
      ∃ rs, t.responses = s.responses ++ rs ∧ rs.length = is.length
        ∧ (t.lastErr = 0#3 ↔ ∀ r ∈ rs, r.result = .ok)

/-- R34: what each command may write, on success and on failure. -/
def Obligations.AccessMatrixWrites : Prop :=
  ∀ (i : Instr) (s : State), ∃ t, exec i s = .next t
    ∧ ((∀ syms, i ≠ .count syms) → (∀ c n, i ≠ .freqWr c n) → (∀ syms, i ≠ .encodeAll syms) → i ≠ .clear →
        SameFreq s t)
    ∧ (i ≠ .build → (∀ j sel d, i ≠ .nodeWr j sel d) → (∀ syms, i ≠ .encodeAll syms) → i ≠ .clear →
        t.node = s.node)
    ∧ (i ≠ .build → (∀ d, i ≠ .rootWr d) → (∀ syms, i ≠ .encodeAll syms) → i ≠ .clear →
        t.rootValid = s.rootValid ∧ t.rootIdx = s.rootIdx)
    ∧ (i ≠ .build → (∀ j sel d, i ≠ .nodeWr j sel d) → (∀ d, i ≠ .rootWr d) → i ≠ .gencode →
        (∀ syms, i ≠ .encodeAll syms) → i ≠ .clear → SameTable s t)
    ∧ (i ≠ .clear → (∃ o, AnswersOk s t o) → SameErrors s t)

/-- R34: what each command may read. A command's response, and all it leaves elsewhere, are the same whatever stands
in a piece of state it does not read. -/
def Obligations.AccessMatrixReads : Prop :=
  ∀ (i : Instr) (s : State),
    (∀ f : FreqTable, i ≠ .build → (∀ c, i ≠ .freqRd c) →
      ∃ t u r, exec i s = .next t ∧ exec i { s with freq := f } = .next u ∧ Responds s t r ∧ Responds s u r
        ∧ SameTree t u ∧ SameTable t u ∧ SameErrors t u)
    ∧ (∀ A : Arena, (∀ j sel, i ≠ .nodeRd j sel) → i ≠ .gencode → (∀ bits, i ≠ .decode bits) →
      ∃ t u r, exec i s = .next t ∧ exec i { s with node := A } = .next u ∧ Responds s t r ∧ Responds s u r
        ∧ SameFreq t u ∧ u.rootValid = t.rootValid ∧ u.rootIdx = t.rootIdx ∧ SameTable t u ∧ SameErrors t u)
    ∧ (∀ (v : Bool) (j : NodeIdx), (∀ r, i ≠ .regRd r) → i ≠ .gencode → (∀ bits, i ≠ .decode bits) →
      ∃ t u r, exec i s = .next t ∧ exec i { s with rootValid := v, rootIdx := j } = .next u
        ∧ Responds s t r ∧ Responds s u r ∧ SameFreq t u ∧ u.node = t.node ∧ SameTable t u ∧ SameErrors t u)
    ∧ (∀ T : CodeTable, (∀ c sel, i ≠ .codeRd c sel) → (∀ syms, i ≠ .encode syms) →
      ∃ t u r, exec i s = .next t ∧ exec i { s with code := T } = .next u ∧ Responds s t r ∧ Responds s u r
        ∧ SameFreq t u ∧ SameTree t u ∧ u.tableValid = t.tableValid ∧ SameErrors t u)
    ∧ (∀ v : Bool, (∀ r, i ≠ .regRd r) →
      ∃ t u r, exec i s = .next t ∧ exec i { s with tableValid := v } = .next u ∧ Responds s t r ∧ Responds s u r
        ∧ SameFreq t u ∧ SameTree t u ∧ u.code = t.code ∧ SameErrors t u)
    ∧ ∀ (l : BitVec 3) (n : Info), (∀ r, i ≠ .regRd r) →
      ∃ t u r, exec i s = .next t ∧ exec i { s with lastErr := l, errInfo := n } = .next u
        ∧ Responds s t r ∧ Responds s u r ∧ SameFreq t u ∧ SameTree t u ∧ SameTable t u

/-- R57: a successful read has no side effect and repeating it gives the same value; FREQ_WR, NODE_WR and ROOT_WR
done twice leave the state that doing them once leaves. -/
def Obligations.RepeatedAccess : Prop :=
  (∀ (i : Instr) (s : State), i.isRead = true → i.wellFormed = true →
    ∃ t u r, exec i s = .next t ∧ exec i t = .next u ∧ r.result = .ok
      ∧ SameState s t ∧ Responds s t r ∧ SameState t u ∧ Responds t u r)
  ∧ ∀ (i : Instr) (s : State),
      (∃ c n, i = .freqWr c n) ∨ (∃ j sel d, i = .nodeWr j sel d) ∨ (∃ d, i = .rootWr d) →
      ∃ t u, exec i s = .next t ∧ exec i t = .next u ∧ SameState t u

/-! ### Control and registers -/

/-- R210: NOP changes nothing, LAST_ERR and ERR_INFO among it, and answers (OK, 0, [], []). -/
def Obligations.NopDoesNothing : Prop :=
  ∀ s : State, ∃ t, exec .nop s = .next t ∧ OnlyAnswers s t {}

/-- R23, R24, R29, R212: REG_RD returns STATUS, the two halves of ERR_INFO, or the root word, bit by bit, and changes
nothing. -/
def Obligations.RegisterReads : Prop :=
  ∀ (r : BitVec 2) (s : State), ∃ t w, exec (.regRd r) s = .next t ∧ OnlyAnswers s t { rdata := w }
    ∧ (r = 0#2 → w.extractLsb' 0 3 = s.lastErr ∧ w.getLsbD 3 = false ∧ w.getLsbD 4 = s.rootValid
        ∧ w.getLsbD 5 = s.tableValid ∧ w.extractLsb' 6 26 = 0#26)
    ∧ (r = 1#2 → w = s.errInfo.extractLsb' 0 32)
    ∧ (r = 2#2 → w = s.errInfo.extractLsb' 32 32)
    ∧ (r = 3#2 → w.getLsbD 31 = s.rootValid ∧ w.extractLsb' 9 22 = 0#22 ∧ w.extractLsb' 0 9 = s.rootIdx)

/-! ### The frequency counter -/

/-- R104: after COUNT of a stream of at most 2^32 - 1 symbols each count is the number of occurrences, and the counts
sum to the length. Nothing else changes (R101). -/
def Obligations.CountCountsTheStream : Prop :=
  ∀ (syms : List Symbol) (s : State), syms.length ≤ 0xFFFFFFFF →
    ∃ t, exec (.count syms) s = .next t ∧ AnswersOk s t {} ∧ SameTree s t ∧ SameTable s t ∧ SameErrors s t
      ∧ SameHost s t ∧ t.freq.total = syms.length
      ∧ ∀ c : Symbol, (t.freq.entry c).toNat = syms.count c ∧ (t.freq.entry c ≠ 0#32 ↔ c ∈ syms)

/-- R101, R172: COUNT and ENCODE_ALL of a longer stream fail with OVERFLOW and information 0xFFFFFFFF. -/
def Obligations.LongSymbolStreamsOverflow : Prop :=
  ∀ (syms : List Symbol) (s : State), 0xFFFFFFFF < syms.length →
    (∃ t, exec (.count syms) s = .next t ∧ FailsWith s t .overflow 0xFFFFFFFF#64)
    ∧ ∃ t, exec (.encodeAll syms) s = .next t ∧ FailsWith s t .overflow 0xFFFFFFFF#64

/-- R102: FREQ_WR stores any count, 0 and 0xFFFFFFFF among them, in the entry of its symbol and changes nothing
else: not the tree and not the code table (R31). -/
def Obligations.FreqWrWritesOneCount : Prop :=
  ∀ (c : Symbol) (n : Word) (s : State), ∃ t, exec (.freqWr c n) s = .next t ∧ AnswersOk s t {}
    ∧ t.freq.entry c = n ∧ (∀ d : Symbol, d ≠ c → t.freq.entry d = s.freq.entry d)
    ∧ SameTree s t ∧ SameTable s t ∧ SameErrors s t ∧ SameHost s t

/-- R103: FREQ_RD returns the count of its symbol, and FREQ_RD after FREQ_WR the count written. -/
def Obligations.FreqRdReadsOneCount : Prop :=
  (∀ (c : Symbol) (s : State), ∃ t, exec (.freqRd c) s = .next t
    ∧ OnlyAnswers s t { rdata := s.freq.entry c })
  ∧ ∀ (c : Symbol) (n : Word) (s : State), ∃ t u, exec (.freqWr c n) s = .next t ∧ exec (.freqRd c) t = .next u
      ∧ AnswersOk t u { rdata := n }

/-! ### The tree builder -/

/-- R125: BUILD of the empty table raises EMPTY_ALPHABET with information 0 and changes nothing else. -/
def Obligations.BuildOfEmptyTable : Prop :=
  ∀ s : State, (∀ c : Symbol, s.freq.entry c = 0#32) →
    ∃ t, exec .build s = .next t ∧ FailsWith s t .emptyAlphabet 0#64

/-- R126: BUILD raises OVERFLOW, with information 0, exactly when there are two symbols or more and the counts sum to
more than 2^32 - 1; when it succeeds every weight in the arena is at most the sum of the counts. -/
def Obligations.BuildOverflowsExactly : Prop :=
  ∀ s : State, ∃ t, exec .build s = .next t
    ∧ ((2 ≤ s.freq.symbolCount ∧ 0xFFFFFFFF < s.freq.total) ↔ Responds s t (Response.failure .overflow))
    ∧ (2 ≤ s.freq.symbolCount ∧ 0xFFFFFFFF < s.freq.total → FailsWith s t .overflow 0#64)
    ∧ (AnswersOk s t {} → ∀ i : NodeIdx, (t.node.entry i).weight.toNat ≤ s.freq.total)

/-- R36, R121, R122: what stands in the arena after a successful BUILD, and after ENCODE_ALL of a non-empty stream: the
tree of the counts, its Internal nodes in creation order, each of the two nodes with the least (WEIGHT, index) among
those waiting, the lesser on the left. BUILD changes neither FREQ nor the error record, and clears the code table. -/
def Obligations.BuildLeavesTheTree : Prop :=
  (∀ s : State, (∃ c : Symbol, s.freq.entry c ≠ 0#32) → (s.freq.symbolCount = 1 ∨ s.freq.total ≤ 0xFFFFFFFF) →
    ∃ t, exec .build s = .next t ∧ AnswersOk s t {} ∧ StandsBuilt s.freq t
      ∧ t.node.MergesTwoLeast s.freq.symbolCount (2 * s.freq.symbolCount - 1)
      ∧ TableCleared t ∧ SameFreq s t ∧ SameErrors s t ∧ SameHost s t)
  ∧ ∀ (syms : List Symbol) (s : State), syms ≠ [] → syms.length ≤ 0xFFFFFFFF →
    ∃ t, exec (.encodeAll syms) s = .next t ∧ StandsBuilt t.freq t
      ∧ t.node.MergesTwoLeast t.freq.symbolCount (2 * t.freq.symbolCount - 1)
      ∧ (t.node.entry t.rootIdx).weight.toNat = syms.length

/-- R158, R197: the outcome of GENCODE is a function of the root registers and the arena, that of DECODE a function
of these and the bits. -/
def Obligations.TreeReadersAreFunctionsOfTheTree : Prop :=
  ∀ s s' : State, SameTree s s' →
    (∃ t t' r, exec .gencode s = .next t ∧ exec .gencode s' = .next t' ∧ Responds s t r ∧ Responds s' t' r
      ∧ (r.result = .ok → SameTable t t'))
    ∧ ∀ bits : List Bit, ∃ t t' r, exec (.decode bits) s = .next t ∧ exec (.decode bits) s' = .next t'
      ∧ Responds s t r ∧ Responds s' t' r

/-- R127: BUILD is a function of FREQ alone: the same table gives the same response, and on success the same arena and
root. -/
def Obligations.BuildIsAFunctionOfFreq : Prop :=
  ∀ s s' : State, SameFreq s s' →
    ∃ t t' r, exec .build s = .next t ∧ exec .build s' = .next t' ∧ Responds s t r ∧ Responds s' t' r
      ∧ (r.result = .ok → SameTree t t')

/-- R73, R74, R129: NODE_RD returns a word of the entry it names, field by field, and changes nothing. -/
def Obligations.NodeRdReadsAWord : Prop :=
  ∀ (i : NodeIdx) (s : State), i ≠ 511#9 →
    (∃ t w, exec (.nodeRd i .structureWord) s = .next t ∧ OnlyAnswers s t { rdata := w }
      ∧ w.getLsbD 31 = (s.node.entry i).valid
      ∧ (w.getLsbD 30 = true ↔ (s.node.entry i).kind = .internal)
      ∧ w.extractLsb' 21 9 = (s.node.entry i).left ∧ w.extractLsb' 12 9 = (s.node.entry i).right
      ∧ w.extractLsb' 8 4 = 0#4 ∧ w.extractLsb' 0 8 = (s.node.entry i).symbol)
    ∧ ∃ t, exec (.nodeRd i .weightWord) s = .next t ∧ OnlyAnswers s t { rdata := (s.node.entry i).weight }

/-- R130: NODE_WR stores the fields of the word it is given in the entry it names, whatever they say, leaves the other
word and the other entries, and clears the code table. -/
def Obligations.NodeWrWritesAWord : Prop :=
  ∀ (i : NodeIdx) (sel : NodeSel) (d : Word) (s : State), i ≠ 511#9 →
    (sel = .structureWord → d.extractLsb' 8 4 = 0#4) →
    ∃ t, exec (.nodeWr i sel d) s = .next t ∧ AnswersOk s t {}
      ∧ (sel = .structureWord →
          (t.node.entry i).valid = d.getLsbD 31 ∧ ((t.node.entry i).kind = .internal ↔ d.getLsbD 30 = true)
          ∧ (t.node.entry i).left = d.extractLsb' 21 9 ∧ (t.node.entry i).right = d.extractLsb' 12 9
          ∧ (t.node.entry i).symbol = d.extractLsb' 0 8 ∧ (t.node.entry i).weight = (s.node.entry i).weight)
      ∧ (sel = .weightWord → t.node.entry i = { s.node.entry i with weight := d })
      ∧ (∀ j : NodeIdx, j ≠ i → t.node.entry j = s.node.entry j)
      ∧ TableCleared t ∧ SameFreq s t ∧ t.rootValid = s.rootValid ∧ t.rootIdx = s.rootIdx ∧ SameErrors s t
      ∧ SameHost s t

/-- R129, R131: a node word or a root word reads back as it was written. -/
def Obligations.WordsReadBackAsWritten : Prop :=
  (∀ (i : NodeIdx) (sel : NodeSel) (d : Word) (s : State), i ≠ 511#9 →
    (sel = .structureWord → d.extractLsb' 8 4 = 0#4) →
    ∃ t u, exec (.nodeWr i sel d) s = .next t ∧ exec (.nodeRd i sel) t = .next u ∧ AnswersOk t u { rdata := d })
  ∧ ∀ (d : Word) (s : State), d.extractLsb' 9 22 = 0#22 →
    ∃ t u, exec (.rootWr d) s = .next t ∧ exec (.regRd 3#2) t = .next u ∧ AnswersOk t u { rdata := d }

/-- R75, R131: ROOT_WR sets the root registers from bit 31 and bits 8..0 of its word, any index being accepted, and
clears the code table. -/
def Obligations.RootWrSetsTheRoot : Prop :=
  ∀ (d : Word) (s : State), d.extractLsb' 9 22 = 0#22 →
    ∃ t, exec (.rootWr d) s = .next t ∧ AnswersOk s t {}
      ∧ t.rootValid = d.getLsbD 31 ∧ t.rootIdx = d.extractLsb' 0 9
      ∧ TableCleared t ∧ SameFreq s t ∧ t.node = s.node ∧ SameErrors s t ∧ SameHost s t

/-! ### The code table generator -/

/-- R153: GENCODE fails, with INVALID_TREE, exactly when one of the four conditions holds of the structure reachable
from the root. -/
def Obligations.GencodeFailsExactlyOnDefects : Prop :=
  ∀ s : State, ∃ t, exec .gencode s = .next t
    ∧ (Malformed s.node s.rootValid s.rootIdx → FailsWith s t .invalidTree 0#64)
    ∧ (¬ Malformed s.node s.rootValid s.rootIdx →
        AnswersOk s t {} ∧ t.tableValid = true ∧ SameFreq s t ∧ SameTree s t ∧ SameErrors s t ∧ SameHost s t)

/-- R151: the code of a leaf is its path from the root, 0 for LEFT and 1 for RIGHT, and its length the depth, stored as
R30 lays it out. Where the root is Internal; the Leaf root is R154's. A symbol that is no leaf's has no code (R152). -/
def Obligations.GencodeWritesPathCodes : Prop :=
  ∀ s : State, ¬ Malformed s.node s.rootValid s.rootIdx → (s.node.entry s.rootIdx).kind = .internal →
    ∃ t, exec .gencode s = .next t ∧ AnswersOk s t {}
      ∧ (∀ (p : List Bit) (i : NodeIdx), s.node.follow s.rootIdx p = some i → (s.node.entry i).kind = .leaf →
          (t.code.entry (s.node.entry i).symbol).Stores p)
      ∧ ∀ c : Symbol, (∀ (p : List Bit) (i : NodeIdx), s.node.follow s.rootIdx p = some i →
          (s.node.entry i).kind = .leaf → (s.node.entry i).symbol ≠ c) → t.code.entry c = ⟨false, 0#8, 0#255⟩

/-- R154: when the root is a Leaf its symbol gets the code `0` of length 1, and no other symbol has a code. -/
def Obligations.GencodeOfLeafRoot : Prop :=
  ∀ s : State, s.rootValid = true → s.rootIdx ≠ 511#9 → (s.node.entry s.rootIdx).valid = true →
    (s.node.entry s.rootIdx).kind = .leaf →
    ∃ t, exec .gencode s = .next t ∧ AnswersOk s t {} ∧ t.tableValid = true
      ∧ ∀ c : Symbol, t.code.entry c
          = if c = (s.node.entry s.rootIdx).symbol then ⟨true, 1#8, 0#255⟩ else ⟨false, 0#8, 0#255⟩

/-- R159: every code GENCODE writes has a length of 1 to 255, and a value that fits it. -/
def Obligations.CodeLengthBound : Prop :=
  ∀ s : State, ∃ t, exec .gencode s = .next t ∧ (AnswersOk s t {} →
    ∀ c : Symbol, (t.code.entry c).cvalid = true →
      1 ≤ (t.code.entry c).clen.toNat ∧ (t.code.entry c).clen.toNat ≤ 255
      ∧ (t.code.entry c).cval.toNat < 2 ^ (t.code.entry c).clen.toNat)

/-- R156: after a successful GENCODE no valid code is a prefix of another; where the root is Internal every bit string
is a prefix of a code or has one as a prefix; for a Leaf root the string `1` has no code. -/
def Obligations.PrefixFreeAndComplete : Prop :=
  ∀ s : State, ¬ Malformed s.node s.rootValid s.rootIdx →
    ∃ t, exec .gencode s = .next t ∧ AnswersOk s t {}
      ∧ (∀ (c d : Symbol) (p q : List Bit), (t.code.entry c).Stores p → (t.code.entry d).Stores q → p <+: q → c = d)
      ∧ ((s.node.entry s.rootIdx).kind = .internal → ∀ z : List Bit,
          ∃ c p, (t.code.entry c).Stores p ∧ (p <+: z ∨ z <+: p))
      ∧ ((s.node.entry s.rootIdx).kind = .leaf → ∀ (c : Symbol) (p : List Bit), (t.code.entry c).Stores p →
          p = [false])

/-- R76, R77, R155: CODE_RD returns the header word, or a value word with the 32 bits of CVAL it names and 0 above bit
254, and changes nothing. -/
def Obligations.CodeRdReadsAWord : Prop :=
  ∀ (c : Symbol) (s : State),
    (∃ t w, exec (.codeRd c 0#4) s = .next t ∧ OnlyAnswers s t { rdata := w }
      ∧ w.getLsbD 31 = (s.code.entry c).cvalid ∧ w.extractLsb' 8 23 = 0#23 ∧ w.extractLsb' 0 8 = (s.code.entry c).clen)
    ∧ ∀ sel : BitVec 4, 1 ≤ sel.toNat → sel.toNat ≤ 8 →
      ∃ t w, exec (.codeRd c sel) s = .next t ∧ OnlyAnswers s t { rdata := w }
        ∧ ∀ j : Nat, j < 32 → w.getLsbD j = (s.code.entry c).cval.getLsbD (32 * (sel.toNat - 1) + j)

/-- R157: in the table of a tree that BUILD or ENCODE_ALL made, the symbol with the higher count has no longer code. -/
def Obligations.HigherCountNoLongerCode : Prop :=
  (∀ s : State, (∃ c : Symbol, s.freq.entry c ≠ 0#32) → (s.freq.symbolCount = 1 ∨ s.freq.total ≤ 0xFFFFFFFF) →
    ∃ t u, exec .build s = .next t ∧ exec .gencode t = .next u ∧ AnswersOk t u {}
      ∧ ∀ x y : Symbol, s.freq.entry y ≠ 0#32 → (s.freq.entry y).toNat < (s.freq.entry x).toNat →
          (u.code.entry x).cvalid = true ∧ (u.code.entry y).cvalid = true
          ∧ (u.code.entry x).clen.toNat ≤ (u.code.entry y).clen.toNat)
  ∧ ∀ (syms : List Symbol) (s : State), syms.length ≤ 0xFFFFFFFF →
    ∃ t, exec (.encodeAll syms) s = .next t
      ∧ ∀ x y : Symbol, t.freq.entry y ≠ 0#32 → (t.freq.entry y).toNat < (t.freq.entry x).toNat →
          (t.code.entry x).cvalid = true ∧ (t.code.entry y).cvalid = true
          ∧ (t.code.entry x).clen.toNat ≤ (t.code.entry y).clen.toNat

/-! ### The encoder -/

/-- R171: ENCODE of symbols that all have codes emits their codes in order, first code bit first, and changes
nothing. -/
def Obligations.EncodeConcatenatesCodes : Prop :=
  ∀ (syms : List Symbol) (s : State), syms.length ≤ 0xFFFFFFFFFFFFFFFF →
    (∀ c ∈ syms, (s.code.entry c).cvalid = true) →
    ∃ t bs, exec (.encode syms) s = .next t ∧ OnlyAnswers s t { outBits := bs }
      ∧ bs = syms.flatMap (fun c => (List.range (s.code.entry c).clen.toNat).map
          (fun j => (s.code.entry c).cval.getLsbD ((s.code.entry c).clen.toNat - 1 - j)))

/-- R171, R234: the first symbol without a code, at an index below 2^64 - 1, ends ENCODE with its index; if there is
none among 2^64 - 1 symbols and more follow, it ends with OVERFLOW. -/
def Obligations.EncodeStopsAtTheFirstError : Prop :=
  ∀ (pre post : List Symbol) (s : State), (∀ d ∈ pre, (s.code.entry d).cvalid = true) →
    (∀ c : Symbol, (s.code.entry c).cvalid = false → pre.length < 0xFFFFFFFFFFFFFFFF →
      ∃ t, exec (.encode (pre ++ c :: post)) s = .next t
        ∧ FailsWith s t .unknownSymbol (BitVec.ofNat 64 pre.length))
    ∧ (pre.length = 0xFFFFFFFFFFFFFFFF → post ≠ [] →
      ∃ t, exec (.encode (pre ++ post)) s = .next t ∧ FailsWith s t .overflow 0xFFFFFFFFFFFFFFFF#64)

/-- R175: ENCODE emits as many bits as the lengths of the codes of its symbols sum to, and ENCODE_ALL as the counts
times the lengths. -/
def Obligations.OutputLength : Prop :=
  (∀ (syms : List Symbol) (s t : State) (bs : List Bit), exec (.encode syms) s = .next t →
    AnswersOk s t { outBits := bs } → bs.length = (syms.map (fun c => (s.code.entry c).clen.toNat)).sum)
  ∧ ∀ (syms : List Symbol) (s : State), syms.length ≤ 0xFFFFFFFF →
    ∃ t bs, exec (.encodeAll syms) s = .next t ∧ AnswersOk s t { outBits := bs }
      ∧ bs.length = ((List.range 256).map (fun k => (t.freq.entry (BitVec.ofNat 8 k)).toNat
          * (t.code.entry (BitVec.ofNat 8 k)).clen.toNat)).sum

/-- R172: ENCODE_ALL of the empty stream is no error: it outputs nothing and leaves no counts, no tree and no table,
the error record being kept. -/
def Obligations.EncodeAllOfEmptyStream : Prop :=
  ∀ s : State, ∃ t, exec (.encodeAll []) s = .next t ∧ AnswersOk s t {} ∧ SameErrors s t ∧ SameHost s t
    ∧ (∀ c : Symbol, t.freq.entry c = 0#32)
    ∧ (∀ i : NodeIdx, t.node.entry i = ⟨false, .leaf, 0#9, 0#9, 0#8, 0#32⟩)
    ∧ t.rootValid = false ∧ t.rootIdx = 0#9 ∧ TableCleared t

/-- R172, R263: ENCODE_ALL of a non-empty stream of at most 2^32 - 1 symbols never fails, and it does what COUNT,
BUILD, GENCODE and ENCODE do one after the other, none of which fails. -/
def Obligations.EncodeAllIsTheSequence : Prop :=
  ∀ (syms : List Symbol) (s : State), syms ≠ [] → syms.length ≤ 0xFFFFFFFF →
    ∃ t₁ t₂ t₃ t₄ u bs, exec (.count syms) s = .next t₁ ∧ exec .build t₁ = .next t₂ ∧ exec .gencode t₂ = .next t₃
      ∧ exec (.encode syms) t₃ = .next t₄ ∧ exec (.encodeAll syms) s = .next u
      ∧ AnswersOk s t₁ {} ∧ AnswersOk t₁ t₂ {} ∧ AnswersOk t₂ t₃ {} ∧ AnswersOk t₃ t₄ { outBits := bs }
      ∧ AnswersOk s u { outBits := bs } ∧ SameState u t₄ ∧ SameErrors s u ∧ SameHost s u
      ∧ u.rootValid = true ∧ u.tableValid = true

/-- R173: the round trip. The output of ENCODE_ALL decodes to its input, after any commands in between that leave the
tree: none of NODE_WR, ROOT_WR, BUILD, ENCODE_ALL and CLEAR. -/
def Obligations.RoundTrip : Prop :=
  ∀ (syms : List Symbol) (s : State), syms.length ≤ 0xFFFFFFFF →
    ∃ t bs, exec (.encodeAll syms) s = .next t ∧ AnswersOk s t { outBits := bs }
      ∧ ∀ (is : List Instr) (u : State), (∀ i ∈ is, i.keepsTree = true) → Runs t is u →
          ∃ v, exec (.decode bs) u = .next v ∧ AnswersOk u v { outSyms := syms }

/-- R174: with TABLE_VALID = 1, what ENCODE emits for symbols that have codes decodes to them, also for a loaded tree.
The premise that the table is the tree's is an invariant (`StepKeepsInv`). The premise that the output is a stream
DECODE accepts is the model's reading (notes/assumptions/17.md). -/
def Obligations.TableRoundTrip : Prop :=
  ∀ (syms : List Symbol) (s : State), TableMatchesTree s → s.tableValid = true →
    (∀ c ∈ syms, (s.code.entry c).cvalid = true) →
    (syms.map (fun c => (s.code.entry c).clen.toNat)).sum ≤ 0xFFFFFFFFFFFFFFFF →
    ∃ t bs u, exec (.encode syms) s = .next t ∧ AnswersOk s t { outBits := bs }
      ∧ exec (.decode bs) t = .next u ∧ AnswersOk t u { outSyms := syms }

/-! ### The decoder -/

/-- R191, R193: DECODE succeeds exactly on the streams of at most 2^64 - 1 bits that are a sequence of codes of the
tree, ending on a leaf boundary; its output is their symbols and it changes nothing. -/
def Obligations.DecodeSucceedsExactlyOnCodes : Prop :=
  (∀ (xs : List (Symbol × List Bit)) (s : State),
    (∀ x ∈ xs, s.rootValid = true ∧ HasCode s.node s.rootIdx x.1 x.2) →
    (xs.flatMap Prod.snd).length ≤ 0xFFFFFFFFFFFFFFFF →
    ∃ t, exec (.decode (xs.flatMap Prod.snd)) s = .next t ∧ OnlyAnswers s t { outSyms := xs.map Prod.fst })
  ∧ ∀ (bits : List Bit) (out : List Symbol) (s t : State), exec (.decode bits) s = .next t →
      AnswersOk s t { outSyms := out } →
      bits.length ≤ 0xFFFFFFFFFFFFFFFF ∧ ∃ xs : List (Symbol × List Bit),
        (∀ x ∈ xs, s.rootValid = true ∧ HasCode s.node s.rootIdx x.1 x.2)
        ∧ bits = xs.flatMap Prod.snd ∧ out = xs.map Prod.fst

/-- R193: a stream that ends at an Internal node other than by a reset fails with TRUNCATED_STREAM and its length,
whatever it decoded to before. -/
def Obligations.DecodeOfTruncatedStream : Prop :=
  ∀ (xs : List (Symbol × List Bit)) (p : List Bit) (i : NodeIdx) (s : State),
    (∀ x ∈ xs, HasCode s.node s.rootIdx x.1 x.2) → s.rootValid = true → p ≠ [] →
    s.node.follow s.rootIdx p = some i → (s.node.entry i).kind = .internal →
    (xs.flatMap Prod.snd ++ p).length ≤ 0xFFFFFFFFFFFFFFFF →
    ∃ t, exec (.decode (xs.flatMap Prod.snd ++ p)) s = .next t
      ∧ FailsWith s t .truncatedStream (BitVec.ofNat 64 (xs.flatMap Prod.snd ++ p).length)

/-- R191, R194: DECODE fails with INVALID_TREE and information 0 on an absent root while bits remain, and with the
index of the bit whose step reaches a null child; nothing behind that bit matters. -/
def Obligations.DecodeOfBrokenTree : Prop :=
  (∀ (bits : List Bit) (s : State), bits ≠ [] → s.rootValid = false ∨ s.node.absent s.rootIdx = true →
    ∃ t, exec (.decode bits) s = .next t ∧ FailsWith s t .invalidTree 0#64)
  ∧ ∀ (xs : List (Symbol × List Bit)) (p rest : List Bit) (b : Bit) (i : NodeIdx) (s : State),
    (∀ x ∈ xs, HasCode s.node s.rootIdx x.1 x.2) → s.rootValid = true →
    s.node.follow s.rootIdx p = some i → (s.node.entry i).kind = .internal →
    s.node.absent ((s.node.entry i).child b) = true →
    (xs.flatMap Prod.snd ++ p).length < 0xFFFFFFFFFFFFFFFF →
    ∃ t, exec (.decode (xs.flatMap Prod.snd ++ p ++ b :: rest)) s = .next t
      ∧ FailsWith s t .invalidTree (BitVec.ofNat 64 (xs.flatMap Prod.snd ++ p).length)

/-- R191: a stream of more than 2^64 - 1 bits, whose first 2^64 - 1 bits all make a step, fails with OVERFLOW. -/
def Obligations.LongBitStreamsOverflow : Prop :=
  ∀ (pre post : List Bit) (s t : State), pre.length = 0xFFFFFFFFFFFFFFFF → post ≠ [] →
    exec (.decode pre) s = .next t → ¬ Responds s t (Response.failure .invalidTree) →
    ∃ u, exec (.decode (pre ++ post)) s = .next u ∧ FailsWith s u .overflow 0xFFFFFFFFFFFFFFFF#64

/-- R192: at a Leaf root each `0` emits the root's symbol, and a `1` raises INVALID_TREE with its index. -/
def Obligations.DecodeOfLeafRoot : Prop :=
  ∀ (m : Nat) (s : State), s.rootValid = true → s.rootIdx ≠ 511#9 → (s.node.entry s.rootIdx).valid = true →
    (s.node.entry s.rootIdx).kind = .leaf →
    (m ≤ 0xFFFFFFFFFFFFFFFF → ∃ t, exec (.decode (List.replicate m false)) s = .next t
      ∧ OnlyAnswers s t { outSyms := List.replicate m (s.node.entry s.rootIdx).symbol })
    ∧ ∀ rest : List Bit, m < 0xFFFFFFFFFFFFFFFF →
      ∃ t, exec (.decode (List.replicate m false ++ true :: rest)) s = .next t
        ∧ FailsWith s t .invalidTree (BitVec.ofNat 64 m)

/-- R195: DECODE of the empty stream with `ROOT_VALID = 0` succeeds with no symbols, as it does whatever the tree
holds (R191). -/
def Obligations.DecodeWithoutBits : Prop :=
  ∀ s : State, ∃ t, exec (.decode []) s = .next t ∧ OnlyAnswers s t {}

/-- R196: every DECODE starts in state ROOT. A stream split at a leaf boundary gives outputs that concatenate to that
of the whole, and a split anywhere else is a truncated stream. -/
def Obligations.DecodeSplits : Prop :=
  ∀ (xs ys : List Bit) (s t : State), (xs ++ ys).length ≤ 0xFFFFFFFFFFFFFFFF → exec (.decode xs) s = .next t →
    (∀ out, AnswersOk s t { outSyms := out } →
      ∀ u r, exec (.decode ys) t = .next u → Responds t u r →
        ∃ v r', exec (.decode (xs ++ ys)) s = .next v ∧ Responds s v r' ∧ r'.result = r.result
          ∧ (r.result = .ok → r'.outSyms = out ++ r.outSyms))
    ∧ ((∃ out v, exec (.decode (xs ++ ys)) s = .next v ∧ AnswersOk s v { outSyms := out }) →
        (¬ ∃ out, AnswersOk s t { outSyms := out }) → Responds s t (Response.failure .truncatedStream))

/-! ### Invariants -/

/-- R31, R35: the invariant holds after reset. -/
def Obligations.InvAtReset : Prop := Inv State.reset

/-- R31, R230, R238: every step keeps the invariant: the code table is the one GENCODE derives from the tree the arena
and root registers now hold when TABLE_VALID is 1 and is empty when it is 0, and the error record is legal. -/
def Obligations.StepKeepsInv : Prop :=
  ∀ s t : State, Inv s → step s = .next t → Inv t

/-- R32: in every reachable state, `TABLE_VALID = 0` implies that no entry is valid; with `TABLE_VALID = 1` at least
one is, and the valid entries are exactly the leaf symbols of the tree rooted at ROOT_IDX. So it is in every state in
which the invariant holds. -/
def Obligations.ValidEntriesAreTheLeafSymbols : Prop :=
  (∀ s : State, Reachable s → Inv s)
  ∧ ∀ s : State, Inv s →
    (s.tableValid = false → ∀ c : Symbol, (s.code.entry c).cvalid = false)
    ∧ (s.tableValid = true → (∃ c : Symbol, (s.code.entry c).cvalid = true)
        ∧ ∀ c : Symbol, (s.code.entry c).cvalid = true ↔
          ∃ (p : List Bit) (i : NodeIdx), s.node.follow s.rootIdx p = some i ∧ (s.node.entry i).kind = .leaf
            ∧ (s.node.entry i).symbol = c)
end

