-- ==== Sys2Proof/Laws/Encoding.lean ====
section
/-! SUPPORT. The fields of a command word, and what the decoder does on them (30_encoding.md R71, R79 to R83). -/

namespace Sys2Proof

theorem opcField_commandWord (o : BitVec 8) (s : BitVec 4) (x : BitVec 16) : opcField (commandWord o s x) = o := by
  apply BitVec.eq_of_getLsbD_eq
  intro i hi
  unfold opcField commandWord
  rw [BitVec.getLsbD_extractLsb']
  simp only [BitVec.getLsbD_append]
  simp [hi, show ¬ (24 + i < 16) by omega, show ¬ (24 + i - 16 < 4) by omega, show ¬ (24 + i - 16 - 4 < 4) by omega,
    show 24 + i - 16 - 4 - 4 = i by omega]

theorem selField_commandWord (o : BitVec 8) (s : BitVec 4) (x : BitVec 16) : selField (commandWord o s x) = s := by
  apply BitVec.eq_of_getLsbD_eq
  intro i hi
  unfold selField commandWord
  rw [BitVec.getLsbD_extractLsb']
  simp only [BitVec.getLsbD_append]
  simp [hi, show ¬ (16 + i < 16) by omega, show 16 + i - 16 = i by omega]

/-- The low bits of IDX. -/
theorem idx_commandWord (o : BitVec 8) (s : BitVec 4) (x : BitVec 16) (w : Nat) (hw : w ≤ 16) :
    (commandWord o s x).extractLsb' 0 w = x.setWidth w := by
  apply BitVec.eq_of_getLsbD_eq
  intro i hi
  unfold commandWord
  rw [BitVec.getLsbD_extractLsb']
  simp only [BitVec.getLsbD_append, BitVec.getLsbD_setWidth]
  simp [hi, show i < 16 by omega]

/-- Every command word is its fields. -/
theorem commandWord_eta (w : Word) (h : w.extractLsb' 20 4 = 0#4) :
    commandWord (opcField w) (selField w) (w.extractLsb' 0 16) = w := by
  apply BitVec.eq_of_getLsbD_eq
  intro i hi
  unfold commandWord opcField selField
  simp only [BitVec.getLsbD_append, BitVec.getLsbD_extractLsb']
  split
  · simp_all
  split
  · simp [show i - 16 < 4 by omega, show 16 + (i - 16) = i by omega]
  split
  · have := congrArg (fun v : BitVec 4 => v.getLsbD (i - 20)) h
    simp only [BitVec.getLsbD_extractLsb', show i - 20 < 4 by omega, show 20 + (i - 20) = i by omega] at this
    simp_all
  · simp [show i - 16 - 4 - 4 < 8 by omega, show 24 + (i - 16 - 4 - 4) = i by omega]

/-- Masking works field by field; RSV is 0 in a command word. -/
theorem commandWord_and (o : BitVec 8) (s : BitVec 4) (x : BitVec 16) (m : Word) :
    commandWord o s x &&& m
      = commandWord (o &&& opcField m) (s &&& selField m) (x &&& m.extractLsb' 0 16) := by
  apply BitVec.eq_of_getLsbD_eq
  intro i hi
  unfold commandWord opcField selField
  simp only [BitVec.getLsbD_append, BitVec.getLsbD_and, BitVec.getLsbD_extractLsb']
  split
  · simp_all
  split
  · simp [show i - 16 < 4 by omega, show 16 + (i - 16) = i by omega]
  split
  · simp
  · simp [show i - 16 - 4 - 4 < 8 by omega, show 24 + (i - 16 - 4 - 4) = i by omega]

/-- A field is cleared by a mask that has none of its bits. -/
theorem setWidth_and_eq_zero {n : Nat} (v : BitVec n) (m : BitVec 16) (h : ∀ i, i < n → m.getLsbD i = false) :
    v.setWidth 16 &&& m = 0#16 := by
  apply BitVec.eq_of_getLsbD_eq
  intro i hi
  by_cases hn : i < n
  · simp [h i hn]
  · simp [BitVec.getLsbD_setWidth, BitVec.getLsbD_of_ge v i (by omega)]

/-- The row selected for a command word depends on its OPC field alone (R83). -/
theorem rowOf_commandWord (o : BitVec 8) (s : BitVec 4) (x : BitVec 16) :
    rowOf (commandWord o s x) = opcodeTable.find? (fun r => r.opc == o) := by
  rw [rowOf, opcField_commandWord]

/-- What makes the decoder answer the instruction of a selected row (R83). -/
theorem decode_of_row {c : Command} {r : Row} (hr : rowOf c.cmd = some r) (hm : c.cmd &&& r.mask = r.pattern)
    (hd : r.usesData = true ∨ c.data = 0#32) (hs : r.streamIn = .syms ∨ c.syms = [])
    (hb : r.streamIn = .bits ∨ c.bits = []) (hw : (assemble r.mnemonic c).wellFormed = true) :
    decode c = some (assemble r.mnemonic c) := by
  have ha : rowAccepts r c = true := by
    simp only [rowAccepts, Bool.and_eq_true, Bool.or_eq_true, beq_iff_eq, List.isEmpty_iff]
    exact ⟨⟨⟨⟨hm, hd⟩, hs⟩, hb⟩, hw⟩
  simp [decode, hr, ha]

/-- What the decoder has checked when it answers (R80, R83). -/
theorem decode_eq_some {c : Command} {i : Instr} (h : decode c = some i) :
    ∃ r, rowOf c.cmd = some r ∧ c.cmd &&& r.mask = r.pattern ∧ (r.usesData = true ∨ c.data = 0#32)
      ∧ (r.streamIn = .syms ∨ c.syms = []) ∧ (r.streamIn = .bits ∨ c.bits = []) ∧ i.wellFormed = true
      ∧ assemble r.mnemonic c = i := by
  unfold decode at h
  split at h
  · cases h
  · rename_i r hr
    split at h
    · rename_i ha
      have h := Option.some.inj h
      simp only [rowAccepts, Bool.and_eq_true, Bool.or_eq_true, beq_iff_eq, List.isEmpty_iff] at ha
      obtain ⟨⟨⟨⟨hm, hd⟩, hs⟩, hb⟩, hw⟩ := ha
      exact ⟨r, hr, hm, hd, hs, hb, h ▸ hw, h⟩
    · cases h

/-- A row the table selects is one of its rows, with the OPC of the command word. -/
theorem rowOf_mem {w : Word} {r : Row} (h : rowOf w = some r) : r ∈ opcodeTable ∧ r.opc = opcField w :=
  ⟨List.mem_of_find?_eq_some h, by simpa using List.find?_some (p := fun r : Row => r.opc == opcField w) h⟩

/-- The row with the OPC of a command word is the one selected (R83). -/
theorem rowOf_eq {w : Word} {r : Row} (hr : r ∈ opcodeTable) (ho : r.opc = opcField w) : rowOf w = some r := by
  have : ∀ r ∈ opcodeTable, opcodeTable.find? (fun x => x.opc == r.opc) = some r := by decide
  rw [rowOf, ← ho, this r hr]

theorem rowOf_of_opc {w : Word} {o : BitVec 8} (h : opcField w = o) : rowOf w = opcodeTable.find? (fun r => r.opc == o) := by
  rw [rowOf, h]

/-- A command word that a mask takes to a bare OPC has that OPC and no RSV (R79). -/
theorem mask_eta {w m : Word} {o : BitVec 8} (hm : m.extractLsb' 20 12 = 0xFFF#12) (h : w &&& m = commandWord o 0#4 0#16) :
    w = commandWord o (selField w) (w.extractLsb' 0 16) := by
  have hb : ∀ k, 20 ≤ k → k < 32 → w.getLsbD k = (commandWord o 0#4 0#16).getLsbD k := by
    intro k h1 h2
    rw [← h, BitVec.getLsbD_and]
    have := congrArg (fun v : BitVec 12 => v.getLsbD (k - 20)) hm
    simp only [BitVec.getLsbD_extractLsb', show k - 20 < 12 by omega, show 20 + (k - 20) = k by omega, decide_true, Bool.true_and] at this
    rw [this]
    have : (4095#12).getLsbD (k-20) = true := by
      have : ∀ j, j < 12 → (4095#12).getLsbD j = true := by decide
      exact this _ (by omega)
    simp [this]
  have h20 : w.extractLsb' 20 4 = 0#4 := by
    apply BitVec.eq_of_getLsbD_eq
    intro i hi
    rw [BitVec.getLsbD_extractLsb', hb _ (by omega) (by omega)]
    unfold commandWord
    simp only [BitVec.getLsbD_append]
    simp [show ¬ (20 + i < 16) by omega, show ¬ (20 + i - 16 < 4) by omega, show (20 + i - 16 - 4 < 4) by omega]
  have ho : opcField w = o := by
    rw [← opcField_commandWord o 0#4 0#16]
    apply BitVec.eq_of_getLsbD_eq
    intro i hi
    unfold opcField
    rw [BitVec.getLsbD_extractLsb', BitVec.getLsbD_extractLsb', hb _ (by omega) (by omega)]
  conv_lhs => rw [← commandWord_eta w h20, ho]

/-- A command word that a mask takes to a bare OPC has nothing in IDX above the bits the mask leaves out (R79). -/
theorem idx_zero {w m : Word} {o : BitVec 8} {n : Nat} (hm : ∀ k, k < 16 → n ≤ k → m.getLsbD k = true)
    (h : w &&& m = commandWord o 0#4 0#16) : w.extractLsb' 0 16 = (w.extractLsb' 0 n).setWidth 16 := by
  apply BitVec.eq_of_getLsbD_eq
  intro k hk
  rw [BitVec.getLsbD_extractLsb', BitVec.getLsbD_setWidth, BitVec.getLsbD_extractLsb']
  by_cases hkn : k < n
  · simp [hk, hkn]
  · have := congrArg (fun v : Word => v.getLsbD k) h
    simp only [BitVec.getLsbD_and, hm k hk (by omega), Bool.and_true, commandWord, BitVec.getLsbD_append] at this
    simp [this, hk, hkn]

end Sys2Proof
end

