-- ==== Sys2Proof/Laws/Assembler.lean ====
section
/-! SUPPORT. The words the assembler writes are the encoder's, and a quoted character is passed over whole
(30_encoding.md R85). -/

namespace Sys2Proof.Machine.Asm

/-- A quoted character starts no comment and ends no quotation, whichever character it is: also `;` and `'`. -/
@[simp] theorem withoutComment_quoted (c : Char) (cs : List Char) :
    withoutComment .nothing ('\'' :: c :: '\'' :: cs) = '\'' :: c :: '\'' :: withoutComment .nothing cs := by
  simp [withoutComment, Inside.after]

/-- A quoted character separates no operands and ends no quotation: also `,` and `'`. -/
@[simp] theorem pieces_quoted (c : Char) (cur cs : List Char) :
    pieces .nothing cur ('\'' :: c :: '\'' :: cs) = pieces .nothing ('\'' :: c :: '\'' :: cur) cs := by
  simp [pieces, Inside.after]

theorem fits_some {w n : Nat} (h : n < 2 ^ w) : fits w n = some n := by simp [fits, h]

/-- A command word written as a sum of fields is the word of those fields (R71, R85). -/
theorem word_eq_commandWord (o : BitVec 8) (s : BitVec 4) (x : BitVec 16) :
    word (o.toNat <<< 24) s.toNat x.toNat = commandWord o s x := by
  apply BitVec.eq_of_getLsbD_eq
  intro i hi
  unfold word commandWord
  simp only [BitVec.getLsbD_append, BitVec.getLsbD_ofNat, hi, decide_true, Bool.true_and, Nat.testBit_or, Nat.testBit_shiftLeft]
  have hx : 16 ≤ i → x.toNat.testBit i = false := fun h => Nat.testBit_lt_two_pow (Nat.lt_of_lt_of_le x.isLt (Nat.pow_le_pow_right (by decide) h))
  have hs : 4 ≤ i - 16 → s.toNat.testBit (i-16) = false := fun h => Nat.testBit_lt_two_pow (Nat.lt_of_lt_of_le s.isLt (Nat.pow_le_pow_right (by decide) h))
  split
  · simp [show ¬ (24 ≤ i) by omega, show ¬ (16 ≤ i) by omega, BitVec.getLsbD]
  split
  · simp [show ¬ (24 ≤ i) by omega, show (16 ≤ i) by omega, BitVec.getLsbD, hx (by omega)]
  split
  · simp [show ¬ (24 ≤ i) by omega, show (16 ≤ i) by omega, hx (by omega), hs (by omega)]
  · simp [show (24 ≤ i) by omega, show (16 ≤ i) by omega, hx (by omega), hs (by omega), BitVec.getLsbD, show i - 16 - 4 - 4 = i - 24 by omega]

theorem word_eq_fields (b : Nat) (o : BitVec 8) (s : BitVec 4) {w : Nat} (v : BitVec w) (hw : w ≤ 16)
    (hb : b = o.toNat <<< 24) :
    word b s.toNat v.toNat = commandWord o s (v.setWidth 16) := by
  rw [hb]
  have h : (v.setWidth 16).toNat = v.toNat := by
    rw [BitVec.toNat_setWidth, Nat.mod_eq_of_lt]
    exact Nat.lt_of_lt_of_le v.isLt (Nat.pow_le_pow_right (by decide) hw)
  have := word_eq_commandWord o s (v.setWidth 16)
  rw [h] at this
  exact this

end Sys2Proof.Machine.Asm
end

