-- ==== Sys2Proof/Laws/State.lean ====
section
/-! SUPPORT. What each named update of the state does to each field. -/

namespace Sys2Proof.Machine

@[simp] theorem State.respond_freq (s : State) (o : Output) : (s.respond o).freq = s.freq := rfl
@[simp] theorem State.respond_node (s : State) (o : Output) : (s.respond o).node = s.node := rfl
@[simp] theorem State.respond_rootValid (s : State) (o : Output) : (s.respond o).rootValid = s.rootValid := rfl
@[simp] theorem State.respond_rootIdx (s : State) (o : Output) : (s.respond o).rootIdx = s.rootIdx := rfl
@[simp] theorem State.respond_code (s : State) (o : Output) : (s.respond o).code = s.code := rfl
@[simp] theorem State.respond_tableValid (s : State) (o : Output) : (s.respond o).tableValid = s.tableValid := rfl
@[simp] theorem State.respond_lastErr (s : State) (o : Output) : (s.respond o).lastErr = s.lastErr := rfl
@[simp] theorem State.respond_errInfo (s : State) (o : Output) : (s.respond o).errInfo = s.errInfo := rfl
@[simp] theorem State.respond_pending (s : State) (o : Output) : (s.respond o).pending = s.pending := rfl
@[simp] theorem State.respond_pos (s : State) (o : Output) : (s.respond o).pos = s.pos := rfl
@[simp] theorem State.respond_responses (s : State) (o : Output) : (s.respond o).responses = s.responses ++ [Response.success o] := rfl

@[simp] theorem State.raise_freq (s : State) (e : Raise) : (s.raise e).freq = s.freq := rfl
@[simp] theorem State.raise_node (s : State) (e : Raise) : (s.raise e).node = s.node := rfl
@[simp] theorem State.raise_rootValid (s : State) (e : Raise) : (s.raise e).rootValid = s.rootValid := rfl
@[simp] theorem State.raise_rootIdx (s : State) (e : Raise) : (s.raise e).rootIdx = s.rootIdx := rfl
@[simp] theorem State.raise_code (s : State) (e : Raise) : (s.raise e).code = s.code := rfl
@[simp] theorem State.raise_tableValid (s : State) (e : Raise) : (s.raise e).tableValid = s.tableValid := rfl
@[simp] theorem State.raise_lastErr (s : State) (e : Raise) : (s.raise e).lastErr = e.cause.code := rfl
@[simp] theorem State.raise_errInfo (s : State) (e : Raise) : (s.raise e).errInfo = e.info := rfl
@[simp] theorem State.raise_pending (s : State) (e : Raise) : (s.raise e).pending = s.pending := rfl
@[simp] theorem State.raise_pos (s : State) (e : Raise) : (s.raise e).pos = s.pos := rfl
@[simp] theorem State.raise_responses (s : State) (e : Raise) : (s.raise e).responses = s.responses ++ [Response.failure e.cause] := rfl

@[simp] theorem State.clearTable_freq (s : State) : (s.clearTable).freq = s.freq := rfl
@[simp] theorem State.clearTable_node (s : State) : (s.clearTable).node = s.node := rfl
@[simp] theorem State.clearTable_rootValid (s : State) : (s.clearTable).rootValid = s.rootValid := rfl
@[simp] theorem State.clearTable_rootIdx (s : State) : (s.clearTable).rootIdx = s.rootIdx := rfl
@[simp] theorem State.clearTable_code (s : State) : (s.clearTable).code = CodeTable.empty := rfl
@[simp] theorem State.clearTable_tableValid (s : State) : (s.clearTable).tableValid = false := rfl
@[simp] theorem State.clearTable_lastErr (s : State) : (s.clearTable).lastErr = s.lastErr := rfl
@[simp] theorem State.clearTable_errInfo (s : State) : (s.clearTable).errInfo = s.errInfo := rfl
@[simp] theorem State.clearTable_pending (s : State) : (s.clearTable).pending = s.pending := rfl
@[simp] theorem State.clearTable_pos (s : State) : (s.clearTable).pos = s.pos := rfl
@[simp] theorem State.clearTable_responses (s : State) : (s.clearTable).responses = s.responses := rfl

@[simp] theorem State.writeFreq_freq (s : State) (c : Symbol) (v : Word) : (s.writeFreq c v).freq = s.freq.put c v := rfl
@[simp] theorem State.writeFreq_node (s : State) (c : Symbol) (v : Word) : (s.writeFreq c v).node = s.node := rfl
@[simp] theorem State.writeFreq_rootValid (s : State) (c : Symbol) (v : Word) : (s.writeFreq c v).rootValid = s.rootValid := rfl
@[simp] theorem State.writeFreq_rootIdx (s : State) (c : Symbol) (v : Word) : (s.writeFreq c v).rootIdx = s.rootIdx := rfl
@[simp] theorem State.writeFreq_code (s : State) (c : Symbol) (v : Word) : (s.writeFreq c v).code = s.code := rfl
@[simp] theorem State.writeFreq_tableValid (s : State) (c : Symbol) (v : Word) : (s.writeFreq c v).tableValid = s.tableValid := rfl
@[simp] theorem State.writeFreq_lastErr (s : State) (c : Symbol) (v : Word) : (s.writeFreq c v).lastErr = s.lastErr := rfl
@[simp] theorem State.writeFreq_errInfo (s : State) (c : Symbol) (v : Word) : (s.writeFreq c v).errInfo = s.errInfo := rfl
@[simp] theorem State.writeFreq_pending (s : State) (c : Symbol) (v : Word) : (s.writeFreq c v).pending = s.pending := rfl
@[simp] theorem State.writeFreq_pos (s : State) (c : Symbol) (v : Word) : (s.writeFreq c v).pos = s.pos := rfl
@[simp] theorem State.writeFreq_responses (s : State) (c : Symbol) (v : Word) : (s.writeFreq c v).responses = s.responses := rfl

@[simp] theorem State.writeNode_freq (s : State) (i : NodeIdx) (e : NodeEntry) : (s.writeNode i e).freq = s.freq := rfl
@[simp] theorem State.writeNode_node (s : State) (i : NodeIdx) (e : NodeEntry) : (s.writeNode i e).node = s.node.put i e := rfl
@[simp] theorem State.writeNode_rootValid (s : State) (i : NodeIdx) (e : NodeEntry) : (s.writeNode i e).rootValid = s.rootValid := rfl
@[simp] theorem State.writeNode_rootIdx (s : State) (i : NodeIdx) (e : NodeEntry) : (s.writeNode i e).rootIdx = s.rootIdx := rfl
@[simp] theorem State.writeNode_code (s : State) (i : NodeIdx) (e : NodeEntry) : (s.writeNode i e).code = s.code := rfl
@[simp] theorem State.writeNode_tableValid (s : State) (i : NodeIdx) (e : NodeEntry) : (s.writeNode i e).tableValid = s.tableValid := rfl
@[simp] theorem State.writeNode_lastErr (s : State) (i : NodeIdx) (e : NodeEntry) : (s.writeNode i e).lastErr = s.lastErr := rfl
@[simp] theorem State.writeNode_errInfo (s : State) (i : NodeIdx) (e : NodeEntry) : (s.writeNode i e).errInfo = s.errInfo := rfl
@[simp] theorem State.writeNode_pending (s : State) (i : NodeIdx) (e : NodeEntry) : (s.writeNode i e).pending = s.pending := rfl
@[simp] theorem State.writeNode_pos (s : State) (i : NodeIdx) (e : NodeEntry) : (s.writeNode i e).pos = s.pos := rfl
@[simp] theorem State.writeNode_responses (s : State) (i : NodeIdx) (e : NodeEntry) : (s.writeNode i e).responses = s.responses := rfl

@[simp] theorem State.writeRoot_freq (s : State) (v : Bool) (i : NodeIdx) : (s.writeRoot v i).freq = s.freq := rfl
@[simp] theorem State.writeRoot_node (s : State) (v : Bool) (i : NodeIdx) : (s.writeRoot v i).node = s.node := rfl
@[simp] theorem State.writeRoot_rootValid (s : State) (v : Bool) (i : NodeIdx) : (s.writeRoot v i).rootValid = v := rfl
@[simp] theorem State.writeRoot_rootIdx (s : State) (v : Bool) (i : NodeIdx) : (s.writeRoot v i).rootIdx = i := rfl
@[simp] theorem State.writeRoot_code (s : State) (v : Bool) (i : NodeIdx) : (s.writeRoot v i).code = s.code := rfl
@[simp] theorem State.writeRoot_tableValid (s : State) (v : Bool) (i : NodeIdx) : (s.writeRoot v i).tableValid = s.tableValid := rfl
@[simp] theorem State.writeRoot_lastErr (s : State) (v : Bool) (i : NodeIdx) : (s.writeRoot v i).lastErr = s.lastErr := rfl
@[simp] theorem State.writeRoot_errInfo (s : State) (v : Bool) (i : NodeIdx) : (s.writeRoot v i).errInfo = s.errInfo := rfl
@[simp] theorem State.writeRoot_pending (s : State) (v : Bool) (i : NodeIdx) : (s.writeRoot v i).pending = s.pending := rfl
@[simp] theorem State.writeRoot_pos (s : State) (v : Bool) (i : NodeIdx) : (s.writeRoot v i).pos = s.pos := rfl
@[simp] theorem State.writeRoot_responses (s : State) (v : Bool) (i : NodeIdx) : (s.writeRoot v i).responses = s.responses := rfl

@[simp] theorem State.dropTree_freq (s : State) : (s.dropTree).freq = s.freq := rfl
@[simp] theorem State.dropTree_node (s : State) : (s.dropTree).node = Arena.empty := rfl
@[simp] theorem State.dropTree_rootValid (s : State) : (s.dropTree).rootValid = false := rfl
@[simp] theorem State.dropTree_rootIdx (s : State) : (s.dropTree).rootIdx = 0#9 := rfl
@[simp] theorem State.dropTree_code (s : State) : (s.dropTree).code = CodeTable.empty := rfl
@[simp] theorem State.dropTree_tableValid (s : State) : (s.dropTree).tableValid = false := rfl
@[simp] theorem State.dropTree_lastErr (s : State) : (s.dropTree).lastErr = s.lastErr := rfl
@[simp] theorem State.dropTree_errInfo (s : State) : (s.dropTree).errInfo = s.errInfo := rfl
@[simp] theorem State.dropTree_pending (s : State) : (s.dropTree).pending = s.pending := rfl
@[simp] theorem State.dropTree_pos (s : State) : (s.dropTree).pos = s.pos := rfl
@[simp] theorem State.dropTree_responses (s : State) : (s.dropTree).responses = s.responses := rfl

@[simp] theorem State.toReset_freq (s : State) : (s.toReset).freq = FreqTable.zero := rfl
@[simp] theorem State.toReset_node (s : State) : (s.toReset).node = Arena.empty := rfl
@[simp] theorem State.toReset_rootValid (s : State) : (s.toReset).rootValid = false := rfl
@[simp] theorem State.toReset_rootIdx (s : State) : (s.toReset).rootIdx = 0#9 := rfl
@[simp] theorem State.toReset_code (s : State) : (s.toReset).code = CodeTable.empty := rfl
@[simp] theorem State.toReset_tableValid (s : State) : (s.toReset).tableValid = false := rfl
@[simp] theorem State.toReset_lastErr (s : State) : (s.toReset).lastErr = 0#3 := rfl
@[simp] theorem State.toReset_errInfo (s : State) : (s.toReset).errInfo = 0#64 := rfl
@[simp] theorem State.toReset_pending (s : State) : (s.toReset).pending = s.pending := rfl
@[simp] theorem State.toReset_pos (s : State) : (s.toReset).pos = s.pos := rfl
@[simp] theorem State.toReset_responses (s : State) : (s.toReset).responses = s.responses := rfl

@[simp] theorem State.issue_freq (s : State) (c : Command) : (s.issue c).freq = s.freq := rfl
@[simp] theorem State.issue_node (s : State) (c : Command) : (s.issue c).node = s.node := rfl
@[simp] theorem State.issue_rootValid (s : State) (c : Command) : (s.issue c).rootValid = s.rootValid := rfl
@[simp] theorem State.issue_rootIdx (s : State) (c : Command) : (s.issue c).rootIdx = s.rootIdx := rfl
@[simp] theorem State.issue_code (s : State) (c : Command) : (s.issue c).code = s.code := rfl
@[simp] theorem State.issue_tableValid (s : State) (c : Command) : (s.issue c).tableValid = s.tableValid := rfl
@[simp] theorem State.issue_lastErr (s : State) (c : Command) : (s.issue c).lastErr = s.lastErr := rfl
@[simp] theorem State.issue_errInfo (s : State) (c : Command) : (s.issue c).errInfo = s.errInfo := rfl
@[simp] theorem State.issue_pending (s : State) (c : Command) : (s.issue c).pending = .command c :: s.pending := rfl
@[simp] theorem State.issue_pos (s : State) (c : Command) : (s.issue c).pos = s.pos := rfl
@[simp] theorem State.issue_responses (s : State) (c : Command) : (s.issue c).responses = s.responses := rfl

end Sys2Proof.Machine
end

