-- ==== Sys2Proof/Laws/Tables.lean ====
section
/-! SUPPORT. Reading after writing in the three tables, one lemma per operation (10_state.md R25, R26, R30). -/

namespace Sys2Proof.Machine

/-! ### FREQ -/

@[simp] theorem FreqTable.entry_zero (c : Symbol) : FreqTable.zero.entry c = 0#32 := by
  simp [FreqTable.zero, FreqTable.entry]

theorem FreqTable.entry_put (f : FreqTable) (c d : Symbol) (v : Word) :
    (f.put c v).entry d = if d = c then v else f.entry d := by
  simp [FreqTable.put, FreqTable.entry, Vector.getElem_set, BitVec.toNat_inj, eq_comm]

theorem FreqTable.ext_entry {f g : FreqTable} (h : ∀ c, f.entry c = g.entry c) : f = g := by
  apply Vector.ext
  intro i hi
  simpa [FreqTable.entry, Nat.mod_eq_of_lt hi] using h (BitVec.ofNat 8 i)

/-! ### CODE -/

@[simp] theorem CodeTable.entry_empty (c : Symbol) : CodeTable.empty.entry c = {} := by
  simp [CodeTable.empty, CodeTable.entry]

theorem CodeTable.entry_put (t : CodeTable) (c d : Symbol) (e : CodeEntry) :
    (t.put c e).entry d = if d = c then e else t.entry d := by
  simp [CodeTable.put, CodeTable.entry, Vector.getElem_set, BitVec.toNat_inj, eq_comm]

theorem CodeTable.ext_entry {t u : CodeTable} (h : ∀ c, t.entry c = u.entry c) : t = u := by
  apply Vector.ext
  intro i hi
  simpa [CodeTable.entry, Nat.mod_eq_of_lt hi] using h (BitVec.ofNat 8 i)

/-! ### NODE -/

/-- A node index other than 511 is one of the 511 slots. -/
theorem nodeIndexOk_iff (i : NodeIdx) : nodeIndexOk i = true ↔ i.toNat < Config.NNODE := by
  have := i.isLt
  simp only [nodeIndexOk, Config.NULL_IDX, bne_iff_ne, ne_eq, ← BitVec.toNat_inj]
  simp
  omega

@[simp] theorem Arena.entry_empty (i : NodeIdx) : Arena.empty.entry i = {} := by
  simp only [Arena.empty, Arena.entry, Vector.getElem?_replicate]
  split <;> rfl

theorem Arena.entry_put (A : Arena) (i j : NodeIdx) (e : NodeEntry) (hi : nodeIndexOk i = true) :
    (A.put i e).entry j = if j = i then e else A.entry j := by
  rw [nodeIndexOk_iff] at hi
  by_cases h : j = i
  · subst h
    simp [Arena.put, Arena.entry, hi]
  · have h' : i.toNat ≠ j.toNat := fun hh => h (BitVec.toNat_inj.mp hh.symm)
    simp [Arena.put, Arena.entry, h, Vector.getElem?_setIfInBounds_ne h']

theorem Arena.ext_entry {A B : Arena} (h : ∀ i, nodeIndexOk i = true → A.entry i = B.entry i) : A = B := by
  apply Vector.ext
  intro k hk
  have hk' : k < 511 := hk
  have hmod : (BitVec.ofNat 9 k).toNat = k := by simp; omega
  have := h (BitVec.ofNat 9 k) (by rw [nodeIndexOk_iff, hmod]; exact hk)
  simpa [Arena.entry, hmod, hk] using this

theorem Arena.absent_null (A : Arena) : A.absent Config.NULL_IDX = true := by simp [Arena.absent]

/-- Index 511 reads as an empty slot. -/
theorem Arena.entry_null (A : Arena) : A.entry Config.NULL_IDX = {} := by
  simp [Arena.entry, Config.NULL_IDX]

/-- A node is absent exactly when its entry is not valid (R28). -/
theorem Arena.absent_eq_not_valid (A : Arena) (i : NodeIdx) : A.absent i = !(A.entry i).valid := by
  by_cases h : i = Config.NULL_IDX
  · subst h; simp [Arena.absent, Arena.entry_null]
  · simp [Arena.absent, h]

theorem Arena.absent_eq_false_iff (A : Arena) (i : NodeIdx) : A.absent i = false ↔ (A.entry i).valid = true := by
  simp [Arena.absent_eq_not_valid]

theorem Arena.nodeIndexOk_of_present (A : Arena) (i : NodeIdx) (h : A.absent i = false) : nodeIndexOk i = true := by
  simp only [Arena.absent, Bool.or_eq_false_iff] at h
  simp [nodeIndexOk, bne, h.1]

end Sys2Proof.Machine
end

