-- ==== Sys2Proof/Laws/Words.lean ====
section
/-! SUPPORT. The fields of the words that cross the interface (30_encoding.md R73 to R77; 10_state.md R23, R29). -/

namespace Sys2Proof.Machine

@[simp] theorem NodeKind.ofBit_bit (k : NodeKind) : NodeKind.ofBit k.bit = k := by cases k <;> rfl

@[simp] theorem NodeKind.bit_ofBit (b : Bool) : (NodeKind.ofBit b).bit = b := by cases b <;> rfl

/-! ### The structure word -/

/-- Each bit of a structure word (R73). -/
theorem structureWord_getLsbD (e : NodeEntry) (k : Nat) :
    e.structureWord.getLsbD k
      = if k < 8 then e.symbol.getLsbD k else if k < 12 then false
        else if k < 21 then e.right.getLsbD (k - 12) else if k < 30 then e.left.getLsbD (k - 21)
        else if k = 30 then e.kind.bit else if k = 31 then e.valid else false := by
  unfold NodeEntry.structureWord
  simp only [BitVec.getLsbD_append, show k - 8 - 4 = k - 12 by omega, show k - 12 - 9 = k - 21 by omega,
    show k - 21 - 9 = k - 30 by omega]
  repeat' split
  all_goals first | omega | rfl | simp_all <;> omega

theorem structureWord_valid (e : NodeEntry) : e.structureWord.getLsbD 31 = e.valid := by
  rw [structureWord_getLsbD]; rfl

theorem structureWord_kind (e : NodeEntry) : e.structureWord.getLsbD 30 = e.kind.bit := by
  rw [structureWord_getLsbD]; rfl

theorem structureWord_left (e : NodeEntry) : e.structureWord.extractLsb' 21 9 = e.left := by
  ext i hi
  rw [BitVec.getElem_extractLsb', structureWord_getLsbD]
  simp [show ¬ (21 + i < 8) by omega, show ¬ (21 + i < 12) by omega, show ¬ (21 + i < 21) by omega,
    show 21 + i < 30 by omega, hi]

theorem structureWord_right (e : NodeEntry) : e.structureWord.extractLsb' 12 9 = e.right := by
  ext i hi
  rw [BitVec.getElem_extractLsb', structureWord_getLsbD]
  simp [show ¬ (12 + i < 8) by omega, show ¬ (12 + i < 12) by omega, show 12 + i < 21 by omega, hi]

theorem structureWord_reserved (e : NodeEntry) : e.structureWord.extractLsb' 8 4 = 0#4 := by
  ext i hi
  rw [BitVec.getElem_extractLsb', structureWord_getLsbD]
  simp [show ¬ (8 + i < 8) by omega, show 8 + i < 12 by omega]

theorem structureWord_symbol (e : NodeEntry) : e.structureWord.extractLsb' 0 8 = e.symbol := by
  ext i hi
  rw [BitVec.getElem_extractLsb', structureWord_getLsbD]
  simp [hi]

/-- A field of zeros is a run of zero bits. -/
theorem getLsbD_of_extract_zero {w : Nat} {d : Word} {lo : Nat} (h : d.extractLsb' lo w = 0#w) (j : Nat)
    (h1 : lo ≤ j) (h2 : j < lo + w) : d.getLsbD j = false := by
  have := congrArg (fun v : BitVec w => v.getLsbD (j - lo)) h
  simpa [show j - lo < w by omega, show lo + (j - lo) = j by omega] using this

/-- Every structure word NODE_WR accepts is stored with no hidden masking (R27, D36). -/
theorem structureWord_withStructureWord (e : NodeEntry) (d : Word) (h : structureWordOk d = true) :
    (e.withStructureWord d).structureWord = d := by
  have hz := getLsbD_of_extract_zero (eq_of_beq h)
  apply BitVec.eq_of_getLsbD_eq
  intro i hi
  rw [structureWord_getLsbD]
  simp only [NodeEntry.withStructureWord, BitVec.getLsbD_extractLsb', NodeKind.bit_ofBit]
  split
  · simp_all
  split
  · exact (hz i (by omega) (by omega)).symm
  split
  · simp [show i - 12 < 9 by omega, show 12 + (i - 12) = i by omega]
  split
  · simp [show i - 21 < 9 by omega, show 21 + (i - 21) = i by omega]
  split
  · simp_all
  split
  · simp_all
  · omega

/-! ### The root word -/

/-- Each bit of a root word (R75). -/
theorem rootWord_getLsbD (v : Bool) (r : NodeIdx) (k : Nat) :
    (rootWord v r).getLsbD k = if k < 9 then r.getLsbD k else if k = 31 then v else false := by
  unfold rootWord
  simp only [BitVec.getLsbD_append]
  repeat' split
  all_goals first | omega | simp_all <;> omega

theorem rootWord_valid (v : Bool) (i : NodeIdx) : rootWordValid (rootWord v i) = v := by
  rw [rootWordValid, rootWord_getLsbD]; rfl

theorem rootWord_idx (v : Bool) (i : NodeIdx) : rootWordIdx (rootWord v i) = i := by
  ext j hj
  rw [rootWordIdx, BitVec.getElem_extractLsb', rootWord_getLsbD]
  simp [hj]

/-- A root word ROOT_WR accepts is read back by REG_RD 3 as it was written (R75, R212). -/
theorem rootWord_of_fields (d : Word) (h : rootWordOk d = true) : rootWord (rootWordValid d) (rootWordIdx d) = d := by
  have hz := getLsbD_of_extract_zero (eq_of_beq h)
  apply BitVec.eq_of_getLsbD_eq
  intro i hi
  rw [rootWord_getLsbD]
  simp only [rootWordValid, rootWordIdx, BitVec.getLsbD_extractLsb']
  split
  · simp_all
  split
  · simp_all
  · exact (hz i (by omega) (by omega)).symm

/-! ### STATUS -/

/-- Each bit of STATUS (R23). -/
theorem statusWord_getLsbD (tv rv : Bool) (e : BitVec 3) (k : Nat) :
    (statusWord tv rv e).getLsbD k
      = if k < 3 then e.getLsbD k else if k = 4 then rv else if k = 5 then tv else false := by
  unfold statusWord
  rw [BitVec.getLsbD_setWidth]
  simp only [BitVec.getLsbD_append]
  repeat' split
  all_goals first | omega | simp_all <;> omega

/-! ### The code words -/

/-- Each bit of a code header word (R76). -/
theorem headerWord_getLsbD (e : CodeEntry) (k : Nat) :
    e.headerWord.getLsbD k = if k < 8 then e.clen.getLsbD k else if k = 31 then e.cvalid else false := by
  unfold CodeEntry.headerWord
  simp only [BitVec.getLsbD_append]
  repeat' split
  all_goals first | omega | simp_all <;> omega

/-- Bit `j` of value word `k` is bit `32k + j` of the code value, and 0 past its end (R77). -/
theorem valueWord_getLsbD (e : CodeEntry) (k j : Nat) (hj : j < 32) :
    (e.valueWord k).getLsbD j = e.cval.getLsbD (32 * k + j) := by
  simp only [CodeEntry.valueWord, BitVec.getLsbD_extractLsb', hj, decide_true, Bool.true_and, BitVec.getLsbD_setWidth]
  by_cases h : 32 * k + j < 256
  · simp [h]
  · simp [h, BitVec.getLsbD_of_ge e.cval (32 * k + j) (by omega)]

end Sys2Proof.Machine
end

