-- ==== Sys2Proof/Laws/Ops.lean ====
section
/-! SUPPORT. What a command can do, said once: its outcome is `finish` of its effect, and the ways that ends
(00_scope.md R13, R16; 60_exceptions.md R236). -/

namespace Sys2Proof.Machine

/-- The effect of each command before it is committed or discarded. -/
def effect : Instr → State → Except Raise (State × Output)
  | .nop, s => .ok (s, {})
  | .clear, s => .ok (s.toReset, {})
  | .regRd r, s => .ok (s, { rdata := s.register r })
  | .count syms, s => do let t ← s.countStream syms; .ok (t, {})
  | .freqWr c n, s => .ok (s.writeFreq c n, {})
  | .freqRd c, s => .ok (s, { rdata := s.freq.entry c })
  | .build, s => do let t ← s.buildFromFreq; .ok (t, {})
  | .nodeRd i sel, s => checked (nodeIndexOk i) (.ok (s, { rdata := (s.node.entry i).word sel }))
  | .nodeWr i sel d, s => checked (nodeIndexOk i && nodeDataOk sel d)
      (.ok ((s.writeNode i ((s.node.entry i).withWord sel d)).clearTable, {}))
  | .rootWr d, s => checked (rootWordOk d) (.ok ((s.writeRoot (rootWordValid d) (rootWordIdx d)).clearTable, {}))
  | .gencode, s => do let t ← s.generateCodes; .ok (t, {})
  | .codeRd c sel, s => checked (codeSelOk sel) (.ok (s, { rdata := (s.code.entry c).word sel }))
  | .encode syms, s => do let bs ← encodeStream s.code syms; .ok (s, { outBits := bs })
  | .encodeAll syms, s => s.encodeWhole syms
  | .decode bits, s => do
      let out ← decodeStream s.node s.rootValid s.rootIdx bits
      .ok (s, { outSyms := out })

/-- Every command's outcome is the commitment of its effect. -/
theorem exec_eq (i : Instr) (s : State) : exec i s = .next (s.complete (effect i s)) := by
  cases i <;> rfl

theorem exec_ok {i : Instr} {s t : State} {o : Output} (h : effect i s = .ok (t, o)) :
    exec i s = .next (t.respond o) := by rw [exec_eq, h]; rfl

theorem exec_error {i : Instr} {s : State} {e : Raise} (h : effect i s = .error e) :
    exec i s = .next (s.raise e) := by rw [exec_eq, h]; rfl

/-- The only outcome of a command is a next state (R16, R17). -/
theorem exec_next_iff {i : Instr} {s t : State} : exec i s = .next t ↔ t = s.complete (effect i s) := by
  rw [exec_eq]
  exact ⟨fun h => (Host.Outcome.next.inj h).symm, fun h => h ▸ rfl⟩

@[simp] theorem complete_ok (s t : State) (o : Output) : s.complete (.ok (t, o)) = t.respond o := rfl

@[simp] theorem complete_error (s : State) (e : Raise) : s.complete (.error e) = s.raise e := rfl

@[simp] theorem checked_true (r : Except Raise (State × Output)) : checked true r = r := rfl

@[simp] theorem checked_false (r : Except Raise (State × Output)) :
    checked false r = .error (Raise.of .illegalCommand 0) := rfl

/-- The error record meets the frame of R236. -/
theorem raise_failsWith (s : State) (e : Raise) : FailsWith s (s.raise e) e.cause e.info :=
  ⟨rfl, ⟨rfl, rfl, rfl⟩, ⟨rfl, rfl⟩, ⟨rfl, rfl⟩, rfl, rfl, rfl⟩

/-- A response alone meets the frame of a command that changes nothing. -/
theorem respond_onlyAnswers (s : State) (o : Output) : OnlyAnswers s (s.respond o) o :=
  ⟨rfl, ⟨rfl, rfl, rfl⟩, ⟨rfl, rfl⟩, ⟨rfl, rfl⟩, ⟨rfl, rfl⟩, rfl⟩

/-- What `checked` can answer. -/
theorem checked_ok {b : Bool} {r : Except Raise (State × Output)} {x : State × Output}
    (h : checked b r = .ok x) : b = true ∧ r = .ok x := by
  cases b
  · cases h
  · exact ⟨rfl, h⟩

/-- What COUNT's writes can answer (R101). -/
theorem countStream_ok {s t : State} {syms : List Symbol} (h : s.countStream syms = .ok t) :
    syms.length ≤ Config.SYM_STREAM_MAX ∧ t = { s with freq := countTable syms } := by
  unfold State.countStream at h
  split at h
  · cases h
  · exact ⟨by omega, (Except.ok.inj h).symm⟩

/-- What BUILD's writes can answer (R123). -/
theorem buildFromFreq_ok {s t : State} (h : s.buildFromFreq = .ok t) :
    ∃ A r, buildTree s.freq = .ok (A, r) ∧ t = ({ s with node := A }.writeRoot true r).clearTable := by
  unfold State.buildFromFreq at h
  split at h
  · cases h
  · exact ⟨_, _, by assumption, (Except.ok.inj h).symm⟩

/-- What GENCODE's writes can answer (R152). -/
theorem generateCodes_ok {s t : State} (h : s.generateCodes = .ok t) :
    ∃ T, generateTable s.node s.rootValid s.rootIdx = .ok T ∧ t = { s with code := T, tableValid := true } := by
  unfold State.generateCodes at h
  split at h
  · cases h
  · exact ⟨_, by assumption, (Except.ok.inj h).symm⟩

/-- From a bind that answers, the first computation and the rest. -/
theorem bind_ok {α β : Type} {x : Except Raise α} {f : α → Except Raise β} {b : β} (h : (x >>= f) = .ok b) :
    ∃ a, x = .ok a ∧ f a = .ok b := by
  cases x with
  | error e => cases h
  | ok a => exact ⟨a, rfl, h⟩

/-- What ENCODE_ALL can answer (R172): the empty stream leaves no tree, any other one is counted, built, generated
and encoded. -/
theorem encodeWhole_ok {s t : State} {syms : List Symbol} {o : Output} (h : s.encodeWhole syms = .ok (t, o)) :
    (syms = [] ∧ t = ({ s with freq := countTable [] } : State).dropTree ∧ o = {})
    ∨ (syms ≠ [] ∧ ∃ A r T bs, buildTree (countTable syms) = .ok (A, r) ∧ generateTable A true r = .ok T
        ∧ encodeStream T syms = .ok bs ∧ o = { outBits := bs }
        ∧ t = { s with freq := countTable syms, node := A, rootValid := true, rootIdx := r, code := T, tableValid := true }) := by
  unfold State.encodeWhole at h
  obtain ⟨s₁, h1, h⟩ := bind_ok h
  obtain ⟨-, rfl⟩ := countStream_ok h1
  cases syms with
  | nil =>
    cases h
    exact .inl ⟨rfl, rfl, rfl⟩
  | cons c cs =>
    obtain ⟨s₂, h2, h⟩ := bind_ok h
    obtain ⟨A, r, hA, rfl⟩ := buildFromFreq_ok h2
    obtain ⟨s₃, h3, h⟩ := bind_ok h
    obtain ⟨T, hT, rfl⟩ := generateCodes_ok h3
    obtain ⟨bs, h4, h⟩ := bind_ok h
    cases h
    exact .inr ⟨by simp, A, r, T, bs, hA, hT, h4, rfl, rfl⟩

/-- From a bind that fails, where it fails. -/
theorem bind_error {α β : Type} {x : Except Raise α} {f : α → Except Raise β} {e : Raise} (h : (x >>= f) = .error e) :
    x = .error e ∨ ∃ a, x = .ok a ∧ f a = .error e := by
  cases x with
  | error e' => cases h; exact .inl rfl
  | ok a => exact .inr ⟨a, rfl, h⟩

/-- How `checked` can fail (R80). -/
theorem checked_error {b : Bool} {x : State × Output} {e : Raise} (h : checked b (.ok x) = .error e) :
    b = false ∧ e = Raise.of .illegalCommand 0 := by
  cases b
  · cases h; exact ⟨rfl, rfl⟩
  · cases h

/-- How COUNT's writes can fail (R101). -/
theorem countStream_error {s : State} {syms : List Symbol} {e : Raise} (h : s.countStream syms = .error e) :
    Config.SYM_STREAM_MAX < syms.length ∧ e = Raise.of .overflow Config.SYM_STREAM_MAX := by
  unfold State.countStream at h
  split at h
  · cases h; exact ⟨by omega, rfl⟩
  · cases h

/-- What every successful effect leaves: the responses, what the host has yet to do, and, but for CLEAR, the error
record (R34, R238). -/
theorem effect_keeps {i : Instr} {s t : State} {o : Output} (h : effect i s = .ok (t, o)) :
    t.responses = s.responses ∧ SameHost s t ∧ (i ≠ .clear → SameErrors s t) := by
  cases i <;> simp only [effect] at h
  case nop => cases h; exact ⟨rfl, ⟨rfl, rfl⟩, fun _ => ⟨rfl, rfl⟩⟩
  case clear => cases h; exact ⟨rfl, ⟨rfl, rfl⟩, fun h => absurd rfl h⟩
  case regRd => cases h; exact ⟨rfl, ⟨rfl, rfl⟩, fun _ => ⟨rfl, rfl⟩⟩
  case freqRd => cases h; exact ⟨rfl, ⟨rfl, rfl⟩, fun _ => ⟨rfl, rfl⟩⟩
  case freqWr => cases h; exact ⟨rfl, ⟨rfl, rfl⟩, fun _ => ⟨rfl, rfl⟩⟩
  case nodeRd => cases (checked_ok h).2; exact ⟨rfl, ⟨rfl, rfl⟩, fun _ => ⟨rfl, rfl⟩⟩
  case nodeWr => cases (checked_ok h).2; exact ⟨rfl, ⟨rfl, rfl⟩, fun _ => ⟨rfl, rfl⟩⟩
  case rootWr => cases (checked_ok h).2; exact ⟨rfl, ⟨rfl, rfl⟩, fun _ => ⟨rfl, rfl⟩⟩
  case codeRd => cases (checked_ok h).2; exact ⟨rfl, ⟨rfl, rfl⟩, fun _ => ⟨rfl, rfl⟩⟩
  case count => obtain ⟨u, hu, h⟩ := bind_ok h; obtain ⟨-, rfl⟩ := countStream_ok hu; cases h; exact ⟨rfl, ⟨rfl, rfl⟩, fun _ => ⟨rfl, rfl⟩⟩
  case build => obtain ⟨u, hu, h⟩ := bind_ok h; obtain ⟨A, r, -, rfl⟩ := buildFromFreq_ok hu; cases h; exact ⟨rfl, ⟨rfl, rfl⟩, fun _ => ⟨rfl, rfl⟩⟩
  case gencode => obtain ⟨u, hu, h⟩ := bind_ok h; obtain ⟨A, -, rfl⟩ := generateCodes_ok hu; cases h; exact ⟨rfl, ⟨rfl, rfl⟩, fun _ => ⟨rfl, rfl⟩⟩
  case encode => obtain ⟨u, hu, h⟩ := bind_ok h; cases h; exact ⟨rfl, ⟨rfl, rfl⟩, fun _ => ⟨rfl, rfl⟩⟩
  case decode => obtain ⟨u, hu, h⟩ := bind_ok h; cases h; exact ⟨rfl, ⟨rfl, rfl⟩, fun _ => ⟨rfl, rfl⟩⟩
  case encodeAll =>
    obtain ⟨-, rfl, rfl⟩ | ⟨-, A, r, T, bs, -, -, -, rfl, rfl⟩ := encodeWhole_ok h <;>
    exact ⟨rfl, ⟨rfl, rfl⟩, fun _ => ⟨rfl, rfl⟩⟩

/-- Every command leaves what the host has yet to do and adds one response (R16, R78). -/
theorem complete_host {i : Instr} (s : State) : SameHost s (s.complete (effect i s)) ∧
   ∃ r, Responds s (s.complete (effect i s)) r := by
  cases h : effect i s with
  | error e => exact ⟨⟨rfl, rfl⟩, _, rfl⟩
  | ok x =>
    obtain ⟨t, o⟩ := x
    obtain ⟨h1, h2, -⟩ := effect_keeps h
    refine ⟨h2, Response.success o, ?_⟩
    show t.responses ++ _ = _
    rw [h1]

end Sys2Proof.Machine
end

