-- ==== Sys2Proof/Laws/Paths.lean ====
section
/-! SUPPORT. Following paths through the arena: the lemmas of `Arena.follow` and `Arena.child`
(42_code_generator.md R151, R153). -/

namespace Sys2Proof.Machine

theorem follow_nil {A : Arena} {i : NodeIdx} (h : A.absent i = false) : A.follow i [] = some i := by
  simp [Arena.follow, h]

theorem follow_cons {A : Arena} {i : NodeIdx} (b : Bit) (p : List Bit) (h : A.absent i = false)
    (hk : (A.entry i).kind = .internal) : A.follow i (b :: p) = A.follow ((A.entry i).child b) p := by
  rw [Arena.follow, h, hk]
  rfl

/-- A path of one step or more starts at a present Internal node. -/
theorem follow_cons_some {A : Arena} {i j : NodeIdx} {b : Bit} {p : List Bit} (h : A.follow i (b :: p) = some j) :
    A.absent i = false ∧ (A.entry i).kind = .internal ∧ A.follow ((A.entry i).child b) p = some j := by
  rw [Arena.follow] at h
  split at h
  · cases h
  · next ha =>
    refine ⟨by simpa using ha, ?_⟩
    split at h
    · cases h
    · next hk => exact ⟨hk, h⟩

theorem follow_nil_some {A : Arena} {i j : NodeIdx} (h : A.follow i [] = some j) : A.absent i = false ∧ j = i := by
  rw [Arena.follow] at h
  split at h
  · cases h
  · next ha => exact ⟨by simpa using ha, (Option.some.inj h).symm⟩

/-- Where a path leads is a present node, and so is where it starts. -/
theorem follow_present {A : Arena} {i j : NodeIdx} {p : List Bit} (h : A.follow i p = some j) :
    A.absent i = false ∧ A.absent j = false := by
  induction p generalizing i with
  | nil =>
    obtain ⟨ha, rfl⟩ := follow_nil_some h
    exact ⟨ha, ha⟩
  | cons b p ih =>
    obtain ⟨ha, -, hf⟩ := follow_cons_some h
    exact ⟨ha, (ih hf).2⟩

/-- A path followed in two parts. -/
theorem follow_append {A : Arena} {i j : NodeIdx} {p : List Bit} (q : List Bit) (h : A.follow i p = some j) :
    A.follow i (p ++ q) = A.follow j q := by
  induction p generalizing i with
  | nil =>
    obtain ⟨-, rfl⟩ := follow_nil_some h
    rfl
  | cons b p ih =>
    obtain ⟨ha, hk, hf⟩ := follow_cons_some h
    rw [List.cons_append, follow_cons b _ ha hk, ih hf]

/-- A longer path passes through where its first part leads. -/
theorem follow_append_some {A : Arena} {i k : NodeIdx} {p q : List Bit} (h : A.follow i (p ++ q) = some k) :
    ∃ j, A.follow i p = some j ∧ A.follow j q = some k := by
  induction p generalizing i with
  | nil => exact ⟨i, follow_nil (follow_present h).1, h⟩
  | cons b p ih =>
    obtain ⟨ha, hk, hf⟩ := follow_cons_some h
    obtain ⟨j, hj, hq⟩ := ih hf
    exact ⟨j, by rw [follow_cons b _ ha hk, hj], hq⟩

/-- One more step: from an Internal node to a present child. -/
theorem follow_snoc {A : Arena} {i j : NodeIdx} {p : List Bit} (b : Bit) (h : A.follow i p = some j)
    (hk : (A.entry j).kind = .internal) (hc : A.absent ((A.entry j).child b) = false) :
    A.follow i (p ++ [b]) = some ((A.entry j).child b) := by
  rw [follow_append _ h, follow_cons b _ (follow_present h).2 hk, follow_nil hc]

theorem follow_snoc_some {A : Arena} {i k : NodeIdx} {p : List Bit} {b : Bit} (h : A.follow i (p ++ [b]) = some k) :
    ∃ j, A.follow i p = some j ∧ (A.entry j).kind = .internal ∧ (A.entry j).child b = k ∧ A.absent k = false := by
  obtain ⟨j, hj, hb⟩ := follow_append_some h
  obtain ⟨-, hk, hf⟩ := follow_cons_some hb
  obtain ⟨ha, rfl⟩ := follow_nil_some hf
  exact ⟨j, hj, hk, rfl, ha⟩

/-- No path goes through a Leaf. -/
theorem follow_leaf {A : Arena} {i j : NodeIdx} {p : List Bit} (hk : (A.entry i).kind = .leaf)
    (h : A.follow i p = some j) : p = [] ∧ j = i := by
  cases p with
  | nil => exact ⟨rfl, (follow_nil_some h).2⟩
  | cons b p =>
    have := (follow_cons_some h).2.1
    rw [hk] at this
    cases this

/-- The path to a Leaf is no proper beginning of another path. -/
theorem follow_leaf_not_proper {A : Arena} {r i j : NodeIdx} {p q : List Bit} (hp : A.follow r p = some i)
    (hk : (A.entry i).kind = .leaf) (hq : A.follow r (p ++ q) = some j) : q = [] := by
  rw [follow_append q hp] at hq
  exact (follow_leaf hk hq).1

/-- Node indices without repeats that name slots are at most 511. -/
theorem nodup_length_le {l : List NodeIdx} (hn : l.Nodup) (h : ∀ i ∈ l, nodeIndexOk i = true) :
    l.length ≤ Config.NNODE := by
  have hm : (l.map BitVec.toNat).Nodup := hn.map (fun a b hab => BitVec.toNat_inj.mp hab)
  have hs : (l.map BitVec.toNat).toFinset ⊆ Finset.range Config.NNODE := by
    intro x hx
    simp only [List.mem_toFinset, List.mem_map] at hx
    obtain ⟨i, hi, rfl⟩ := hx
    exact Finset.mem_range.mpr ((nodeIndexOk_iff i).mp (h i hi))
  have hc := Finset.card_le_card hs
  rwa [List.toFinset_card_of_nodup hm, List.length_map, Finset.card_range] at hc

end Sys2Proof.Machine
end

