-- ==== Sys2Proof/Laws/CodeGenerator.lean ====
section
/-! SUPPORT. What GENCODE answers: on a tree without the defects of R153 the table of its path codes, and
INVALID_TREE on any other (42_code_generator.md R151 to R154, R159). -/

namespace Sys2Proof.Machine

/-- What a finished walk has visited, as pairs of a node and its path: a record from which every fact about the
table follows. -/
structure Visited (A : Arena) (seen : List NodeIdx) (stack : List (NodeIdx × List Bit)) (t t' : CodeTable)
    (V : List (NodeIdx × List Bit)) : Prop where
  nodup : (V.map Prod.fst).Nodup
  fresh : ∀ x ∈ V, x.1 ∉ seen
  stacked : ∀ x ∈ stack, x ∈ V
  present : ∀ x ∈ V, A.absent x.1 = false
  children : ∀ x ∈ V, (A.entry x.1).kind = .internal → ∀ b, ((A.entry x.1).child b, x.2 ++ [b]) ∈ V
  descends : ∀ x ∈ V, ∃ y ∈ stack, ∃ r, x.2 = y.2 ++ r ∧ A.follow y.1 r = some x.1
  unset : ∀ x ∈ V, (A.entry x.1).kind = .leaf → (t.entry (A.entry x.1).symbol).cvalid = false
  set : ∀ x ∈ V, (A.entry x.1).kind = .leaf → t'.entry (A.entry x.1).symbol = CodeEntry.ofPath x.2
  kept : ∀ c, (∀ x ∈ V, (A.entry x.1).kind = .leaf → (A.entry x.1).symbol ≠ c) → t'.entry c = t.entry c
  symbols : ∀ x ∈ V, ∀ y ∈ V, (A.entry x.1).kind = .leaf → (A.entry y.1).kind = .leaf →
    (A.entry x.1).symbol = (A.entry y.1).symbol → x = y
  depth : (∀ y ∈ stack, 2 * y.2.length + 1 ≤ seen.length + stack.length) →
    ∀ x ∈ V, 2 * x.2.length + 1 ≤ seen.length + V.length
  count : stack.length ≤ V.length

/-- A walk that answers has visited what `Visited` says (R152). -/
theorem walk_ok {A : Arena} {fuel : Nat} {seen : List NodeIdx} {stack : List (NodeIdx × List Bit)} {t t' : CodeTable}
    (h : walk A fuel seen stack t = .ok t') : ∃ V, Visited A seen stack t t' V := by
  induction fuel generalizing seen stack t with
  | zero =>
    cases stack with
    | nil =>
      cases h
      exact ⟨[], by constructor <;> simp⟩
    | cons x xs => cases h
  | succ fuel ih =>
    cases stack with
    | nil =>
      cases h
      exact ⟨[], by constructor <;> simp⟩
    | cons x stack =>
      obtain ⟨i, p⟩ := x
      rw [walk] at h
      split at h
      · cases h
      next hpre =>
      obtain ⟨ha, hi⟩ : A.absent i = false ∧ i ∉ seen := by simpa using hpre
      split at h
      · next hk =>
        split at h
        · cases h
        next hc =>
        have hc : (t.entry (A.entry i).symbol).cvalid = false := by simpa using hc
        obtain ⟨V, hV⟩ := ih h
        refine ⟨(i, p) :: V, ?_⟩
        have hsym : ∀ y ∈ V, (A.entry y.1).kind = .leaf → (A.entry y.1).symbol ≠ (A.entry i).symbol := by
          intro y hy hyk he
          have := hV.unset y hy hyk
          rw [he, CodeTable.entry_put, if_pos rfl] at this
          cases this
        constructor
        · exact List.nodup_cons.mpr ⟨fun hm => by
            obtain ⟨y, hy, rfl⟩ := List.mem_map.mp hm
            exact hV.fresh y hy (List.mem_cons_self ..), hV.nodup⟩
        · rintro y (_ | ⟨_, hy⟩)
          · exact hi
          · exact fun hs => hV.fresh y hy (List.mem_cons_of_mem _ hs)
        · rintro y (_ | ⟨_, hy⟩)
          · exact List.mem_cons_self ..
          · exact List.mem_cons_of_mem _ (hV.stacked y hy)
        · rintro y (_ | ⟨_, hy⟩)
          · exact ha
          · exact hV.present y hy
        · rintro y (_ | ⟨_, hy⟩) hyk b
          · rw [hk] at hyk; cases hyk
          · exact List.mem_cons_of_mem _ (hV.children y hy hyk b)
        · rintro y (_ | ⟨_, hy⟩)
          · exact ⟨(i, p), List.mem_cons_self .., [], by simp, follow_nil ha⟩
          · obtain ⟨z, hz, r, hr⟩ := hV.descends y hy
            exact ⟨z, List.mem_cons_of_mem _ hz, r, hr⟩
        · rintro y (_ | ⟨_, hy⟩) hyk
          · exact hc
          · have := hV.unset y hy hyk
            rwa [CodeTable.entry_put, if_neg (hsym y hy hyk)] at this
        · rintro y (_ | ⟨_, hy⟩) hyk
          · rw [hV.kept _ (fun z hz hzk => hsym z hz hzk), CodeTable.entry_put, if_pos rfl]
          · exact hV.set y hy hyk
        · intro c hcs
          rw [hV.kept c (fun z hz hzk => hcs z (List.mem_cons_of_mem _ hz) hzk), CodeTable.entry_put,
            if_neg (fun he => hcs (i, p) (List.mem_cons_self ..) hk he.symm)]
        · rintro y (_ | ⟨_, hy⟩) z (_ | ⟨_, hz⟩) hyk hzk he
          · rfl
          · exact absurd he.symm (hsym z hz hzk)
          · exact absurd he (hsym y hy hyk)
          · exact hV.symbols y hy z hz hyk hzk he
        · intro hs y hy
          have hd := hV.depth (fun z hz => by
            have := hs z (List.mem_cons_of_mem _ hz)
            simp only [List.length_cons] at this ⊢
            omega)
          have hcount := hV.count
          rcases List.mem_cons.mp hy with rfl | hy
          · have := hs _ (List.mem_cons_self ..)
            simp only [List.length_cons] at this ⊢
            omega
          · have := hd y hy
            simp only [List.length_cons] at this ⊢
            omega
        · have := hV.count
          simp only [List.length_cons]
          omega
      · next hk =>
        obtain ⟨V, hV⟩ := ih h
        refine ⟨(i, p) :: V, ?_⟩
        have hl : ((A.entry i).left, p ++ [false]) ∈ V := hV.stacked _ (by simp)
        have hr : ((A.entry i).right, p ++ [true]) ∈ V := hV.stacked _ (by simp)
        constructor
        · exact List.nodup_cons.mpr ⟨fun hm => by
            obtain ⟨y, hy, rfl⟩ := List.mem_map.mp hm
            exact hV.fresh y hy (List.mem_cons_self ..), hV.nodup⟩
        · rintro y (_ | ⟨_, hy⟩)
          · exact hi
          · exact fun hs => hV.fresh y hy (List.mem_cons_of_mem _ hs)
        · rintro y (_ | ⟨_, hy⟩)
          · exact List.mem_cons_self ..
          · exact List.mem_cons_of_mem _ (hV.stacked y (List.mem_cons_of_mem _ (List.mem_cons_of_mem _ hy)))
        · rintro y (_ | ⟨_, hy⟩)
          · exact ha
          · exact hV.present y hy
        · rintro y (_ | ⟨_, hy⟩) hyk b
          · cases b
            · exact List.mem_cons_of_mem _ hl
            · exact List.mem_cons_of_mem _ hr
          · exact List.mem_cons_of_mem _ (hV.children y hy hyk b)
        · rintro y (_ | ⟨_, hy⟩)
          · exact ⟨(i, p), List.mem_cons_self .., [], by simp, follow_nil ha⟩
          · obtain ⟨z, hz, r, hr1, hr2⟩ := hV.descends y hy
            rcases List.mem_cons.mp hz with rfl | hz
            · exact ⟨(i, p), List.mem_cons_self .., false :: r, by simp [hr1], by
                rw [follow_cons _ _ ha hk]; exact hr2⟩
            rcases List.mem_cons.mp hz with rfl | hz
            · exact ⟨(i, p), List.mem_cons_self .., true :: r, by simp [hr1], by
                rw [follow_cons _ _ ha hk]; exact hr2⟩
            · exact ⟨z, List.mem_cons_of_mem _ hz, r, hr1, hr2⟩
        · rintro y (_ | ⟨_, hy⟩) hyk
          · rw [hk] at hyk; cases hyk
          · exact hV.unset y hy hyk
        · rintro y (_ | ⟨_, hy⟩) hyk
          · rw [hk] at hyk; cases hyk
          · exact hV.set y hy hyk
        · intro c hcs
          exact hV.kept c (fun z hz hzk => hcs z (List.mem_cons_of_mem _ hz) hzk)
        · rintro y (_ | ⟨_, hy⟩) z (_ | ⟨_, hz⟩) hyk hzk he
          · rfl
          · rw [hk] at hyk; cases hyk
          · rw [hk] at hzk; cases hzk
          · exact hV.symbols y hy z hz hyk hzk he
        · intro hs y hy
          have h0 := hs _ (List.mem_cons_self ..)
          have hd := hV.depth (fun z hz => by
            rcases List.mem_cons.mp hz with rfl | hz
            · simp only [List.length_cons, List.length_append, List.length_nil] at h0 ⊢
              omega
            rcases List.mem_cons.mp hz with rfl | hz
            · simp only [List.length_cons, List.length_append, List.length_nil] at h0 ⊢
              omega
            · have := hs z (List.mem_cons_of_mem _ hz)
              simp only [List.length_cons] at this ⊢
              omega)
          have hcount := hV.count
          rcases List.mem_cons.mp hy with rfl | hy
          · simp only [List.length_cons] at h0 hcount ⊢
            omega
          · have := hd y hy
            simp only [List.length_cons] at this ⊢
            omega
        · have := hV.count
          simp only [List.length_cons] at this ⊢
          omega

/-- What a successful GENCODE says of its tree and table: the tree has none of the defects of R153, every symbol
with a code has it from its leaf, every other symbol has none, and paths are short enough to be stored. -/
structure TableOf (A : Arena) (root : NodeIdx) (T : CodeTable) : Prop where
  sound : ¬ Malformed A true root
  coded : ∀ c p, HasCode A root c p → T.entry c = CodeEntry.ofPath p ∧ 1 ≤ p.length ∧ p.length ≤ Config.MAX_LEN
  uncoded : ∀ c, (∀ p, ¬ HasCode A root c p) → T.entry c = {}

/-- A Leaf root: a tree without defects and the one code `0` (R154). -/
theorem tableOf_leaf {A : Arena} {root : NodeIdx} (ha : A.absent root = false) (hk : (A.entry root).kind = .leaf) :
    TableOf A root (CodeTable.empty.put (A.entry root).symbol (CodeEntry.ofPath [false])) := by
  constructor
  · rintro (h | ⟨p, i, b, h, hik, -⟩ | ⟨p, q, i, hne, hp, hq⟩ | ⟨p, q, i, j, hne, hp, hq, -, -, -⟩)
    · simp [ha] at h
    · rw [(follow_leaf hk h).2, hk] at hik
      cases hik
    · exact hne ((follow_leaf hk hp).1.trans (follow_leaf hk hq).1.symm)
    · exact hne ((follow_leaf hk hp).2.trans (follow_leaf hk hq).2.symm)
  · rintro c p ⟨q, i, hq, -, hs, rfl⟩
    obtain ⟨rfl, rfl⟩ := follow_leaf hk hq
    rw [CodeTable.entry_put, if_pos hs.symm]
    exact ⟨rfl, by decide, by decide⟩
  · intro c hc
    rw [CodeTable.entry_put, if_neg, CodeTable.entry_empty]
    rintro rfl
    exact hc [false] ⟨[], root, follow_nil ha, hk, rfl, rfl⟩

/-- The nodes a walk from an Internal root has visited are the reachable ones, each with its path. -/
theorem visited_iff {A : Arena} {root : NodeIdx} {t t' : CodeTable} {V : List (NodeIdx × List Bit)}
    (hV : Visited A [] [(root, [])] t t' V) (i : NodeIdx) (p : List Bit) :
    (i, p) ∈ V ↔ A.follow root p = some i := by
  constructor
  · intro h
    obtain ⟨y, hy, r, hr, hf⟩ := hV.descends _ h
    obtain rfl := List.mem_singleton.mp hy
    have hr : p = r := by simpa using hr
    subst hr
    exact hf
  · intro h
    induction p using List.reverseRecOn generalizing i with
    | nil =>
      obtain ⟨-, rfl⟩ := follow_nil_some h
      exact hV.stacked _ (List.mem_cons_self ..)
    | append_singleton p b ih =>
      obtain ⟨j, hj, hk, rfl, -⟩ := follow_snoc_some h
      exact hV.children _ (ih j hj) hk b

/-- A finished walk from an Internal root. -/
theorem tableOf_walk {A : Arena} {root : NodeIdx} {fuel : Nat} {T : CodeTable} (ha : A.absent root = false)
    (hk : (A.entry root).kind = .internal) (h : walk A fuel [] [(root, [])] CodeTable.empty = .ok T) :
    TableOf A root T := by
  obtain ⟨V, hV⟩ := walk_ok h
  have hmem := visited_iff hV
  have hlen : V.length ≤ Config.NNODE := by
    have := nodup_length_le hV.nodup (fun i hi => by
      obtain ⟨x, hx, rfl⟩ := List.mem_map.mp hi
      exact A.nodeIndexOk_of_present _ (hV.present x hx))
    simpa using this
  have hdepth := hV.depth (by simp)
  have hunique : ∀ i p q, A.follow root p = some i → A.follow root q = some i → p = q := by
    intro i p q hp hq
    have := List.inj_on_of_nodup_map hV.nodup ((hmem i p).mpr hp) ((hmem i q).mpr hq) rfl
    exact congrArg Prod.snd this
  constructor
  · rintro (h | ⟨p, i, b, hp, hik, hc⟩ | ⟨p, q, i, hne, hp, hq⟩ | ⟨p, q, i, j, hne, hp, hq, hi, hj, hs⟩)
    · simp [ha] at h
    · have := hV.present _ (hV.children _ ((hmem i p).mpr hp) hik b)
      rw [hc] at this
      cases this
    · exact hne (hunique i p q hp hq)
    · exact hne (congrArg Prod.fst (hV.symbols _ ((hmem i p).mpr hp) _ ((hmem j q).mpr hq) hi hj hs))
  · rintro c p ⟨q, i, hq, hik, hs, rfl⟩
    have hne : q ≠ [] := by
      rintro rfl
      obtain ⟨-, rfl⟩ := follow_nil_some hq
      rw [hk] at hik
      cases hik
    rw [if_neg hne]
    have hd := hdepth _ ((hmem i q).mpr hq)
    have hset := hV.set _ ((hmem i q).mpr hq) hik
    subst hs
    refine ⟨hset, List.length_pos_of_ne_nil hne, ?_⟩
    have hn : Config.NNODE = 511 := rfl
    have hm : Config.MAX_LEN = 255 := rfl
    simp only [List.length_nil] at hd
    omega
  · intro c hc
    rw [hV.kept c, CodeTable.entry_empty]
    rintro ⟨i, p⟩ hx hik hs
    exact hc _ ⟨p, i, (hmem i p).mp hx, hik, hs, rfl⟩

/-- Every table GENCODE answers is the table of its tree. -/
theorem generateTable_ok {A : Arena} {rv : Bool} {root : NodeIdx} {T : CodeTable}
    (h : generateTable A rv root = .ok T) : rv = true ∧ A.absent root = false ∧ TableOf A root T := by
  unfold generateTable at h
  split at h
  · cases h
  next hpre =>
  obtain ⟨hrv, ha⟩ : rv = true ∧ A.absent root = false := by simpa using hpre
  refine ⟨hrv, ha, ?_⟩
  split at h
  · next hk =>
    cases h
    exact tableOf_leaf ha hk
  · next hk => exact tableOf_walk ha hk h

/-- What a walk has done so far, over a tree without defects: `W` is what it has visited. -/
structure Walking (A : Arena) (root : NodeIdx) (W : List (NodeIdx × List Bit)) (stack : List (NodeIdx × List Bit))
    (t : CodeTable) : Prop where
  nodup : (W.map Prod.fst).Nodup
  visited : ∀ x ∈ W, A.follow root x.2 = some x.1
  waiting : ∀ x ∈ stack, A.follow root x.2 = some x.1
  apart : ∀ x ∈ stack, ∀ y ∈ W, ¬ x.2 <+: y.2
  between : stack.Pairwise (fun x y => ¬ x.2 <+: y.2 ∧ ¬ y.2 <+: x.2)
  codes : ∀ c, (t.entry c).cvalid = true → ∃ x ∈ W, (A.entry x.1).kind = .leaf ∧ (A.entry x.1).symbol = c

theorem Walking.pop {A : Arena} {root i : NodeIdx} {p : List Bit} {W stack : List (NodeIdx × List Bit)} {t : CodeTable}
    (hm : ¬ Malformed A true root) (h : Walking A root W ((i, p) :: stack) t) :
    A.absent i = false ∧ i ∉ W.map Prod.fst := by
  have hi := h.waiting _ (List.mem_cons_self ..)
  refine ⟨(follow_present hi).2, fun hmem => ?_⟩
  obtain ⟨⟨j, q⟩, hj, rfl⟩ := List.mem_map.mp hmem
  refine hm (.shared p q j ?_ hi (h.visited _ hj))
  rintro rfl
  exact h.apart _ (List.mem_cons_self ..) _ hj (List.prefix_refl _)

theorem Walking.leaf {A : Arena} {root i : NodeIdx} {p : List Bit} {W stack : List (NodeIdx × List Bit)} {t : CodeTable}
    (hm : ¬ Malformed A true root) (h : Walking A root W ((i, p) :: stack) t) (hk : (A.entry i).kind = .leaf)
    (e : CodeEntry) : Walking A root ((i, p) :: W) stack (t.put (A.entry i).symbol e) := by
  have hb := List.pairwise_cons.mp h.between
  constructor
  · exact List.nodup_cons.mpr ⟨(h.pop hm).2, h.nodup⟩
  · rintro y (_ | ⟨_, hy⟩)
    · exact h.waiting _ (List.mem_cons_self ..)
    · exact h.visited y hy
  · exact fun y hy => h.waiting y (List.mem_cons_of_mem _ hy)
  · rintro y hy z (_ | ⟨_, hz⟩)
    · exact (hb.1 y hy).2
    · exact h.apart y (List.mem_cons_of_mem _ hy) z hz
  · exact hb.2
  · intro c hc
    rw [CodeTable.entry_put] at hc
    split at hc
    · next he => exact ⟨(i, p), List.mem_cons_self .., hk, he.symm⟩
    · obtain ⟨x, hx, hxk⟩ := h.codes c hc
      exact ⟨x, List.mem_cons_of_mem _ hx, hxk⟩

/-- No path that goes on from `p` is a beginning of a path that `p` is no beginning of, nor the other way round. -/
theorem not_prefix_snoc {p q : List Bit} (b : Bit) (h : ¬ p <+: q) : ¬ (p ++ [b]) <+: q :=
  fun hq => h ((List.prefix_append p [b]).trans hq)

theorem not_prefix_of_snoc {p q : List Bit} (b : Bit) (h1 : ¬ p <+: q) (h2 : ¬ q <+: p) : ¬ q <+: (p ++ [b]) := by
  intro hq
  rcases List.prefix_concat_iff.mp (by simpa using hq) with rfl | hq
  · exact h1 (List.prefix_append p [b])
  · exact h2 hq

theorem Walking.internal {A : Arena} {root i : NodeIdx} {p : List Bit} {W stack : List (NodeIdx × List Bit)}
    {t : CodeTable} (hm : ¬ Malformed A true root) (h : Walking A root W ((i, p) :: stack) t)
    (hk : (A.entry i).kind = .internal) :
    Walking A root ((i, p) :: W)
      (((A.entry i).left, p ++ [false]) :: ((A.entry i).right, p ++ [true]) :: stack) t := by
  have hb := List.pairwise_cons.mp h.between
  have hi := h.waiting _ (List.mem_cons_self ..)
  have hchild : ∀ b, A.follow root (p ++ [b]) = some ((A.entry i).child b) := by
    intro b
    refine follow_snoc b hi hk ?_
    cases hc : A.absent ((A.entry i).child b) with
    | false => rfl
    | true => exact absurd (Malformed.nullChild p i b hi hk hc) hm
  have hself : ∀ b, ¬ (p ++ [b]) <+: p := fun b hp => by simpa using hp.length_le
  have hbrothers : ∀ b d, b ≠ d → ¬ (p ++ [b]) <+: (p ++ [d]) := by
    intro b d hne hp
    have := hp.eq_of_length (by simp)
    exact hne (by simpa using this)
  have hnew : ∀ b, ∀ y ∈ stack, ¬ (p ++ [b]) <+: y.2 ∧ ¬ y.2 <+: (p ++ [b]) := fun b y hy =>
    ⟨not_prefix_snoc b (hb.1 y hy).1, not_prefix_of_snoc b (hb.1 y hy).1 (hb.1 y hy).2⟩
  have hapart : ∀ b, ∀ y ∈ (i, p) :: W, ¬ (p ++ [b]) <+: y.2 := by
    rintro b y (_ | ⟨_, hy⟩)
    · exact hself b
    · exact not_prefix_snoc b (h.apart _ (List.mem_cons_self ..) y hy)
  constructor
  · exact List.nodup_cons.mpr ⟨(h.pop hm).2, h.nodup⟩
  · rintro y (_ | ⟨_, hy⟩)
    · exact hi
    · exact h.visited y hy
  · intro y hy
    rcases List.mem_cons.mp hy with rfl | hy
    · exact hchild false
    rcases List.mem_cons.mp hy with rfl | hy
    · exact hchild true
    · exact h.waiting y (List.mem_cons_of_mem _ hy)
  · intro y hy z hz
    rcases List.mem_cons.mp hy with rfl | hy
    · exact hapart false z hz
    rcases List.mem_cons.mp hy with rfl | hy
    · exact hapart true z hz
    rcases List.mem_cons.mp hz with rfl | hz
    · exact (hb.1 y hy).2
    · exact h.apart y (List.mem_cons_of_mem _ hy) z hz
  · refine List.pairwise_cons.mpr ⟨?_, List.pairwise_cons.mpr ⟨hnew true, hb.2⟩⟩
    intro y hy
    rcases List.mem_cons.mp hy with rfl | hy
    · exact ⟨hbrothers _ _ (by simp), hbrothers _ _ (by simp)⟩
    · exact hnew false y hy
  · intro c hc
    obtain ⟨x, hx, hxk⟩ := h.codes c hc
    exact ⟨x, List.mem_cons_of_mem _ hx, hxk⟩

/-- A walk over a tree without defects does not fail (R153), and does not run out of turns. -/
theorem walk_complete {A : Arena} {root : NodeIdx} (hm : ¬ Malformed A true root) {fuel : Nat}
    {W stack : List (NodeIdx × List Bit)} {t : CodeTable} (h : Walking A root W stack t)
    (hf : Config.NNODE < fuel + W.length) : ∃ T, walk A fuel (W.map Prod.fst) stack t = .ok T := by
  induction fuel generalizing W stack t with
  | zero =>
    have := nodup_length_le h.nodup (fun i hi => by
      obtain ⟨x, hx, rfl⟩ := List.mem_map.mp hi
      exact A.nodeIndexOk_of_present _ (follow_present (h.visited x hx)).2)
    simp only [List.length_map] at this
    omega
  | succ fuel ih =>
    cases stack with
    | nil => exact ⟨t, rfl⟩
    | cons x stack =>
      obtain ⟨i, p⟩ := x
      obtain ⟨ha, hi⟩ := h.pop hm
      rw [walk, if_neg (by simpa [ha] using hi)]
      have hl : Config.NNODE < fuel + ((i, p) :: W).length := by simp only [List.length_cons]; omega
      cases hk : (A.entry i).kind with
      | leaf =>
        have hc : (t.entry (A.entry i).symbol).cvalid = false := by
          cases hc : (t.entry (A.entry i).symbol).cvalid with
          | false => rfl
          | true =>
            obtain ⟨⟨j, q⟩, hx, hxk, hxs⟩ := h.codes _ hc
            refine absurd (Malformed.duplicate p q i j ?_ (h.waiting _ (List.mem_cons_self ..)) (h.visited _ hx)
              hk hxk hxs.symm) hm
            rintro rfl
            exact hi (List.mem_map.mpr ⟨_, hx, rfl⟩)
        simp only [hc]
        exact ih (h.leaf hm hk _) hl
      | internal => exact ih (h.internal hm hk) hl

/-- GENCODE answers on every tree without the defects of R153. -/
theorem generateTable_complete {A : Arena} {root : NodeIdx} (hm : ¬ Malformed A true root) :
    ∃ T, generateTable A true root = .ok T := by
  have ha : A.absent root = false := by
    cases ha : A.absent root with
    | false => rfl
    | true => exact absurd (Malformed.noRoot (.inr ha)) hm
  unfold generateTable
  rw [if_neg (by simp [ha])]
  cases hk : (A.entry root).kind with
  | leaf => exact ⟨_, rfl⟩
  | internal =>
    refine walk_complete hm (W := []) (stack := [(root, [])]) ?_ (by simp)
    constructor <;> simp [follow_nil ha]

/-- GENCODE fails with INVALID_TREE and information 0, or answers (R152). -/
theorem walk_error {A : Arena} {fuel : Nat} {seen : List NodeIdx} {stack : List (NodeIdx × List Bit)} {t : CodeTable}
    {e : Raise} (h : walk A fuel seen stack t = .error e) : e = Raise.of .invalidTree 0 := by
  induction fuel generalizing seen stack t with
  | zero =>
    cases stack with
    | nil => cases h
    | cons x xs => exact (Except.error.inj h).symm
  | succ fuel ih =>
    cases stack with
    | nil => cases h
    | cons x xs =>
      rw [walk] at h
      split at h
      · exact (Except.error.inj h).symm
      split at h
      · split at h
        · exact (Except.error.inj h).symm
        · exact ih h
      · exact ih h

theorem generateTable_error {A : Arena} {rv : Bool} {root : NodeIdx} {e : Raise}
    (h : generateTable A rv root = .error e) : e = Raise.of .invalidTree 0 := by
  unfold generateTable at h
  split at h
  · exact (Except.error.inj h).symm
  split at h
  · cases h
  · exact walk_error h

/-- GENCODE's two cases, by R153: a table on a tree without defects, INVALID_TREE on any other. -/
theorem generateTable_cases (A : Arena) (rv : Bool) (root : NodeIdx) :
    (¬ Malformed A rv root ∧ ∃ T, generateTable A rv root = .ok T ∧ TableOf A root T)
    ∨ (Malformed A rv root ∧ generateTable A rv root = .error (Raise.of .invalidTree 0)) := by
  cases h : generateTable A rv root with
  | ok T =>
    obtain ⟨rfl, -, hT⟩ := generateTable_ok h
    exact .inl ⟨hT.sound, T, rfl, hT⟩
  | error e =>
    refine .inr ⟨?_, by rw [generateTable_error h]⟩
    by_contra hm
    cases rv with
    | false => exact hm (.noRoot (.inl rfl))
    | true =>
      obtain ⟨T, hT⟩ := generateTable_complete hm
      rw [h] at hT
      cases hT

end Sys2Proof.Machine
end

