-- ==== Sys2Proof/Laws/Coder.lean ====
section
/-! SUPPORT. What ENCODE and DECODE answer, and that they undo each other (43_encoder.md R171, R174;
44_decoder.md R191 to R196; 42_code_generator.md R156). -/

namespace Sys2Proof.Machine

/-! ### The bits of a stored code -/

theorem pathValue_append (p : List Bit) (b : Bit) : pathValue (p ++ [b]) = 2 * pathValue p + b.toNat := by
  simp [pathValue]

/-- The bits of a path's value, most significant first (R151). -/
theorem testBit_pathValue (p : List Bit) (k : Nat) :
    (pathValue p).testBit k = (p.reverse[k]?).getD false := by
  induction p using List.reverseRecOn generalizing k with
  | nil => simp [pathValue]
  | append_singleton p b ih =>
    rw [pathValue_append]
    cases k with
    | zero => cases b <;> simp [Nat.testBit_zero, Nat.add_mod]
    | succ k =>
      rw [Nat.testBit_succ, show (2 * pathValue p + b.toNat) / 2 = pathValue p by cases b <;> simp <;> omega, ih]
      simp

/-- The bits ENCODE emits for the code of a path are the path (R30, R151, R171). -/
theorem bits_ofPath {p : List Bit} (h : p.length ≤ Config.MAX_LEN) : (CodeEntry.ofPath p).bits = p := by
  have h : p.length ≤ 255 := h
  have hl : (CodeEntry.ofPath p).clen.toNat = p.length := by
    simp only [CodeEntry.ofPath, BitVec.toNat_ofNat]
    omega
  apply List.ext_getElem
  · simp [CodeEntry.bits, hl]
  · intro j h1 h2
    have hj : p.length - 1 - j < 255 := by omega
    have hr : p.length - 1 - j < p.reverse.length := by rw [List.length_reverse]; omega
    simp only [CodeEntry.bits, List.getElem_map, List.getElem_range, hl]
    simp only [CodeEntry.ofPath, BitVec.getLsbD_ofNat, hj, decide_true, Bool.true_and, testBit_pathValue]
    rw [List.getElem?_eq_getElem hr, Option.getD_some, List.getElem_reverse]
    congr 1
    omega

/-! ### ENCODE -/

/-- ENCODE of a stream whose symbols all have codes (R171, R175). -/
theorem encodeFrom_known {t : CodeTable} {cs : List Symbol} (k : Nat) (hv : ∀ c ∈ cs, (t.entry c).cvalid = true)
    (hk : k + cs.length ≤ Config.STREAM_MAX) :
    encodeFrom t k cs = .ok (cs.flatMap (fun c => (t.entry c).bits)) := by
  induction cs generalizing k with
  | nil => rfl
  | cons c cs ih =>
    simp only [List.length_cons] at hk
    rw [encodeFrom, if_neg (by omega), if_neg (by simp [hv c (List.mem_cons_self ..)]),
      ih (k + 1) (fun d hd => hv d (List.mem_cons_of_mem _ hd)) (by omega)]
    rfl

/-- ENCODE stops at the first symbol without a code, if it comes before the length limit (R171, R234). -/
theorem encodeFrom_unknown {t : CodeTable} {pre post : List Symbol} {c : Symbol} (k : Nat)
    (hv : ∀ d ∈ pre, (t.entry d).cvalid = true) (hc : (t.entry c).cvalid = false)
    (hk : k + pre.length < Config.STREAM_MAX) :
    encodeFrom t k (pre ++ c :: post) = .error (Raise.of .unknownSymbol (k + pre.length)) := by
  induction pre generalizing k with
  | nil =>
    simp only [List.length_nil, Nat.add_zero] at hk ⊢
    rw [List.nil_append, encodeFrom, if_neg (by omega), if_pos (by simp [hc])]
  | cons d pre ih =>
    simp only [List.length_cons] at hk ⊢
    rw [List.cons_append, encodeFrom, if_neg (by omega), if_neg (by simp [hv d (List.mem_cons_self ..)]),
      ih (k + 1) (fun d hd => hv d (List.mem_cons_of_mem _ hd)) (by omega), show k + 1 + pre.length = k + (pre.length + 1) by omega]

/-- ENCODE of more than the limit, with no unknown symbol before it (R171). -/
theorem encodeFrom_overflow {t : CodeTable} {pre post : List Symbol} (k : Nat)
    (hv : ∀ d ∈ pre, (t.entry d).cvalid = true) (hk : k + pre.length = Config.STREAM_MAX) (hp : post ≠ []) :
    encodeFrom t k (pre ++ post) = .error (Raise.of .overflow Config.STREAM_MAX) := by
  induction pre generalizing k with
  | nil =>
    cases post with
    | nil => exact absurd rfl hp
    | cons c cs => rw [List.nil_append, encodeFrom, if_pos (by simpa using hk)]
  | cons d pre ih =>
    simp only [List.length_cons] at hk
    rw [List.cons_append, encodeFrom, if_neg (by omega), if_neg (by simp [hv d (List.mem_cons_self ..)]),
      ih (k + 1) (fun d hd => hv d (List.mem_cons_of_mem _ hd)) (by omega)]

/-! ### DECODE -/

/-- The output of a decoding with one more symbol in front. -/
theorem map_cons_ok {c : Symbol} {r : Except Raise (List Symbol)} :
    (match r with
      | .error e => .error e
      | .ok out => .ok (c :: out)) = r.map (c :: ·) := by
  cases r <;> rfl

/-- From an Internal root, the bits of a path to a Leaf give its symbol and state ROOT (R191). -/
theorem decodeFrom_path {A : Arena} {root i n : NodeIdx} {p : List Bit} (hr : (A.entry root).kind = .internal)
    (k : Nat) (cur : Option NodeIdx) (rest : List Bit) (hn : cur.getD root = n) (hp : A.follow n p = some i)
    (hne : p ≠ []) (hi : (A.entry i).kind = .leaf) (hk : k + p.length ≤ Config.STREAM_MAX) :
    decodeFrom A root k cur (p ++ rest)
      = (decodeFrom A root (k + p.length) none rest).map ((A.entry i).symbol :: ·) := by
  induction p generalizing k cur n with
  | nil => exact absurd rfl hne
  | cons b p ih =>
    obtain ⟨-, -, hf⟩ := follow_cons_some hp
    simp only [List.length_cons] at hk ⊢
    rw [List.cons_append, decodeFrom, if_neg (by omega), hr]
    simp only [hn, (follow_present hf).1]
    cases p with
    | nil =>
      obtain ⟨-, rfl⟩ := follow_nil_some hf
      simp only [hi]
      exact map_cons_ok
    | cons d p =>
      simp only [(follow_cons_some hf).2.1]
      rw [show k + ((d :: p).length + 1) = k + 1 + (d :: p).length by omega]
      exact ih (k + 1) (some _) rfl hf (by simp) (by omega)

/-- From an Internal root, a stream that ends on the way is truncated (R193). -/
theorem decodeFrom_truncated {A : Arena} {root i n : NodeIdx} {p : List Bit} (hr : (A.entry root).kind = .internal)
    (k : Nat) (cur : Option NodeIdx) (hn : cur.getD root = n) (hp : A.follow n p = some i)
    (hne : p ≠ []) (hi : (A.entry i).kind = .internal) (hk : k + p.length ≤ Config.STREAM_MAX) :
    decodeFrom A root k cur p = .error (Raise.of .truncatedStream (k + p.length)) := by
  induction p generalizing k cur n with
  | nil => exact absurd rfl hne
  | cons b p ih =>
    obtain ⟨-, -, hf⟩ := follow_cons_some hp
    simp only [List.length_cons] at hk ⊢
    rw [decodeFrom, if_neg (by omega), hr]
    simp only [hn, (follow_present hf).1]
    cases p with
    | nil =>
      obtain ⟨-, rfl⟩ := follow_nil_some hf
      simp only [hi]
      rfl
    | cons d p =>
      simp only [(follow_cons_some hf).2.1]
      rw [show k + ((d :: p).length + 1) = k + 1 + (d :: p).length by omega]
      exact ih (k + 1) (some _) rfl hf (by simp) (by omega)

/-- From an Internal root, a step to a null child fails at its bit (R191, R194). -/
theorem decodeFrom_nullChild {A : Arena} {root i n : NodeIdx} {p : List Bit} (hr : (A.entry root).kind = .internal)
    (k : Nat) (cur : Option NodeIdx) (b : Bit) (rest : List Bit) (hn : cur.getD root = n) (hp : A.follow n p = some i)
    (hi : (A.entry i).kind = .internal) (hc : A.absent ((A.entry i).child b) = true)
    (hk : k + p.length < Config.STREAM_MAX) :
    decodeFrom A root k cur (p ++ b :: rest) = .error (Raise.of .invalidTree (k + p.length)) := by
  induction p generalizing k cur n with
  | nil =>
    obtain ⟨-, rfl⟩ := follow_nil_some hp
    simp only [List.length_nil, Nat.add_zero] at hk ⊢
    rw [List.nil_append, decodeFrom, if_neg (by omega), hr]
    simp [hn, hc]
  | cons d p ih =>
    obtain ⟨-, -, hf⟩ := follow_cons_some hp
    simp only [List.length_cons] at hk ⊢
    rw [List.cons_append, decodeFrom, if_neg (by omega), hr]
    simp only [hn, (follow_present hf).1]
    have hkind : (A.entry ((A.entry n).child d)).kind = .internal := by
      cases p with
      | nil =>
        obtain ⟨-, rfl⟩ := follow_nil_some hf
        exact hi
      | cons e p => exact (follow_cons_some hf).2.1
    simp only [hkind]
    rw [show k + (p.length + 1) = k + 1 + p.length by omega]
    exact ih (k + 1) (some _) rfl hf (by omega)

/-- The bits of a symbol's code give that symbol and state ROOT (R191, R192). -/
theorem decodeFrom_code {A : Arena} {root : NodeIdx} {c : Symbol} {p : List Bit} (hc : HasCode A root c p)
    (k : Nat) (rest : List Bit) (hk : k + p.length ≤ Config.STREAM_MAX) :
    decodeFrom A root k none (p ++ rest) = (decodeFrom A root (k + p.length) none rest).map (c :: ·) := by
  obtain ⟨q, i, hq, hi, rfl, rfl⟩ := hc
  by_cases hne : q = []
  · subst hne
    obtain ⟨-, rfl⟩ := follow_nil_some hq
    simp only [if_true, List.length_singleton] at hk ⊢
    rw [List.singleton_append, decodeFrom, if_neg (by omega), hi]
    exact map_cons_ok
  · rw [if_neg hne] at hk ⊢
    have hr : (A.entry root).kind = .internal := by
      cases q with
      | nil => exact absurd rfl hne
      | cons b q => exact (follow_cons_some hq).2.1
    exact decodeFrom_path hr k none rest rfl hq hne hi hk

/-- The concatenated codes of a stream decode to it (R173, R174). -/
theorem decodeFrom_codes {A : Arena} {root : NodeIdx} {code : Symbol → List Bit} {cs : List Symbol} (k : Nat)
    (hc : ∀ c ∈ cs, HasCode A root c (code c)) (hk : k + (cs.flatMap code).length ≤ Config.STREAM_MAX) :
    decodeFrom A root k none (cs.flatMap code) = .ok cs := by
  induction cs generalizing k with
  | nil => rfl
  | cons c cs ih =>
    rw [List.flatMap_cons, List.length_append] at hk
    rw [List.flatMap_cons, decodeFrom_code (hc c (List.mem_cons_self ..)) k _ (by omega),
      ih (k + (code c).length) (fun d hd => hc d (List.mem_cons_of_mem _ hd)) (by omega)]
    rfl

/-- A decoding that answers goes on from state ROOT with what follows (R196). -/
theorem decodeFrom_append {A : Arena} {root : NodeIdx} {k : Nat} {cur : Option NodeIdx} {xs ys : List Bit}
    {out : List Symbol} (h : decodeFrom A root k cur xs = .ok out) :
    decodeFrom A root k cur (xs ++ ys) = (decodeFrom A root (k + xs.length) none ys).map (out ++ ·) := by
  induction xs generalizing k cur out with
  | nil =>
    cases cur with
    | some n => cases h
    | none =>
      cases h
      rw [List.nil_append, List.length_nil, Nat.add_zero]
      cases decodeFrom A root k none ys <;> rfl
  | cons b xs ih =>
    rw [show k + (b :: xs).length = k + 1 + xs.length by simp only [List.length_cons]; omega]
    rw [decodeFrom] at h
    rw [List.cons_append, decodeFrom]
    split at h
    · cases h
    next hk =>
    rw [if_neg hk]
    split at h
    · next hr =>
      split at h
      · cases h
      next hb =>
      rw [if_neg hb]
      split at h
      · cases h
      next o ho =>
      cases h
      rw [ih ho]
      cases decodeFrom A root (k + 1 + xs.length) none ys <;> rfl
    · next hr =>
      simp only at h ⊢
      split at h
      · cases h
      next ha =>
      rw [if_neg ha]
      split at h
      · next hl =>
        split at h
        · cases h
        next o ho =>
        cases h
        rw [ih ho]
        cases decodeFrom A root (k + 1 + xs.length) none ys <;> rfl
      · next hl => exact ih h

/-- Where in the stream a decoding that answers starts does not matter, within the limit. -/
theorem decodeFrom_shift {A : Arena} {root : NodeIdx} {k : Nat} {cur : Option NodeIdx} {xs : List Bit}
    {out : List Symbol} (h : decodeFrom A root k cur xs = .ok out) (m : Nat)
    (hm : m + xs.length ≤ Config.STREAM_MAX) : decodeFrom A root m cur xs = .ok out := by
  induction xs generalizing k m cur out with
  | nil =>
    cases cur with
    | some n => cases h
    | none => cases h; rfl
  | cons b xs ih =>
    simp only [List.length_cons] at hm
    rw [decodeFrom] at h ⊢
    rw [if_neg (by omega)]
    split at h
    · cases h
    split at h
    · next hr =>
      split at h
      · cases h
      next hb =>
      rw [if_neg hb]
      split at h
      · cases h
      next o ho =>
      cases h
      rw [ih ho (m + 1) (by omega)]
    · next hr =>
      simp only at h ⊢
      split at h
      · cases h
      next ha =>
      rw [if_neg ha]
      split at h
      · next hl =>
        split at h
        · cases h
        next o ho =>
        cases h
        rw [ih ho (m + 1) (by omega)]
      · next hl => exact ih h (m + 1) (by omega)

/-- One turn of DECODE's loop: the bit's step fails, whatever follows it, or the loop goes on in a state and with an
output that do not depend on where in the stream the bit stands (R191). -/
theorem decodeFrom_step (A : Arena) (root : NodeIdx) (cur : Option NodeIdx)
    (b : Bit) :
    (∀ k xs, k ≠ Config.STREAM_MAX → decodeFrom A root k cur (b :: xs) = .error (Raise.of .invalidTree k))
    ∨ ∃ cur' f, ∀ k xs, k ≠ Config.STREAM_MAX → decodeFrom A root k cur (b :: xs) = (decodeFrom A root (k+1) cur' xs).map f := by
  cases hr : (A.entry root).kind with
  | leaf =>
    cases b with
    | true => exact .inl fun k xs hk => by rw [decodeFrom, if_neg hk, hr]; rfl
    | false => exact .inr ⟨cur, ((A.entry root).symbol :: ·), fun k xs hk => by rw [decodeFrom, if_neg hk, hr]; exact map_cons_ok⟩
  | internal =>
    cases ha : A.absent ((A.entry (cur.getD root)).child b) with
    | true => exact .inl fun k xs hk => by rw [decodeFrom, if_neg hk, hr]; simp [ha]
    | false =>
      cases hl : (A.entry ((A.entry (cur.getD root)).child b)).kind with
      | leaf => exact .inr ⟨none, ((A.entry ((A.entry (cur.getD root)).child b)).symbol :: ·), fun k xs hk => by rw [decodeFrom, if_neg hk, hr]; simp only [ha, hl]; exact map_cons_ok⟩
      | internal =>
        refine .inr ⟨some ((A.entry (cur.getD root)).child b), id, fun k xs hk => ?_⟩
        rw [decodeFrom, if_neg hk, hr]; simp only [ha, hl]
        cases decodeFrom A root (k + 1) (some ((A.entry (cur.getD root)).child b)) xs <;> rfl

/-- A decoding that fails before the end of its stream fails so whatever follows (R194). -/
theorem decodeFrom_error_append {A : Arena} {root : NodeIdx} {k : Nat} {cur : Option NodeIdx} {xs ys : List Bit} {e : Raise}
    (h : decodeFrom A root k cur xs = .error e) (hc : e.cause ≠ .truncatedStream) :
    decodeFrom A root k cur (xs ++ ys) = .error e := by
  induction xs generalizing k cur with
  | nil =>
    cases cur with
    | none => cases h
    | some n => cases h; exact absurd rfl hc
  | cons b xs ih =>
    by_cases hne : k = Config.STREAM_MAX
    · rw [decodeFrom, if_pos hne] at h; rw [List.cons_append, decodeFrom, if_pos hne, h]
    obtain h' | ⟨cur', f, h'⟩ := decodeFrom_step A root cur b
    · rw [List.cons_append, h' _ _ hne, ← h, h' _ _ hne]
    · rw [h' _ _ hne] at h
      rw [List.cons_append, h' _ _ hne, ih]
      · rfl
      · revert h; cases decodeFrom A root (k+1) cur' xs <;> intro h <;> cases h; rfl

/-- Where in the stream a decoding that fails starts does not matter to the cause, within the limit. -/
theorem decodeFrom_error_shift {A : Arena} {root : NodeIdx} {k m : Nat} {cur : Option NodeIdx} {xs : List Bit} {e : Raise}
    (h : decodeFrom A root k cur xs = .error e) (hk : k + xs.length ≤ Config.STREAM_MAX) (hm : m + xs.length ≤ Config.STREAM_MAX) :
    ∃ e', decodeFrom A root m cur xs = .error e' ∧ e'.cause = e.cause := by
  induction xs generalizing k m cur with
  | nil =>
    cases cur with
    | none => cases h
    | some n => cases h; exact ⟨_, rfl, rfl⟩
  | cons b xs ih =>
    simp only [List.length_cons] at hk hm
    obtain h' | ⟨cur', f, h'⟩ := decodeFrom_step A root cur b
    · rw [h' _ _ (by omega)] at h ⊢; cases h; exact ⟨_, rfl, rfl⟩
    · rw [h' _ _ (by omega)] at h ⊢
      obtain ⟨e', h1, h2⟩ := ih (k := k+1) (m := m+1) (cur := cur') (by revert h; cases decodeFrom A root (k+1) cur' xs <;> intro h <;> cases h; rfl) (by omega) (by omega)
      exact ⟨e', by rw [h1]; rfl, h2⟩

/-- A sequence of codes decodes to their symbols and leaves state ROOT (R191, R193). -/
theorem decodeFrom_pairs {A : Arena} {root : NodeIdx} {xs : List (Symbol × List Bit)} (k : Nat) (rest : List Bit)
    (hc : ∀ x ∈ xs, HasCode A root x.1 x.2) (hk : k + (xs.flatMap Prod.snd).length ≤ Config.STREAM_MAX) :
    decodeFrom A root k none (xs.flatMap Prod.snd ++ rest) = (decodeFrom A root (k + (xs.flatMap Prod.snd).length) none rest).map (xs.map Prod.fst ++ ·) := by
  induction xs generalizing k with
  | nil => simp; cases decodeFrom A root k none rest <;> rfl
  | cons x xs ih =>
    rw [List.flatMap_cons, List.length_append] at hk
    rw [List.flatMap_cons, List.append_assoc, decodeFrom_code (hc x (List.mem_cons_self ..)) k _ (by omega),
      ih _ (fun y hy => hc y (List.mem_cons_of_mem _ hy)) (by omega), List.length_append, Nat.add_assoc]
    cases decodeFrom A root (k + (x.2.length + (xs.flatMap Prod.snd).length)) none rest <;> rfl

/-- How DECODE can fail: at the end of the stream, at the first bit whose step fails, or at the length limit
(R191, R231). -/
theorem decodeFrom_error {A : Arena} {root : NodeIdx} {k : Nat} {cur : Option NodeIdx} {bs : List Bit} {e : Raise}
    (hk : k ≤ Config.STREAM_MAX) (h : decodeFrom A root k cur bs = .error e) :
    (e = Raise.of .truncatedStream (k + bs.length) ∧ k + bs.length ≤ Config.STREAM_MAX)
    ∨ (∃ pre b post, bs = pre ++ b :: post ∧ k + pre.length < Config.STREAM_MAX
        ∧ e = Raise.of .invalidTree (k + pre.length)
        ∧ decodeFrom A root k cur (pre ++ [b]) = .error e
        ∧ ((∃ out, decodeFrom A root k cur pre = .ok out)
            ∨ decodeFrom A root k cur pre = .error (Raise.of .truncatedStream (k + pre.length))))
    ∨ (e = Raise.of .overflow Config.STREAM_MAX ∧ Config.STREAM_MAX < k + bs.length) := by
  induction bs generalizing k cur with
  | nil =>
    cases cur with
    | none => cases h
    | some n => cases h; exact .inl ⟨rfl, by simpa using hk⟩
  | cons b bs ih =>
    have hnil : (∃ out, decodeFrom A root k cur [] = .ok out)
        ∨ decodeFrom A root k cur [] = .error (Raise.of .truncatedStream (k + ([] : List Bit).length)) := by
      cases cur with
      | none => exact .inl ⟨_, rfl⟩
      | some n => exact .inr rfl
    rw [decodeFrom] at h
    split at h
    · cases h; exact .inr (.inr ⟨rfl, by simp only [List.length_cons]; omega⟩)
    next hne =>
    have hlt : k + 1 ≤ Config.STREAM_MAX := by omega
    have lift : ∀ (cur' : Option NodeIdx) (f : List Symbol → List Symbol),
        (∀ xs, decodeFrom A root k cur (b :: xs) = (decodeFrom A root (k + 1) cur' xs).map f) →
        decodeFrom A root (k+1) cur' bs = .error e → 
        (e = Raise.of .truncatedStream (k + (b :: bs).length) ∧ k + (b :: bs).length ≤ Config.STREAM_MAX)
    ∨ (∃ pre b' post, b :: bs = pre ++ b' :: post ∧ k + pre.length < Config.STREAM_MAX
        ∧ e = Raise.of .invalidTree (k + pre.length)
        ∧ decodeFrom A root k cur (pre ++ [b']) = .error e
        ∧ ((∃ out, decodeFrom A root k cur pre = .ok out)
            ∨ decodeFrom A root k cur pre = .error (Raise.of .truncatedStream (k + pre.length))))
    ∨ (e = Raise.of .overflow Config.STREAM_MAX ∧ Config.STREAM_MAX < k + (b :: bs).length) := by
      intro cur' f hf he
      have hl : k + (b :: bs).length = k + 1 + bs.length := by simp only [List.length_cons]; omega
      rw [hl]
      obtain h | ⟨pre, b', post, rfl, h1, h2, h3, h4⟩ | h := ih hlt he
      · exact .inl h
      · have hp : k + (b :: pre).length = k + 1 + pre.length := by simp only [List.length_cons]; omega
        refine .inr (.inl ⟨b :: pre, b', post, rfl, by omega, by rw [hp]; exact h2, ?_, ?_⟩)
        · rw [List.cons_append, hf, h3]; rfl
        · rw [hf, hp]
          obtain ⟨o, ho⟩ | ho := h4
          · exact .inl ⟨f o, by rw [ho]; rfl⟩
          · exact .inr (by rw [ho]; rfl)
      · exact .inr (.inr h)
    split at h
    · next hr =>
      split at h
      · next hb =>
        cases h
        refine .inr (.inl ⟨[], b, bs, rfl, by simp only [List.length_nil]; omega, rfl, ?_, hnil⟩)
        rw [List.nil_append, decodeFrom, if_neg hne, hr]; simp [hb]
      next hb =>
      refine lift cur ((A.entry root).symbol :: ·) (fun xs => ?_) ?_
      · rw [decodeFrom, if_neg hne, hr]
        simp only [if_neg hb]
        exact map_cons_ok
      · revert h
        cases decodeFrom A root (k+1) cur bs <;> intro h <;> cases h; rfl
    · next hr =>
      simp only at h
      split at h
      · next ha =>
        cases h
        refine .inr (.inl ⟨[], b, bs, rfl, by simp only [List.length_nil]; omega, rfl, ?_, hnil⟩)
        rw [List.nil_append, decodeFrom, if_neg hne, hr]; simp only; rw [if_pos ha]
      next ha =>
      split at h
      · next hl =>
        refine lift none ((A.entry ((A.entry (cur.getD root)).child b)).symbol :: ·) (fun xs => ?_) ?_
        · rw [decodeFrom, if_neg hne, hr]
          simp only
          rw [if_neg ha, hl]
          exact map_cons_ok
        · revert h
          cases decodeFrom A root (k+1) none bs <;> intro h <;> cases h; rfl
      · next hl =>
        refine lift (some ((A.entry (cur.getD root)).child b)) id (fun xs => ?_) h
        rw [decodeFrom, if_neg hne, hr]
        simp only
        rw [if_neg ha, hl]
        cases decodeFrom A root (k+1) (some ((A.entry (cur.getD root)).child b)) xs <;> rfl

/-- How ENCODE can fail: at the first symbol without a code, or at the length limit (R171, R231). -/
theorem encodeFrom_error {t : CodeTable} {cs : List Symbol} {k : Nat} {e : Raise} (hk : k ≤ Config.STREAM_MAX)
    (h : encodeFrom t k cs = .error e) :
    (∃ pre c post, cs = pre ++ c :: post ∧ (∀ d ∈ pre, (t.entry d).cvalid = true) ∧ (t.entry c).cvalid = false
        ∧ k + pre.length < Config.STREAM_MAX ∧ e = Raise.of .unknownSymbol (k + pre.length))
    ∨ (e = Raise.of .overflow Config.STREAM_MAX ∧ Config.STREAM_MAX < k + cs.length) := by
  induction cs generalizing k with
  | nil => cases h
  | cons c cs ih =>
    rw [encodeFrom] at h
    split at h
    · cases h; exact .inr ⟨rfl, by simp only [List.length_cons]; omega⟩
    split at h
    · next hc => cases h; exact .inl ⟨[], c, cs, rfl, by simp, by simpa using hc, by simp only [List.length_nil]; omega, rfl⟩
    next hne hc =>
    have he : encodeFrom t (k + 1) cs = .error e := by
      revert h; cases encodeFrom t (k + 1) cs <;> intro h <;> cases h; rfl
    obtain ⟨pre, d, post, rfl, h1, h2, h3, h4⟩ | ⟨h1, h2⟩ := ih (by omega) he
    · refine .inl ⟨c :: pre, d, post, rfl, ?_, h2, by simp only [List.length_cons]; omega, by rw [h4]; congr 1; simp only [List.length_cons]; omega⟩
      intro x hx
      rcases List.mem_cons.mp hx with rfl | hx
      · simpa using hc
      · exact h1 x hx
    · exact .inr ⟨h1, by simp only [List.length_cons]; omega⟩

/-! ### Codes and tables -/

/-- A symbol with an entry in the table of a tree has a code, the one ENCODE emits. -/
theorem TableOf.code {A : Arena} {root : NodeIdx} {T : CodeTable} (h : TableOf A root T) {c : Symbol}
    (hc : (T.entry c).cvalid = true) : HasCode A root c (T.entry c).bits ∧ (T.entry c).bits.length ≤ Config.MAX_LEN := by
  by_cases hp : ∃ p, HasCode A root c p
  · obtain ⟨p, hp⟩ := hp
    obtain ⟨he, -, hl⟩ := h.coded c p hp
    rw [he, bits_ofPath hl]
    exact ⟨hp, hl⟩
  · rw [h.uncoded c (fun p hh => hp ⟨p, hh⟩)] at hc
    cases hc

theorem TableOf.cvalid_iff {A : Arena} {root : NodeIdx} {T : CodeTable} (h : TableOf A root T) (c : Symbol) :
    (T.entry c).cvalid = true ↔ ∃ p, HasCode A root c p := by
  constructor
  · exact fun hc => ⟨_, (h.code hc).1⟩
  · rintro ⟨p, hp⟩
    rw [(h.coded c p hp).1]
    rfl

/-- The bits ENCODE emits are as many as CLEN says. -/
theorem bits_length (e : CodeEntry) : e.bits.length = e.clen.toNat := by simp [CodeEntry.bits]

/-- ENCODE with the table of a tree, then DECODE with that tree (R174). -/
theorem decodeStream_encoded {A : Arena} {root : NodeIdx} {T : CodeTable} (h : TableOf A root T)
    (ha : A.absent root = false) {cs : List Symbol} (hv : ∀ c ∈ cs, (T.entry c).cvalid = true)
    (hl : (cs.flatMap (fun c => (T.entry c).bits)).length ≤ Config.STREAM_MAX) :
    decodeStream A true root (cs.flatMap (fun c => (T.entry c).bits)) = .ok cs := by
  unfold decodeStream
  rw [if_neg (by simp [ha])]
  exact decodeFrom_codes 0 (fun c hc => (h.code (hv c hc)).1) (by simpa using hl)

/-- No code of a tree is the beginning of another symbol's code (R156). -/
theorem hasCode_prefix_free {A : Arena} {root : NodeIdx} {c d : Symbol} {p q : List Bit}
    (hp : HasCode A root c p) (hq : HasCode A root d q) (h : p <+: q) : c = d ∧ p = q := by
  obtain ⟨p', i, hp', hi, rfl, rfl⟩ := hp
  obtain ⟨q', j, hq', hj, rfl, rfl⟩ := hq
  by_cases h1 : p' = []
  · subst h1
    obtain ⟨-, rfl⟩ := follow_nil_some hp'
    obtain ⟨rfl, rfl⟩ := follow_leaf hi hq'
    exact ⟨rfl, rfl⟩
  by_cases h2 : q' = []
  · subst h2
    obtain ⟨-, rfl⟩ := follow_nil_some hq'
    obtain ⟨rfl, -⟩ := follow_leaf hj hp'
    exact absurd rfl h1
  rw [if_neg h1, if_neg h2] at h ⊢
  obtain ⟨r, rfl⟩ := h
  obtain rfl := follow_leaf_not_proper hp' hi hq'
  rw [List.append_nil] at hq' ⊢
  rw [hp'] at hq'
  cases hq'
  exact ⟨rfl, rfl⟩

/-- Every bit string goes along some code of a tree with an Internal root, or has a code as its beginning: the code
set is complete (R156). -/
theorem hasCode_complete {A : Arena} {root : NodeIdx} (hm : ¬ Malformed A true root)
    (hr : (A.entry root).kind = .internal) (s : List Bit) :
    ∃ c p, HasCode A root c p ∧ (p <+: s ∨ s <+: p) := by
  by_contra hno
  have ha : A.absent root = false := by
    cases ha : A.absent root with
    | false => rfl
    | true => exact absurd (Malformed.noRoot (.inr ha)) hm
  have hleaf : ∀ p i, A.follow root p = some i → (p <+: s ∨ s <+: p) → (A.entry i).kind = .internal := by
    intro p i hp hps
    cases hk : (A.entry i).kind with
    | internal => rfl
    | leaf =>
      refine absurd ⟨_, p, ⟨p, i, hp, hk, rfl, ?_⟩, hps⟩ hno
      rw [if_neg]
      rintro rfl
      obtain ⟨-, rfl⟩ := follow_nil_some hp
      rw [hr] at hk
      cases hk
  have hstep : ∀ p i b, A.follow root p = some i → (p <+: s ∨ s <+: p) →
      A.follow root (p ++ [b]) = some ((A.entry i).child b) := by
    intro p i b hp hps
    refine follow_snoc b hp (hleaf p i hp hps) ?_
    cases hc : A.absent ((A.entry i).child b) with
    | false => rfl
    | true => exact absurd (Malformed.nullChild p i b hp (hleaf p i hp hps) hc) hm
  have hpre : ∀ n, n ≤ s.length → ∃ i, A.follow root (s.take n) = some i := by
    intro n
    induction n with
    | zero => exact fun _ => ⟨root, by simpa using follow_nil ha⟩
    | succ n ih =>
      intro hn
      obtain ⟨i, hi⟩ := ih (by omega)
      exact ⟨_, by
        rw [List.take_succ_eq_append_getElem (by omega)]
        exact hstep _ i _ hi (.inl (List.take_prefix n s))⟩
  have hext : ∀ n, ∃ i, A.follow root (s ++ List.replicate n false) = some i := by
    intro n
    induction n with
    | zero => simpa using hpre s.length (Nat.le_refl _)
    | succ n ih =>
      obtain ⟨i, hi⟩ := ih
      exact ⟨_, by
        rw [List.replicate_succ', ← List.append_assoc]
        exact hstep _ i _ hi (.inr (List.prefix_append ..))⟩
  choose f hf using hext
  have hinj : Function.Injective f := by
    intro m n hmn
    by_contra hne
    refine hm (.shared _ _ (f m) ?_ (hf m) (hmn ▸ hf n))
    intro he
    have := congrArg List.length he
    simp only [List.length_append, List.length_replicate] at this
    omega
  have hl := nodup_length_le (l := (List.range (Config.NNODE + 1)).map f) (List.nodup_range.map hinj) (by
    intro i hi
    obtain ⟨n, -, rfl⟩ := List.mem_map.mp hi
    exact A.nodeIndexOk_of_present _ (follow_present (hf n)).2)
  rw [List.length_map, List.length_range] at hl
  omega

theorem pathValue_lt (p : List Bit) : pathValue p < 2 ^ p.length := by
  induction p using List.reverseRecOn with
  | nil => simp [pathValue]
  | append_singleton p b ih =>
    rw [pathValue_append, List.length_append, List.length_singleton, Nat.pow_succ]
    cases b <;> simp <;> omega

/-- The entry of a path stores it (R30, R151). -/
theorem stores_ofPath {p : List Bit} (h : p.length ≤ Config.MAX_LEN) : (CodeEntry.ofPath p).Stores p := by
  have h : p.length ≤ 255 := h
  refine ⟨rfl, ?_, ?_, ?_⟩
  · simp only [CodeEntry.ofPath, BitVec.toNat_ofNat]; omega
  · intro k hk
    have hr : p.length - 1 - k < p.reverse.length := by rw [List.length_reverse]; omega
    simp only [CodeEntry.ofPath, BitVec.getLsbD_ofNat, show p.length - 1 - k < 255 by omega, decide_true, Bool.true_and, testBit_pathValue]
    rw [List.getElem?_eq_getElem hr, Option.getD_some, List.getElem_reverse]
    congr 1
    omega
  · simp only [CodeEntry.ofPath, BitVec.toNat_ofNat]
    exact Nat.lt_of_le_of_lt (Nat.mod_le _ _) (pathValue_lt p)

/-- An entry stores one code. -/
theorem stores_unique {e : CodeEntry} {p q : List Bit} (hp : e.Stores p) (hq : e.Stores q) : p = q := by
  obtain ⟨-, h1, h2, -⟩ := hp
  obtain ⟨-, g1, g2, -⟩ := hq
  have hl : p.length = q.length := h1.symm.trans g1
  apply List.ext_getElem hl
  intro k hk hk'
  rw [← h2 k hk, ← g2 k hk', hl]

/-- The table of a tree stores the codes of the tree (R151). -/
theorem TableOf.stores_iff {A : Arena} {root : NodeIdx} {T : CodeTable} (h : TableOf A root T) (c : Symbol) (p : List Bit) :
   (T.entry c).Stores p ↔ HasCode A root c p := by
  constructor
  · intro hs
    obtain ⟨q, hq⟩ := (h.cvalid_iff c).1 hs.1
    obtain ⟨he, -, hl⟩ := h.coded c q hq
    rw [he] at hs
    rw [stores_unique hs (stores_ofPath hl)]
    exact hq
  · intro hp
    obtain ⟨he, -, hl⟩ := h.coded c p hp
    rw [he]; exact stores_ofPath hl

end Sys2Proof.Machine
end

