-- ==== Sys2Proof/Laws/Frequency.lean ====
section
/-! SUPPORT. What COUNT's table is: the number of occurrences of each symbol (40_frequency_counter.md R101, R104). -/

namespace Sys2Proof.Machine

theorem increment_entry (f : FreqTable) (c d : Symbol) :
    (f.increment c).entry d = if d = c then f.entry d + 1#32 else f.entry d := by
  unfold FreqTable.increment
  rw [FreqTable.entry_put]
  split
  · next h => rw [h]
  · rfl

/-- COUNT's loop adds to each count the occurrences of its symbol. -/
theorem foldl_increment_entry (syms : List Symbol) (f : FreqTable) (d : Symbol) :
    (syms.foldl FreqTable.increment f).entry d = f.entry d + BitVec.ofNat 32 (syms.count d) := by
  induction syms generalizing f with
  | nil => simp
  | cons c cs ih =>
    rw [List.foldl_cons, ih, increment_entry, List.count_cons]
    by_cases h : d = c
    · subst h
      rw [if_pos rfl, if_pos (beq_self_eq_true _), BitVec.ofNat_add]
      ac_rfl
    · simp [h, Ne.symm h]

theorem countTable_entry (syms : List Symbol) (d : Symbol) :
    (countTable syms).entry d = BitVec.ofNat 32 (syms.count d) := by
  rw [countTable, foldl_increment_entry]
  simp

/-- A count of a stream COUNT accepts fits its 32 bits (R101). -/
theorem countTable_toNat {syms : List Symbol} (h : syms.length ≤ Config.SYM_STREAM_MAX) (d : Symbol) :
    ((countTable syms).entry d).toNat = syms.count d := by
  have h1 : syms.count d ≤ syms.length := List.count_le_length
  rw [countTable_entry, BitVec.toNat_ofNat]
  apply Nat.mod_eq_of_lt
  simp only [Config.SYM_STREAM_MAX] at h
  omega

theorem countTable_nil : countTable [] = FreqTable.zero := rfl

theorem sum_map_range (g : Nat → Nat) (n : Nat) : ((List.range n).map g).sum = ∑ i ∈ Finset.range n, g i := by
  induction n with
  | zero => rfl
  | succ n ih => simp [List.range_succ, Finset.sum_range_succ, ih]

/-- The sum of all counts, by symbol value. -/
theorem total_eq_sum (f : FreqTable) :
    f.total = ∑ i ∈ Finset.range 256, (f.entry (BitVec.ofNat 8 i)).toNat := by
  have hl : f.toList.map BitVec.toNat = (List.range 256).map (fun i => (f.entry (BitVec.ofNat 8 i)).toNat) := by
    apply List.ext_getElem
    · simp
    · intro i h1 h2
      have hi : i < 256 := by simpa using h2
      simp [FreqTable.entry, Nat.mod_eq_of_lt hi]
  rw [FreqTable.total, hl, sum_map_range]

/-- The counts of a stream sum to its length (R104). -/
theorem countTable_total {syms : List Symbol} (h : syms.length ≤ Config.SYM_STREAM_MAX) :
    (countTable syms).total = syms.length := by
  rw [total_eq_sum]
  simp only [countTable_toNat h]
  clear h
  induction syms with
  | nil => simp
  | cons c cs ih =>
    simp only [List.count_cons, Finset.sum_add_distrib, ih, List.length_cons, beq_iff_eq]
    refine congrArg (cs.length + ·) ?_
    rw [Finset.sum_eq_single c.toNat]
    · rw [BitVec.ofNat_toNat, BitVec.setWidth_eq, if_pos rfl]
    · intro i hi hne
      rw [if_neg]
      rintro rfl
      exact hne (by rw [BitVec.toNat_ofNat, Nat.mod_eq_of_lt (Finset.mem_range.mp hi)])
    · intro hn
      exact absurd (Finset.mem_range.mpr c.isLt) hn

end Sys2Proof.Machine
end

