-- ==== Sys2Proof/Laws/TreeBuilder.lean ====
section
/-! SUPPORT. What BUILD answers: the leaves, the merges in greedy order, the ownership of every node, and the total
weight (41_tree_builder.md R121 to R127; 10_state.md R36). -/

namespace Sys2Proof.Machine

/-! ### The symbols that are present -/

theorem zipIdx_toList_mem {f : FreqTable} {w : Word} {k : Nat} :
    (w, k) ∈ f.toList.zipIdx ↔ k < 256 ∧ f.entry (BitVec.ofNat 8 k) = w := by
  rw [List.mem_zipIdx_iff_getElem?]
  constructor
  · intro h
    obtain ⟨hk, hw⟩ := List.getElem?_eq_some_iff.mp h
    have hk : k < 256 := by simpa using hk
    exact ⟨hk, by simpa [FreqTable.entry, Nat.mod_eq_of_lt hk] using hw⟩
  · rintro ⟨hk, hw⟩
    refine List.getElem?_eq_some_iff.mpr ⟨by simpa using hk, ?_⟩
    simpa [FreqTable.entry, Nat.mod_eq_of_lt hk] using hw

theorem mem_presentSymbols {f : FreqTable} {c : Symbol} : c ∈ presentSymbols f ↔ f.entry c ≠ 0#32 := by
  simp only [presentSymbols, List.mem_map, List.mem_filter, Prod.exists, zipIdx_toList_mem, bne_iff_ne]
  constructor
  · rintro ⟨w, k, ⟨⟨hk, rfl⟩, hw⟩, rfl⟩
    exact hw
  · intro h
    exact ⟨_, c.toNat, ⟨⟨c.isLt, rfl⟩, by simpa using h⟩, by simp⟩

/-- The symbols come in ascending order (R121). -/
theorem presentSymbols_sorted (f : FreqTable) : (presentSymbols f).Pairwise (fun a b => a.toNat < b.toNat) := by
  have hs : (f.toList.zipIdx.filter (fun p => p.1 != 0#32)).Pairwise (fun a b => a.2 < b.2) := by
    refine List.Pairwise.filter _ ?_
    have : (f.toList.zipIdx.map Prod.snd).Pairwise (· < ·) := by
      rw [List.zipIdx_map_snd]
      exact List.pairwise_lt_range' ..
    exact List.pairwise_map.mp this
  rw [presentSymbols, List.pairwise_map]
  refine hs.imp_of_mem ?_
  rintro ⟨v, a⟩ ⟨w, b⟩ ha hb hlt
  have ha := (zipIdx_toList_mem.mp (List.mem_filter.mp ha).1).1
  have hb := (zipIdx_toList_mem.mp (List.mem_filter.mp hb).1).1
  simpa [Nat.mod_eq_of_lt ha, Nat.mod_eq_of_lt hb] using hlt

theorem presentSymbols_nodup (f : FreqTable) : (presentSymbols f).Nodup :=
  (presentSymbols_sorted f).imp (fun h he => by rw [he] at h; exact lt_irrefl _ h)

theorem presentSymbols_length_le (f : FreqTable) : (presentSymbols f).length ≤ 256 := by
  rw [presentSymbols, List.length_map]
  refine (List.length_filter_le _ _).trans ?_
  simp

/-- Without a count, no symbol is present (R125). -/
theorem presentSymbols_eq_nil {f : FreqTable} : presentSymbols f = [] ↔ ∀ c, f.entry c = 0#32 := by
  rw [List.eq_nil_iff_forall_not_mem]
  simp only [mem_presentSymbols, not_not]

/-- The counts of the present symbols sum to the total. -/
theorem presentSymbols_total (f : FreqTable) :
    ((presentSymbols f).map (fun c => (f.entry c).toNat)).sum = f.total := by
  have hmap : (presentSymbols f).map (fun c => (f.entry c).toNat)
      = (f.toList.zipIdx.filter (fun p => p.1 != 0#32)).map (fun p => p.1.toNat) := by
    rw [presentSymbols, List.map_map]
    apply List.map_congr_left
    rintro ⟨w, k⟩ h
    obtain ⟨-, hw⟩ := zipIdx_toList_mem.mp (List.mem_filter.mp h).1
    exact congrArg BitVec.toNat hw
  have hfilter : ∀ l : List (Word × Nat),
      ((l.filter (fun p => p.1 != 0#32)).map (fun p => p.1.toNat)).sum = (l.map (fun p => p.1.toNat)).sum := by
    intro l
    induction l with
    | nil => rfl
    | cons p l ih =>
      rw [List.filter_cons]
      by_cases hp : p.1 = 0#32
      · simp [hp, ih]
      · simp [hp, ih]
  rw [hmap, hfilter, FreqTable.total]
  have : f.toList.zipIdx.map (fun p => p.1.toNat) = (f.toList.zipIdx.map Prod.fst).map BitVec.toNat := by
    rw [List.map_map]; rfl
  rw [this, List.zipIdx_map_fst]

/-- The number of symbols BUILD plants is the number of distinct symbols (R36, R123). -/
theorem symbolCount_eq (f : FreqTable) : f.symbolCount = (presentSymbols f).length := by
  have h : f.toList = f.toList.zipIdx.map Prod.fst := (List.zipIdx_map_fst ..).symm
  rw [FreqTable.symbolCount, h, List.countP_map, List.countP_eq_length_filter, presentSymbols, List.length_map]
  rfl

/-! ### Indices and priorities -/

/-- The node index with number `j`. -/
abbrev idx (j : Nat) : NodeIdx := BitVec.ofNat 9 j

theorem idx_toNat {j : Nat} (h : j < 512) : (idx j).toNat = j := by simp [Nat.mod_eq_of_lt h]

theorem idx_ok {j : Nat} (h : j < 511) : nodeIndexOk (idx j) = true := by
  rw [nodeIndexOk_iff, idx_toNat (by omega)]
  exact h

theorem idx_inj {i j : Nat} (hi : i < 512) (hj : j < 512) (h : idx i = idx j) : i = j := by
  rw [← idx_toNat hi, h, idx_toNat hj]

theorem eq_idx (i : NodeIdx) : i = idx i.toNat := by simp

/-- The weight of a node as a number. -/
def Arena.weight (A : Arena) (i : NodeIdx) : Nat := (A.entry i).weight.toNat

theorem before_iff {A : Arena} {i j : NodeIdx} :
    A.before i j = true ↔ A.weight i < A.weight j ∨ (A.weight i = A.weight j ∧ i.toNat < j.toNat) := by
  simp only [Arena.before, Arena.weight, Bool.or_eq_true, Bool.and_eq_true, decide_eq_true_eq, beq_iff_eq,
    BitVec.lt_def, BitVec.toNat_inj]

theorem before_trans {A : Arena} {i j k : NodeIdx} (h1 : A.before i j = true) (h2 : A.before j k = true) :
    A.before i k = true := by
  rw [before_iff] at h1 h2 ⊢
  omega

theorem before_of_not {A : Arena} {i j : NodeIdx} (hne : i ≠ j) (h : ¬ A.before i j = true) : A.before j i = true := by
  rw [before_iff] at h ⊢
  have : i.toNat ≠ j.toNat := fun he => hne (BitVec.toNat_inj.mp he)
  omega

/-- `argmin` is an element of its set, and comes before every other (R14). -/
theorem argmin_spec (A : Arena) (h : NodeIdx) (t : List NodeIdx) :
    A.argmin h t ∈ h :: t ∧ ∀ x ∈ h :: t, x ≠ A.argmin h t → A.before (A.argmin h t) x = true := by
  induction t generalizing h with
  | nil => simp [Arena.argmin]
  | cons y t ih =>
    have hstep : A.argmin h (y :: t) = A.argmin (if A.before y h = true then y else h) t := by
      simp [Arena.argmin]
    rw [hstep]
    by_cases hb : A.before y h = true
    · rw [if_pos hb]
      obtain ⟨hm, hl⟩ := ih y
      refine ⟨List.mem_cons_of_mem _ hm, fun x hx hne => ?_⟩
      rcases List.mem_cons.mp hx with rfl | hx
      · by_cases hy : y = A.argmin y t
        · rw [← hy]; exact hb
        · exact before_trans (hl y (List.mem_cons_self ..) hy) hb
      · exact hl x hx hne
    · rw [if_neg hb]
      obtain ⟨hm, hl⟩ := ih h
      refine ⟨?_, fun x hx hne => ?_⟩
      · rcases List.mem_cons.mp hm with he | hm
        · rw [he]; exact List.mem_cons_self ..
        · exact List.mem_cons_of_mem _ (List.mem_cons_of_mem _ hm)
      · rcases List.mem_cons.mp hx with rfl | hx
        · exact hl x (List.mem_cons_self ..) hne
        rcases List.mem_cons.mp hx with rfl | hx
        · by_cases hxh : x = h
          · subst hxh; exact hl x (List.mem_cons_self ..) hne
          · have hhx := before_of_not hxh hb
            by_cases hh : h = A.argmin h t
            · rw [← hh]; exact hhx
            · exact before_trans (hl h (List.mem_cons_self ..) hh) hhx
        · exact hl x (List.mem_cons_of_mem _ hx) hne

/-! ### Leaves -/

theorem plantLeaves_entry (f : FreqTable) {j : Nat} {cs : List Symbol} {A : Arena} (h : j + cs.length ≤ 511)
    (i : NodeIdx) :
    (plantLeaves f j cs A).entry i
      = if h : j ≤ i.toNat ∧ i.toNat < j + cs.length then
          NodeEntry.newLeaf (cs[i.toNat - j]'(by omega)) (f.entry (cs[i.toNat - j]'(by omega)))
        else A.entry i := by
  induction cs generalizing j A with
  | nil => rw [plantLeaves, dif_neg (by simp)]
  | cons c cs ih =>
    simp only [List.length_cons] at h ⊢
    rw [plantLeaves, ih (by omega)]
    by_cases h1 : j + 1 ≤ i.toNat ∧ i.toNat < j + 1 + cs.length
    · rw [dif_pos h1, dif_pos (by omega)]
      have : i.toNat - j = (i.toNat - (j + 1)) + 1 := by omega
      simp only [this, List.getElem_cons_succ]
    · rw [dif_neg h1, Arena.entry_put _ _ _ _ (idx_ok (by omega))]
      by_cases h2 : i.toNat = j
      · have hij : i = BitVec.ofNat 9 j := by rw [eq_idx i, h2]
        rw [if_pos hij, dif_pos (by omega)]
        simp only [h2, Nat.sub_self, List.getElem_cons_zero]
      · rw [if_neg (fun he => h2 (by rw [he]; exact idx_toNat (by omega))), dif_neg (by omega)]

/-! ### The merge loop -/

/-- The children of the Internal nodes `n ..< next`, in creation order. -/
def children (A : Arena) (n next : Nat) : List NodeIdx :=
  (List.range' n (next - n)).flatMap (fun j => [(A.entry (idx j)).left, (A.entry (idx j)).right])

theorem children_congr {A B : Arena} {n next : Nat} (h : ∀ j, n ≤ j → j < next → A.entry (idx j) = B.entry (idx j)) :
    children A n next = children B n next := by
  unfold children
  apply List.flatMap_congr
  intro j hj
  simp only [List.mem_range'_1] at hj
  rw [h j hj.1 (by omega)]

theorem children_self (A : Arena) (n : Nat) : children A n n = [] := by simp [children]

theorem children_succ {A : Arena} {n next : Nat} (h : n ≤ next) :
    children A n (next + 1) = children A n next ++ [(A.entry (idx next)).left, (A.entry (idx next)).right] := by
  unfold children
  rw [show next + 1 - n = next - n + 1 by omega, List.range'_1_concat, List.flatMap_append,
    show n + (next - n) = next by omega]
  simp

theorem mem_children {A : Arena} {n next : Nat} {x : NodeIdx} :
    x ∈ children A n next ↔ ∃ j b, n ≤ j ∧ j < next ∧ (A.entry (idx j)).child b = x := by
  simp only [children, List.mem_flatMap, List.mem_range'_1, List.mem_cons, List.not_mem_nil, or_false]
  constructor
  · rintro ⟨j, hj, rfl | rfl⟩
    · exact ⟨j, false, hj.1, by omega, rfl⟩
    · exact ⟨j, true, hj.1, by omega, rfl⟩
  · rintro ⟨j, b, h1, h2, rfl⟩
    refine ⟨j, ⟨h1, by omega⟩, ?_⟩
    cases b
    · exact .inl rfl
    · exact .inr rfl

/-- `x` is in the min-priority structure when the node `j` is made: it exists and is nobody's child yet. -/
def Available (A : Arena) (n j : Nat) (x : NodeIdx) : Prop := x.toNat < j ∧ x ∉ children A n j

/-- The node `j` merges the two least available nodes, the least to the LEFT (R121, R122, R123). -/
structure Merged (A : Arena) (n j : Nat) : Prop where
  entry : A.entry (idx j) = NodeEntry.newInternal (A.entry (idx j)).left (A.entry (idx j)).right (A.entry (idx j)).weight
  weight : A.weight (idx j) = A.weight (A.entry (idx j)).left + A.weight (A.entry (idx j)).right
  left : Available A n j (A.entry (idx j)).left
  right : Available A n j (A.entry (idx j)).right
  order : A.before (A.entry (idx j)).left (A.entry (idx j)).right = true
  least : ∀ x, Available A n j x → x ≠ (A.entry (idx j)).left → x ≠ (A.entry (idx j)).right →
    A.before (A.entry (idx j)).right x = true

/-- BUILD's loop between two turns: `next` is the next free index and `Q` the min-priority structure. -/
structure Building (f : FreqTable) (next : Nat) (A : Arena) (Q : List NodeIdx) : Prop where
  size : next + Q.length = 2 * (presentSymbols f).length
  lower : (presentSymbols f).length ≤ next
  leaves : ∀ (j : Nat) (h : j < (presentSymbols f).length),
    A.entry (idx j) = NodeEntry.newLeaf (presentSymbols f)[j] (f.entry (presentSymbols f)[j])
  merged : ∀ j, (presentSymbols f).length ≤ j → j < next → Merged A (presentSymbols f).length j
  empty : ∀ i : NodeIdx, next ≤ i.toNat → A.entry i = {}
  owned : (Q ++ children A (presentSymbols f).length next).Perm ((List.range next).map idx)
  total : (Q.map A.weight).sum = f.total

/-- The start of the loop. -/
theorem building_start (f : FreqTable) :
    Building f (presentSymbols f).length (plantLeaves f 0 (presentSymbols f) Arena.empty)
      ((List.range (presentSymbols f).length).map idx) := by
  have hn := presentSymbols_length_le f
  have hentry := plantLeaves_entry f (j := 0) (cs := presentSymbols f) (A := Arena.empty) (by omega)
  have hleaf : ∀ (j : Nat) (h : j < (presentSymbols f).length),
      (plantLeaves f 0 (presentSymbols f) Arena.empty).entry (idx j)
        = NodeEntry.newLeaf (presentSymbols f)[j] (f.entry (presentSymbols f)[j]) := by
    intro j h
    rw [hentry, dif_pos (by rw [idx_toNat (by omega)]; omega)]
    simp only [idx_toNat (show j < 512 by omega), Nat.sub_zero]
  constructor
  · simp; omega
  · exact Nat.le_refl _
  · exact hleaf
  · intro j h1 h2; omega
  · intro i hi
    rw [hentry, dif_neg (by omega), Arena.entry_empty]
  · rw [children_self, List.append_nil]
  · rw [← presentSymbols_total, List.map_map]
    congr 1
    apply List.ext_getElem
    · simp
    · intro j h1 h2
      have hj : j < (presentSymbols f).length := by simpa using h2
      simp [Arena.weight, hleaf j hj, NodeEntry.newLeaf]

/-- What is in the min-priority structure is what is available. -/
theorem Building.mem_iff {f : FreqTable} {next : Nat} {A : Arena} {Q : List NodeIdx} (h : Building f next A Q)
    (hq : Q ≠ []) (x : NodeIdx) : x ∈ Q ↔ Available A (presentSymbols f).length next x := by
  have hn := presentSymbols_length_le f
  have hsize := h.size
  have hpos := List.length_pos_of_ne_nil hq
  have hmem : ∀ y, y ∈ Q ++ children A (presentSymbols f).length next ↔ y.toNat < next := by
    intro y
    rw [h.owned.mem_iff, List.mem_map]
    constructor
    · rintro ⟨j, hj, rfl⟩
      rw [idx_toNat (by have := List.mem_range.mp hj; omega)]
      exact List.mem_range.mp hj
    · exact fun hy => ⟨y.toNat, List.mem_range.mpr hy, (eq_idx y).symm⟩
  have hnd : (Q ++ children A (presentSymbols f).length next).Nodup := by
    rw [h.owned.nodup_iff]
    refine List.Nodup.map_on ?_ List.nodup_range
    intro a ha b hb hab
    have ha := List.mem_range.mp ha
    have hb := List.mem_range.mp hb
    exact idx_inj (by omega) (by omega) hab
  constructor
  · intro hx
    exact ⟨(hmem x).mp (List.mem_append_left _ hx), fun hc => (List.disjoint_of_nodup_append hnd) hx hc⟩
  · rintro ⟨h1, h2⟩
    exact ((List.mem_append.mp ((hmem x).mpr h1)).resolve_right h2)

/-- An entry below the free index does not change when the free one is written. -/
theorem put_below {A : Arena} {next : Nat} {e : NodeEntry} (hn : next < 511) {i : NodeIdx} (hi : i.toNat < next) :
    (A.put (idx next) e).entry i = A.entry i := by
  rw [Arena.entry_put _ _ _ _ (idx_ok hn), if_neg]
  rintro rfl
  rw [idx_toNat (by omega)] at hi
  exact lt_irrefl _ hi

/-- A merge made earlier is still there after the free index is written. -/
theorem Merged.put {A : Arena} {n j next : Nat} {e : NodeEntry} (hn : next < 511) (hj : j < next)
    (h : Merged A n j) : Merged (A.put (idx next) e) n j := by
  have hlow : ∀ i : NodeIdx, i.toNat < next → (A.put (idx next) e).entry i = A.entry i := fun i hi => put_below hn hi
  have hself : (A.put (idx next) e).entry (idx j) = A.entry (idx j) := hlow _ (by rw [idx_toNat (by omega)]; exact hj)
  have hch : children (A.put (idx next) e) n j = children A n j :=
    children_congr (fun k _ h2 => hlow _ (by rw [idx_toNat (by omega)]; omega))
  have hav : ∀ x, Available (A.put (idx next) e) n j x ↔ Available A n j x := by
    intro x; rw [Available, Available, hch]
  have hw : ∀ x : NodeIdx, x.toNat < next → (A.put (idx next) e).weight x = A.weight x := by
    intro x hx; rw [Arena.weight, hlow x hx, Arena.weight]
  have hl := h.left.1
  have hr := h.right.1
  have hb : ∀ x y : NodeIdx, x.toNat < next → y.toNat < next →
      ((A.put (idx next) e).before x y = true ↔ A.before x y = true) := by
    intro x y hx hy; rw [before_iff, before_iff, hw x hx, hw y hy]
  constructor
  · rw [hself]; exact h.entry
  · rw [hw _ (by rw [idx_toNat (by omega)]; exact hj), hself, hw _ (by omega), hw _ (by omega)]; exact h.weight
  · rw [hav, hself]; exact h.left
  · rw [hav, hself]; exact h.right
  · rw [hself, hb _ _ (by omega) (by omega)]; exact h.order
  · intro x hx h1 h2
    rw [hself] at h1 h2 ⊢
    have hx := (hav x).mp hx
    have := hx.1
    rw [hb _ _ (by omega) (by omega)]
    exact h.least x hx h1 h2

/-- One turn of the loop. -/
theorem Building.turn {f : FreqTable} {next : Nat} {A : Arena} {Q Q₁ Q₂ : List NodeIdx} {a b : NodeIdx}
    (h : Building f next A Q) (ha : Q.Perm (a :: Q₁)) (hb : Q₁.Perm (b :: Q₂))
    (hla : ∀ x ∈ Q, x ≠ a → A.before a x = true) (hlb : ∀ x ∈ Q₁, x ≠ b → A.before b x = true)
    (hw : A.weight a + A.weight b ≤ Config.CNT_MAX) :
    Building f (next + 1)
      (A.put (idx next) (NodeEntry.newInternal a b (BitVec.ofNat 32 (A.weight a + A.weight b)))) (idx next :: Q₂) := by
  have hn := presentSymbols_length_le f
  have hsize := h.size
  have hlower := h.lower
  have hlen : Q.length = Q₂.length + 2 := by rw [ha.length_eq, List.length_cons, hb.length_eq, List.length_cons]
  have hnext : next < 511 := by omega
  have hne : Q ≠ [] := by intro h0; rw [h0] at hlen; simp at hlen
  have hperm : Q.Perm (a :: b :: Q₂) := ha.trans (List.Perm.cons a hb)
  have haQ : a ∈ Q := hperm.mem_iff.mpr (by simp)
  have hbQ : b ∈ Q := hperm.mem_iff.mpr (by simp)
  have hnd : (Q ++ children A (presentSymbols f).length next).Nodup := by
    rw [h.owned.nodup_iff]
    refine List.Nodup.map_on ?_ List.nodup_range
    intro x hx y hy hxy
    have hx := List.mem_range.mp hx
    have hy := List.mem_range.mp hy
    exact idx_inj (by omega) (by omega) hxy
  have hndQ : (a :: b :: Q₂).Nodup := hperm.nodup_iff.mp (List.Nodup.of_append_left hnd)
  have hab : a ≠ b := by
    intro he
    exact (List.nodup_cons.mp hndQ).1 (by rw [he]; exact List.mem_cons_self ..)
  have hava := (h.mem_iff hne a).mp haQ
  have havb := (h.mem_iff hne b).mp hbQ
  have hlow : ∀ i : NodeIdx, i.toNat < next →
      (A.put (idx next) (NodeEntry.newInternal a b (BitVec.ofNat 32 (A.weight a + A.weight b)))).entry i = A.entry i :=
    fun i hi => put_below hnext hi
  have hnew : (A.put (idx next) (NodeEntry.newInternal a b (BitVec.ofNat 32 (A.weight a + A.weight b)))).entry (idx next)
      = NodeEntry.newInternal a b (BitVec.ofNat 32 (A.weight a + A.weight b)) := by
    rw [Arena.entry_put _ _ _ _ (idx_ok hnext), if_pos rfl]
  have hwlow : ∀ i : NodeIdx, i.toNat < next →
      (A.put (idx next) (NodeEntry.newInternal a b (BitVec.ofNat 32 (A.weight a + A.weight b)))).weight i = A.weight i := by
    intro i hi; rw [Arena.weight, hlow i hi, Arena.weight]
  have hwnew : (A.put (idx next) (NodeEntry.newInternal a b (BitVec.ofNat 32 (A.weight a + A.weight b)))).weight (idx next)
      = A.weight a + A.weight b := by
    rw [Arena.weight, hnew]
    simp only [NodeEntry.newInternal, BitVec.toNat_ofNat]
    have : Config.CNT_MAX = 4294967295 := rfl
    omega
  generalize hB : A.put (idx next) (NodeEntry.newInternal a b (BitVec.ofNat 32 (A.weight a + A.weight b))) = B at *
  have hch : children B (presentSymbols f).length next = children A (presentSymbols f).length next :=
    children_congr (fun k _ h2 => hlow _ (by rw [idx_toNat (by omega)]; omega))
  have hav : ∀ x, Available B (presentSymbols f).length next x ↔ Available A (presentSymbols f).length next x := by
    intro x; rw [Available, Available, hch]
  have hbef : ∀ x y : NodeIdx, x.toNat < next → y.toNat < next → (B.before x y = true ↔ A.before x y = true) := by
    intro x y hx hy; rw [before_iff, before_iff, hwlow x hx, hwlow y hy]
  constructor
  · simp only [List.length_cons]; omega
  · omega
  · intro j hj
    rw [hlow _ (by rw [idx_toNat (by omega)]; omega)]
    exact h.leaves j hj
  · intro j h1 h2
    by_cases hj : j = next
    · subst hj
      constructor
      · rw [hnew]; rfl
      · rw [hwnew, hnew]
        simp only [NodeEntry.newInternal]
        rw [hwlow a hava.1, hwlow b havb.1]
      · rw [hnew, hav]; exact hava
      · rw [hnew, hav]; exact havb
      · rw [hnew]
        exact (hbef a b hava.1 havb.1).mpr (hla b hbQ hab.symm)
      · intro x hx hxa hxb
        rw [hnew] at hxa hxb ⊢
        have hx := (hav x).mp hx
        refine (hbef b x havb.1 hx.1).mpr (hlb x ?_ hxb)
        have := ha.mem_iff.mp ((h.mem_iff hne x).mpr hx)
        exact (List.mem_cons.mp this).resolve_left hxa
    · rw [← hB]
      exact (h.merged j h1 (by omega)).put hnext (by omega)
  · intro i hi
    rw [← hB, Arena.entry_put _ _ _ _ (idx_ok hnext), if_neg]
    · exact h.empty i (by omega)
    · rintro rfl
      rw [idx_toNat (by omega)] at hi
      omega
  · rw [children_succ hlower, hch, hnew, List.range_succ, List.map_append, List.map_singleton]
    simp only [NodeEntry.newInternal]
    have h1 : (idx next :: Q₂ ++ (children A (presentSymbols f).length next ++ [a, b])).Perm
        ((a :: b :: Q₂ ++ children A (presentSymbols f).length next) ++ [idx next]) := by
      rw [List.perm_iff_count]
      intro x
      simp only [List.count_append, List.count_cons, List.count_nil]
      omega
    refine h1.trans (List.Perm.append_right _ ?_)
    exact (List.Perm.append_right _ hperm.symm).trans h.owned
  · have hQ₂ : (Q₂.map B.weight).sum = (Q₂.map A.weight).sum := by
      congr 1
      apply List.map_congr_left
      intro x hx
      refine hwlow x ((h.mem_iff hne x).mp (hperm.mem_iff.mpr ?_)).1
      simp [hx]
    rw [List.map_cons, List.sum_cons, hwnew, hQ₂, ← h.total, (hperm.map A.weight).sum_eq]
    simp only [List.map_cons, List.sum_cons]
    omega

/-- What the merge loop answers: a finished tree over everything, when the total weight fits, and OVERFLOW with
information 0 otherwise (R123, R126). -/
theorem mergeLoop_spec {f : FreqTable} {m next : Nat} {A : Arena} {h : NodeIdx} {t : List NodeIdx}
    (hm : t.length = m) (hB : Building f next A (h :: t)) :
    (f.total ≤ Config.CNT_MAX ∧ ∃ A' r, mergeLoop m A h t next = .ok (A', r)
        ∧ Building f (2 * (presentSymbols f).length - 1) A' [r])
    ∨ (Config.CNT_MAX < f.total ∧ mergeLoop m A h t next = .error (Raise.of .overflow 0)) := by
  induction m generalizing next A h t with
  | zero =>
    obtain rfl := List.length_eq_zero_iff.mp hm
    have hsize := hB.size
    simp only [List.length_singleton] at hsize
    refine .inl ⟨?_, A, h, rfl, by rw [show 2 * (presentSymbols f).length - 1 = next by omega]; exact hB⟩
    have ht := hB.total
    simp only [List.map_cons, List.map_nil, List.sum_cons, List.sum_nil, Nat.add_zero] at ht
    rw [← ht, Arena.weight]
    have := (A.entry h).weight.isLt
    have hc : Config.CNT_MAX = 4294967295 := rfl
    omega
  | succ m ih =>
    obtain ⟨hamem, haleast⟩ := argmin_spec A h t
    have hperm := List.perm_cons_erase hamem
    rw [mergeLoop]
    simp only
    cases hq : (h :: t).erase (A.argmin h t) with
    | nil =>
      have := hperm.length_eq
      rw [hq] at this
      simp only [List.length_cons, List.length_nil] at this
      omega
    | cons h₁ t₁ =>
      rw [hq] at hperm
      obtain ⟨hbmem, hbleast⟩ := argmin_spec A h₁ t₁
      have hperm₁ := List.perm_cons_erase hbmem
      have htotal := hB.total
      rw [((hperm.trans (List.Perm.cons _ hperm₁)).map A.weight).sum_eq] at htotal
      simp only [List.map_cons, List.sum_cons] at htotal
      simp only
      split
      · next hgt =>
        refine .inr ⟨?_, rfl⟩
        simp only [Arena.weight] at htotal
        omega
      · next hle =>
        have hlen : ((h₁ :: t₁).erase (A.argmin h₁ t₁)).length = m := by
          have h1 := hperm.length_eq
          have h2 := hperm₁.length_eq
          simp only [List.length_cons] at h1 h2
          omega
        exact ih hlen (hB.turn hperm hperm₁ haleast hbleast (by simp only [Arena.weight]; omega))

/-- A tree BUILD has finished. -/
abbrev Built (f : FreqTable) (A : Arena) (r : NodeIdx) : Prop :=
  Building f (2 * (presentSymbols f).length - 1) A [r]

/-- BUILD's three outcomes (R123, R125, R126). -/
theorem buildTree_cases (f : FreqTable) :
    ((∀ c, f.entry c = 0#32) ∧ buildTree f = .error (Raise.of .emptyAlphabet 0))
    ∨ ((∃ c, f.entry c ≠ 0#32) ∧ Config.CNT_MAX < f.total ∧ buildTree f = .error (Raise.of .overflow 0))
    ∨ ((∃ c, f.entry c ≠ 0#32) ∧ f.total ≤ Config.CNT_MAX ∧ ∃ A r, buildTree f = .ok (A, r) ∧ Built f A r) := by
  by_cases hz : presentSymbols f = []
  · refine .inl ⟨presentSymbols_eq_nil.mp hz, ?_⟩
    simp [buildTree, hz]
  · have hpresent : ∃ c, f.entry c ≠ 0#32 := by
      by_contra hno
      exact hz (presentSymbols_eq_nil.mpr (by simpa using hno))
    have hstart := building_start f
    obtain ⟨h, t, hq⟩ : ∃ h t, (List.range (presentSymbols f).length).map idx = h :: t := by
      cases hc : (List.range (presentSymbols f).length).map idx with
      | nil => simp at hc; exact absurd hc hz
      | cons h t => exact ⟨h, t, rfl⟩
    have hlen : t.length = (presentSymbols f).length - 1 := by
      have := congrArg List.length hq
      simp only [List.length_map, List.length_range, List.length_cons] at this
      omega
    rw [hq] at hstart
    have hbuild : buildTree f = mergeLoop ((presentSymbols f).length - 1)
        (plantLeaves f 0 (presentSymbols f) Arena.empty) h t (presentSymbols f).length := by
      unfold buildTree
      simp only [hq]
    rw [hbuild]
    rcases mergeLoop_spec hlen hstart with ⟨hle, A, r, hok, hB⟩ | ⟨hgt, herr⟩
    · exact .inr (.inr ⟨hpresent, hle, A, r, hok, hB⟩)
    · exact .inr (.inl ⟨hpresent, hgt, herr⟩)

end Sys2Proof.Machine
end

