-- ==== Sys2Proof/Laws/Built.lean ====
section
/-! SUPPORT. The tree BUILD leaves: its root, the ownership of its nodes, its codes and their lengths, and that GENCODE,
ENCODE and DECODE work on it (10_state.md R36; 42_code_generator.md R157; 43_encoder.md R172, R173, R175). -/

namespace Sys2Proof.Machine

/-- The number of distinct symbols of a table (R36). -/
abbrev distinct (f : FreqTable) : Nat := (presentSymbols f).length

theorem Built.distinct_pos {f : FreqTable} {A : Arena} {r : NodeIdx} (h : Built f A r) : 1 ≤ distinct f := by
  have := h.size
  simp only [List.length_singleton] at this
  change 1 ≤ (presentSymbols f).length
  omega

/-- A slot below `n` holds a Leaf. -/
theorem Built.leaf {f : FreqTable} {A : Arena} {r : NodeIdx} (h : Built f A r) {i : NodeIdx}
    (hi : i.toNat < distinct f) :
    A.entry i = NodeEntry.newLeaf (presentSymbols f)[i.toNat] (f.entry (presentSymbols f)[i.toNat]) := by
  have := h.leaves i.toNat hi
  rwa [← eq_idx] at this

/-- A slot from `n` to the root is a merge of two others. -/
theorem Built.merge {f : FreqTable} {A : Arena} {r : NodeIdx} (h : Built f A r) {i : NodeIdx}
    (h1 : distinct f ≤ i.toNat) (h2 : i.toNat < 2 * distinct f - 1) : Merged A (distinct f) i.toNat :=
  h.merged i.toNat h1 h2

theorem Built.kind_leaf {f : FreqTable} {A : Arena} {r : NodeIdx} (h : Built f A r) {i : NodeIdx}
    (hi : i.toNat < distinct f) : (A.entry i).kind = .leaf := by rw [h.leaf hi]; rfl

theorem Built.kind_internal {f : FreqTable} {A : Arena} {r : NodeIdx} (h : Built f A r) {i : NodeIdx}
    (h1 : distinct f ≤ i.toNat) (h2 : i.toNat < 2 * distinct f - 1) : (A.entry i).kind = .internal := by
  have := (h.merge h1 h2).entry
  rw [← eq_idx] at this
  rw [this]
  rfl

theorem Built.present {f : FreqTable} {A : Arena} {r : NodeIdx} (h : Built f A r) (i : NodeIdx) :
    A.absent i = false ↔ i.toNat < 2 * distinct f - 1 := by
  rw [Arena.absent_eq_false_iff]
  constructor
  · intro hv
    by_contra hi
    rw [h.empty i (by change 2 * distinct f - 1 ≤ i.toNat; omega)] at hv
    cases hv
  · intro hi
    by_cases hl : i.toNat < distinct f
    · rw [h.leaf hl]; rfl
    · have := (h.merge (by omega) hi).entry
      rw [← eq_idx] at this
      rw [this]
      rfl

/-- The children of an Internal node lie below it. -/
theorem Built.child_lt {f : FreqTable} {A : Arena} {r : NodeIdx} (h : Built f A r) {j : NodeIdx} (b : Bit)
    (h1 : distinct f ≤ j.toNat) (h2 : j.toNat < 2 * distinct f - 1) : ((A.entry j).child b).toNat < j.toNat := by
  have hm := h.merge h1 h2
  have hl := hm.left.1
  have hr := hm.right.1
  rw [← eq_idx] at hl hr
  cases b
  · exact hl
  · exact hr

/-- A node is an Internal node of the tree. -/
theorem Built.internal_range {f : FreqTable} {A : Arena} {r : NodeIdx} (h : Built f A r) {j : NodeIdx}
    (ha : A.absent j = false) (hk : (A.entry j).kind = .internal) :
    distinct f ≤ j.toNat ∧ j.toNat < 2 * distinct f - 1 := by
  refine ⟨?_, (h.present j).mp ha⟩
  by_contra hj
  rw [h.kind_leaf (by omega)] at hk
  cases hk

theorem Built.leaf_range {f : FreqTable} {A : Arena} {r : NodeIdx} (h : Built f A r) {j : NodeIdx}
    (ha : A.absent j = false) (hk : (A.entry j).kind = .leaf) : j.toNat < distinct f := by
  by_contra hj
  rw [h.kind_internal (by omega) ((h.present j).mp ha)] at hk
  cases hk

/-- The root is the last node made (R123, R36). -/
theorem Built.root {f : FreqTable} {A : Arena} {r : NodeIdx} (h : Built f A r) : r = idx (2 * distinct f - 2) := by
  have hpos := h.distinct_pos
  have hn : distinct f ≤ 256 := presentSymbols_length_le f
  have hmem : idx (2 * distinct f - 2) ∈ [r] ++ children A (distinct f) (2 * distinct f - 1) := by
    rw [h.owned.mem_iff]
    exact List.mem_map.mpr ⟨_, List.mem_range.mpr (by change 2 * distinct f - 2 < 2 * distinct f - 1; omega), rfl⟩
  rcases List.mem_append.mp hmem with hr | hc
  · exact (List.mem_singleton.mp hr).symm
  · obtain ⟨j, b, h1, h2, hj⟩ := mem_children.mp hc
    have hjn : (idx j).toNat = j := idx_toNat (by omega)
    have := h.child_lt (j := idx j) b (by omega) (by omega)
    rw [hj, hjn, idx_toNat (by omega)] at this
    omega

theorem Built.root_toNat {f : FreqTable} {A : Arena} {r : NodeIdx} (h : Built f A r) :
    r.toNat = 2 * distinct f - 2 := by
  have hn : distinct f ≤ 256 := presentSymbols_length_le f
  rw [h.root, idx_toNat (by omega)]

/-- The root is nobody's child. -/
theorem Built.root_not_child {f : FreqTable} {A : Arena} {r : NodeIdx} (h : Built f A r) {j : NodeIdx} {b : Bit}
    (h1 : distinct f ≤ j.toNat) (h2 : j.toNat < 2 * distinct f - 1) : (A.entry j).child b ≠ r := by
  intro he
  have := h.child_lt b h1 h2
  rw [he, h.root_toNat] at this
  omega

/-- A node is the child of one Internal node only, on one side only (R36). -/
theorem Built.parent_unique {f : FreqTable} {A : Arena} {r : NodeIdx} (h : Built f A r) {i j : NodeIdx} {b d : Bit}
    (hi1 : distinct f ≤ i.toNat) (hi2 : i.toNat < 2 * distinct f - 1)
    (hj1 : distinct f ≤ j.toNat) (hj2 : j.toNat < 2 * distinct f - 1)
    (he : (A.entry i).child b = (A.entry j).child d) : i = j ∧ b = d := by
  have hfresh : ∀ {x y : NodeIdx} {b d : Bit}, distinct f ≤ x.toNat → y.toNat < 2 * distinct f - 1 →
      x.toNat < y.toNat → (A.entry x).child b ≠ (A.entry y).child d := by
    intro x y b d hx hy hxy he
    have hm := h.merge (i := y) (by omega) hy
    have hc : (A.entry y).child d ∉ children A (distinct f) y.toNat := by
      have hl := hm.left.2
      have hr := hm.right.2
      rw [← eq_idx] at hl hr
      cases d
      · exact hl
      · exact hr
    exact hc (he ▸ mem_children.mpr ⟨x.toNat, b, hx, hxy, by rw [← eq_idx]⟩)
  have hij : i = j := by
    apply BitVec.toNat_inj.mp
    rcases Nat.lt_trichotomy i.toNat j.toNat with hlt | heq | hgt
    · exact absurd he (hfresh hi1 hj2 hlt)
    · exact heq
    · exact absurd he.symm (hfresh hj1 hi2 hgt)
  subst hij
  refine ⟨rfl, ?_⟩
  have ho := (h.merge hi1 hi2).order
  rw [← eq_idx] at ho
  have hne : (A.entry i).left ≠ (A.entry i).right := by
    intro hh
    rw [hh, before_iff] at ho
    omega
  cases b <;> cases d
  · rfl
  · exact absurd he hne
  · exact absurd he.symm hne
  · rfl

/-- Every node but the root has a parent (R36). -/
theorem Built.parent_exists {f : FreqTable} {A : Arena} {r : NodeIdx} (h : Built f A r) {i : NodeIdx}
    (hi : i.toNat < 2 * distinct f - 1) (hr : i ≠ r) :
    ∃ (j : NodeIdx) (b : Bit), distinct f ≤ j.toNat ∧ j.toNat < 2 * distinct f - 1 ∧ (A.entry j).child b = i := by
  have hn : distinct f ≤ 256 := presentSymbols_length_le f
  have hmem : i ∈ [r] ++ children A (distinct f) (2 * distinct f - 1) := by
    rw [h.owned.mem_iff]
    exact List.mem_map.mpr ⟨i.toNat, List.mem_range.mpr hi, (eq_idx i).symm⟩
  rcases List.mem_append.mp hmem with hh | hc
  · exact absurd (List.mem_singleton.mp hh) hr
  · obtain ⟨j, b, h1, h2, hj⟩ := mem_children.mp hc
    have hjn : (idx j).toNat = j := idx_toNat (by omega)
    exact ⟨idx j, b, by omega, by omega, hj⟩

/-- The parent on a path's last step. -/
theorem Built.path_parent {f : FreqTable} {A : Arena} {r k : NodeIdx} (h : Built f A r) {p : List Bit} {b : Bit}
    (hp : A.follow r (p ++ [b]) = some k) :
    ∃ j, A.follow r p = some j ∧ distinct f ≤ j.toNat ∧ j.toNat < 2 * distinct f - 1 ∧ (A.entry j).child b = k := by
  obtain ⟨j, hj, hk, hc, -⟩ := follow_snoc_some hp
  obtain ⟨h1, h2⟩ := h.internal_range (follow_present hj).2 hk
  exact ⟨j, hj, h1, h2, hc⟩

/-- One path leads to each node. -/
theorem Built.path_unique {f : FreqTable} {A : Arena} {r i : NodeIdx} (h : Built f A r) {p q : List Bit}
    (hp : A.follow r p = some i) (hq : A.follow r q = some i) : p = q := by
  induction p using List.reverseRecOn generalizing q i with
  | nil =>
    obtain ⟨-, rfl⟩ := follow_nil_some hp
    cases q using List.reverseRecOn with
    | nil => rfl
    | append_singleton q d =>
      obtain ⟨j, -, h1, h2, hc⟩ := h.path_parent hq
      exact absurd hc (h.root_not_child h1 h2)
  | append_singleton p b ih =>
    obtain ⟨j, hj, h1, h2, hc⟩ := h.path_parent hp
    cases q using List.reverseRecOn with
    | nil =>
      obtain ⟨-, rfl⟩ := follow_nil_some hq
      exact absurd hc (h.root_not_child h1 h2)
    | append_singleton q d =>
      obtain ⟨j', hj', h1', h2', hc'⟩ := h.path_parent hq
      obtain ⟨rfl, rfl⟩ := h.parent_unique h1 h2 h1' h2' (hc.trans hc'.symm)
      rw [ih hj hj']

/-- A path leads to every node. -/
theorem Built.path_exists {f : FreqTable} {A : Arena} {r : NodeIdx} (h : Built f A r) (i : NodeIdx)
    (hi : i.toNat < 2 * distinct f - 1) : ∃ p, A.follow r p = some i := by
  have hmain : ∀ m, ∀ i : NodeIdx, i.toNat < 2 * distinct f - 1 → 2 * distinct f - 1 - i.toNat ≤ m →
      ∃ p, A.follow r p = some i := by
    intro m
    induction m with
    | zero => intro i h1 h2; omega
    | succ m ih =>
      intro i h1 h2
      by_cases hr : i = r
      · subst hr
        exact ⟨[], follow_nil ((h.present i).mpr h1)⟩
      · obtain ⟨j, b, hj1, hj2, hc⟩ := h.parent_exists h1 hr
        have hlt := h.child_lt b hj1 hj2
        rw [hc] at hlt
        obtain ⟨p, hp⟩ := ih j hj2 (by omega)
        refine ⟨p ++ [b], ?_⟩
        rw [← hc]
        exact follow_snoc b hp (h.kind_internal hj1 hj2) (by rw [hc]; exact (h.present i).mpr h1)
  exact hmain _ i hi (Nat.le_refl _)

/-- The tree BUILD leaves has none of the defects of R153 (R172). -/
theorem Built.sound {f : FreqTable} {A : Arena} {r : NodeIdx} (h : Built f A r) : ¬ Malformed A true r := by
  have hpos := h.distinct_pos
  rintro (hh | ⟨p, i, b, hp, hk, hc⟩ | ⟨p, q, i, hne, hp, hq⟩ | ⟨p, q, i, j, hne, hp, hq, hi, hj, hs⟩)
  · have : A.absent r = false := (h.present r).mpr (by rw [h.root_toNat]; omega)
    simp [this] at hh
  · obtain ⟨h1, h2⟩ := h.internal_range (follow_present hp).2 hk
    have hlt := h.child_lt b h1 h2
    rw [(h.present _).mpr (by omega)] at hc
    cases hc
  · exact hne (h.path_unique hp hq)
  · have hi' := h.leaf_range (follow_present hp).2 hi
    have hj' := h.leaf_range (follow_present hq).2 hj
    rw [h.leaf hi', h.leaf hj'] at hs
    simp only [NodeEntry.newLeaf] at hs
    exact hne (BitVec.toNat_inj.mp ((presentSymbols_nodup f).getElem_inj_iff.mp hs))

/-- The symbols with a code in the tree BUILD leaves are those with a count (R123). -/
theorem Built.hasCode_iff {f : FreqTable} {A : Arena} {r : NodeIdx} (h : Built f A r) (c : Symbol) :
    (∃ p, HasCode A r c p) ↔ f.entry c ≠ 0#32 := by
  rw [← mem_presentSymbols]
  constructor
  · rintro ⟨p, q, i, hq, hk, rfl, -⟩
    have hi := h.leaf_range (follow_present hq).2 hk
    rw [h.leaf hi]
    exact List.getElem_mem hi
  · intro hc
    have hn : distinct f ≤ 256 := presentSymbols_length_le f
    obtain ⟨j, hj, rfl⟩ := List.getElem_of_mem hc
    have hj0 : j < distinct f := hj
    have hjn : (idx j).toNat = j := idx_toNat (by omega)
    have hj' : (idx j).toNat < distinct f := by omega
    obtain ⟨q, hq⟩ := h.path_exists (idx j) (by omega)
    refine ⟨_, q, idx j, hq, h.kind_leaf hj', ?_, rfl⟩
    rw [h.leaf hj']
    simp only [NodeEntry.newLeaf, hjn]

/-- The weight of the root is the total (R36). -/
theorem Built.root_weight {f : FreqTable} {A : Arena} {r : NodeIdx} (h : Built f A r) : A.weight r = f.total := by
  have := h.total
  simpa using this

/-! ### Length monotonicity (42_code_generator.md R157) -/

/-- Merged weights do not fall: a later Internal node is at least as heavy. -/
theorem Built.weight_succ {f : FreqTable} {A : Arena} {r : NodeIdx} (h : Built f A r) {j : Nat} (h1 : distinct f ≤ j)
    (h2 : j + 1 < 2 * distinct f - 1) : A.weight (idx j) ≤ A.weight (idx (j + 1)) := by
  have hn : distinct f ≤ 256 := presentSymbols_length_le f
  have hm := h.merged j h1 (by change j < 2 * distinct f - 1; omega)
  have hm' := h.merged (j + 1) (by change distinct f ≤ j + 1; omega) h2
  have hge : ∀ x, Available A (distinct f) (j + 1) x → A.weight (A.entry (idx j)).right ≤ A.weight x := by
    rintro x ⟨hx, hxc⟩
    rw [children_succ h1] at hxc
    simp only [List.mem_append, List.mem_cons, List.not_mem_nil, or_false, not_or] at hxc
    by_cases hxj : x.toNat = j
    · have : x = idx j := by rw [eq_idx x, hxj]
      rw [this, hm.weight]
      omega
    · have := hm.least x ⟨by omega, hxc.1⟩ hxc.2.1 hxc.2.2
      rw [before_iff] at this
      omega
  have ho := hm.order
  rw [before_iff] at ho
  have hl := hge _ hm'.left
  have hr := hge _ hm'.right
  rw [hm.weight, hm'.weight]
  omega

theorem Built.weight_mono {f : FreqTable} {A : Arena} {r : NodeIdx} (h : Built f A r) {j k : Nat} (h1 : distinct f ≤ j)
    (hjk : j ≤ k) (h2 : k < 2 * distinct f - 1) : A.weight (idx j) ≤ A.weight (idx k) := by
  induction k with
  | zero => obtain rfl : j = 0 := by omega
            exact Nat.le_refl _
  | succ k ih =>
    by_cases hj : j = k + 1
    · rw [hj]
    · exact (ih (by omega) (by omega)).trans (h.weight_succ (by omega) h2)

/-- A parent is at least as heavy as its child. -/
theorem Built.child_weight {f : FreqTable} {A : Arena} {r : NodeIdx} (h : Built f A r) {j : NodeIdx} (b : Bit)
    (h1 : distinct f ≤ j.toNat) (h2 : j.toNat < 2 * distinct f - 1) :
    A.weight ((A.entry j).child b) ≤ A.weight j := by
  have hm := (h.merge h1 h2).weight
  rw [← eq_idx] at hm
  rw [hm]
  cases b
  · exact Nat.le_add_right _ _
  · exact Nat.le_add_left _ _

/-- A node that comes before another in priority is merged no later, if it exists by then. -/
theorem Built.parent_le {f : FreqTable} {A : Arena} {r : NodeIdx} (h : Built f A r) {i j : NodeIdx} {b d : Bit}
    (hi1 : distinct f ≤ i.toNat) (hi2 : i.toNat < 2 * distinct f - 1)
    (hj1 : distinct f ≤ j.toNat) (hj2 : j.toNat < 2 * distinct f - 1)
    (hb : A.before ((A.entry i).child b) ((A.entry j).child d) = true)
    (hx : ((A.entry i).child b).toNat < j.toNat) : i.toNat ≤ j.toNat := by
  by_contra hlt
  have hav : Available A (distinct f) j.toNat ((A.entry i).child b) := by
    refine ⟨hx, fun hc => ?_⟩
    obtain ⟨k, e, hk1, hk2, hke⟩ := mem_children.mp hc
    have hkn : (idx k).toNat = k := idx_toNat (by omega)
    have := (h.parent_unique (i := idx k) (j := i) (by omega) (by omega) hi1 hi2 hke).1
    rw [← this, hkn] at hlt
    omega
  have hm := h.merge hj1 hj2
  have hl := hm.least
  have ho := hm.order
  rw [← eq_idx] at hl ho
  have hne : ∀ e, (A.entry i).child b ≠ (A.entry j).child e := by
    intro e he
    have := (h.parent_unique hi1 hi2 hj1 hj2 he).1
    rw [this] at hlt
    omega
  have hright := hl _ hav (hne false) (hne true)
  rw [before_iff] at hb hright ho
  cases d
  · simp only [NodeEntry.child] at hb hright
    simp only [Bool.false_eq_true, if_false] at hb
    omega
  · simp only [NodeEntry.child] at hb hright
    simp only [if_true] at hb
    omega

/-- An Internal node made later is no deeper. -/
theorem Built.depth_internal {f : FreqTable} {A : Arena} {r i j : NodeIdx} (h : Built f A r) {p q : List Bit}
    (hp : A.follow r p = some i) (hq : A.follow r q = some j) (hi : distinct f ≤ i.toNat) (hij : i.toNat ≤ j.toNat) :
    q.length ≤ p.length := by
  induction q using List.reverseRecOn generalizing p i j with
  | nil => simp
  | append_singleton q d ih =>
    obtain ⟨j', hj', hj1, hj2, hjc⟩ := h.path_parent hq
    have hj := (h.present j).mp (follow_present hq).2
    cases p using List.reverseRecOn with
    | nil =>
      obtain ⟨-, rfl⟩ := follow_nil_some hp
      have := h.child_lt d hj1 hj2
      rw [hjc] at this
      have := h.root_toNat
      omega
    | append_singleton p b =>
      obtain ⟨i', hi', hi1, hi2, hic⟩ := h.path_parent hp
      have hle : i'.toNat ≤ j'.toNat := by
        by_cases he : i = j
        · have := (h.parent_unique hi1 hi2 hj1 hj2 (hic.trans (he.trans hjc.symm))).1
          rw [this]
        · have hne : i.toNat ≠ j.toNat := fun hh => he (BitVec.toNat_inj.mp hh)
          have hw := h.weight_mono hi hij hj
          rw [← eq_idx, ← eq_idx] at hw
          have hjlt := h.child_lt d hj1 hj2
          rw [hjc] at hjlt
          refine h.parent_le (b := b) (d := d) hi1 hi2 hj1 hj2 ?_ ?_
          · rw [hic, hjc, before_iff]; omega
          · rw [hic]; omega
      have := ih hi' hj' hi1 hle
      simp only [List.length_append, List.length_singleton]
      omega

/-- A heavier node is no deeper (R157). -/
theorem Built.depth_weight {f : FreqTable} {A : Arena} {r i j : NodeIdx} (h : Built f A r) {p q : List Bit}
    (hp : A.follow r p = some i) (hq : A.follow r q = some j) (hw : A.weight i < A.weight j) :
    q.length ≤ p.length := by
  cases q using List.reverseRecOn with
  | nil => simp
  | append_singleton q d =>
    obtain ⟨j', hj', hj1, hj2, hjc⟩ := h.path_parent hq
    cases p using List.reverseRecOn with
    | nil =>
      obtain ⟨-, rfl⟩ := follow_nil_some hp
      have h1 := h.child_weight d hj1 hj2
      have hpos := h.distinct_pos
      have h2 := h.weight_mono hj1 (show j'.toNat ≤ 2 * distinct f - 2 by omega) (by omega)
      rw [← eq_idx, ← h.root] at h2
      rw [hjc] at h1
      omega
    | append_singleton p b =>
      obtain ⟨i', hi', hi1, hi2, hic⟩ := h.path_parent hp
      have hle : i'.toNat ≤ j'.toNat := by
        refine h.parent_le (b := b) (d := d) hi1 hi2 hj1 hj2 ?_ ?_
        · rw [hic, hjc, before_iff]; exact .inl hw
        · rw [hic]
          by_contra hge
          have hi := (h.present i).mp (follow_present hp).2
          have h1 := h.weight_mono hj1 (Nat.le_of_not_lt hge) hi
          have h2 := h.child_weight d hj1 hj2
          rw [← eq_idx, ← eq_idx] at h1
          rw [hjc] at h2
          omega
      have := h.depth_internal hi' hj' hi1 hle
      simp only [List.length_append, List.length_singleton]
      omega

/-! ### ENCODE_ALL -/

/-- A count is at least 1 for a symbol of the stream. -/
theorem countTable_ne_zero {cs : List Symbol} (h : cs.length ≤ Config.SYM_STREAM_MAX) {c : Symbol} :
    (countTable cs).entry c ≠ 0#32 ↔ c ∈ cs := by
  rw [← List.count_pos_iff, ← countTable_toNat h, ne_eq, ← BitVec.toNat_inj]
  exact Nat.pos_iff_ne_zero.symm

theorem flatMap_length_le {α : Type} {g : α → List Bit} {m : Nat} {cs : List α} (h : ∀ c ∈ cs, (g c).length ≤ m) :
    (cs.flatMap g).length ≤ cs.length * m := by
  induction cs with
  | nil => simp
  | cons c cs ih =>
    have h1 := h c (List.mem_cons_self ..)
    have h2 := ih (fun d hd => h d (List.mem_cons_of_mem _ hd))
    rw [List.flatMap_cons, List.length_append, List.length_cons, Nat.add_mul]
    omega

/-- Counting, building, generating and encoding a stream of accepted length all answer (R172). -/
theorem encode_chain {cs : List Symbol} (h : cs.length ≤ Config.SYM_STREAM_MAX) (hne : cs ≠ []) :
    ∃ A r T, buildTree (countTable cs) = .ok (A, r) ∧ Built (countTable cs) A r
      ∧ generateTable A true r = .ok T ∧ TableOf A r T
      ∧ (∀ c ∈ cs, (T.entry c).cvalid = true)
      ∧ encodeStream T cs = .ok (cs.flatMap (fun c => (T.entry c).bits))
      ∧ (cs.flatMap (fun c => (T.entry c).bits)).length ≤ Config.STREAM_MAX := by
  have hs : Config.SYM_STREAM_MAX = 4294967295 := rfl
  have hm : Config.STREAM_MAX = 18446744073709551615 := rfl
  have hx : Config.MAX_LEN = 255 := rfl
  have hc : Config.CNT_MAX = 4294967295 := rfl
  have htotal := countTable_total h
  obtain ⟨c₀, hc₀⟩ := List.exists_mem_of_ne_nil cs hne
  rcases buildTree_cases (countTable cs) with ⟨hz, -⟩ | ⟨-, hgt, -⟩ | ⟨-, -, A, r, hA, hB⟩
  · exact absurd (hz c₀) ((countTable_ne_zero h).mpr hc₀)
  · omega
  · obtain ⟨-, T, hT, hTof⟩ | ⟨hbad, -⟩ := generateTable_cases A true r
    · have hv : ∀ c ∈ cs, (T.entry c).cvalid = true := fun c hh =>
        (hTof.cvalid_iff c).mpr ((hB.hasCode_iff c).mpr ((countTable_ne_zero h).mpr hh))
      have hlen := flatMap_length_le (g := fun c => (T.entry c).bits) (m := 255) (fun c hh => by
        have := (hTof.code (hv c hh)).2
        omega)
      refine ⟨A, r, T, hA, hB, hT, hTof, hv, ?_, by omega⟩
      exact encodeFrom_known 0 hv (by omega)
    · exact absurd hbad hB.sound

/-- ENCODE_ALL fails on a stream that is too long, and on nothing else (R172). -/
theorem encodeWhole_error {s : State} {syms : List Symbol} {e : Raise} (h : s.encodeWhole syms = .error e) :
    Config.SYM_STREAM_MAX < syms.length ∧ e = Raise.of .overflow Config.SYM_STREAM_MAX := by
  obtain h1 | ⟨u, hu, h2⟩ := bind_error h
  · exact countStream_error h1
  · exfalso
    obtain ⟨hl, rfl⟩ := countStream_ok hu
    cases syms with
    | nil => cases h2
    | cons c cs =>
      obtain ⟨A, r, T, hA, -, hT, -, -, hE, -⟩ := encode_chain hl (List.cons_ne_nil c cs)
      simp only [List.isEmpty_cons, Bool.false_eq_true, if_false] at h2
      simp only [State.buildFromFreq, hA, State.generateCodes] at h2
      obtain h3 | ⟨u, hu, h3⟩ := bind_error h2
      · cases h3
      · cases hu
        obtain h4 | ⟨u, hu, h4⟩ := bind_error h3
        · simp [hT] at h4
        · simp [hT] at hu
          subst hu
          obtain h5 | ⟨u, hu, h5⟩ := bind_error h4
          · rw [hE] at h5; cases h5
          · cases h5

/-- What ENCODE_ALL writes and outputs on success. -/
structure Encoded where
  freq       : FreqTable
  node       : Arena
  rootValid  : Bool
  rootIdx    : NodeIdx
  code       : CodeTable
  tableValid : Bool
  bits       : List Bit

/-- ENCODE_ALL does the same from every state: it reads only its stream (R34, R105). -/
theorem encodeWhole_uniform (syms : List Symbol) : ∃ x : Except Raise Encoded, ∀ s : State,
    s.encodeWhole syms = match x with
      | .error e => .error e
      | .ok p => .ok ({ s with freq := p.freq, node := p.node, rootValid := p.rootValid, rootIdx := p.rootIdx, code := p.code, tableValid := p.tableValid }, { outBits := p.bits }) := by
  by_cases hl : syms.length ≤ Config.SYM_STREAM_MAX
  · cases syms with
    | nil => exact ⟨.ok ⟨countTable [], Arena.empty, false, 0, CodeTable.empty, false, []⟩, fun s => rfl⟩
    | cons c cs =>
      obtain ⟨A, r, T, hA, -, hT, -, -, hE, -⟩ := encode_chain hl (List.cons_ne_nil c cs)
      refine ⟨.ok ⟨countTable (c :: cs), A, true, r, T, true, (c :: cs).flatMap (fun c => (T.entry c).bits)⟩, fun s => ?_⟩
      have hl' : ¬ ((c :: cs).length > Config.SYM_STREAM_MAX) := by omega
      have : s.countStream (c :: cs) = .ok { s with freq := countTable (c :: cs) } := by
        unfold State.countStream; rw [if_neg hl']
      unfold State.encodeWhole
      rw [this]
      show (State.buildFromFreq _ >>= _) = _
      unfold State.buildFromFreq
      simp only [hA]
      show (State.generateCodes _ >>= _) = _
      unfold State.generateCodes
      simp only [State.clearTable, State.writeRoot, hT]
      show (encodeStream T _ >>= _) = _
      rw [hE]; rfl
  · refine ⟨.error (Raise.of .overflow Config.SYM_STREAM_MAX), fun s => ?_⟩

    · unfold State.encodeWhole State.countStream
      rw [if_pos (by omega)]; rfl

/-- Waiting in the min-priority structure, as BUILD finds it (R123). -/
theorem Built.waiting_iff {f : FreqTable} {A : Arena} {r : NodeIdx} (_h : Built f A r) {j : Nat} (hj : j < 2 * distinct f - 1) (x : NodeIdx) :
    A.WaitingAt (distinct f) j x ↔ Available A (distinct f) j x := by
  have hn := presentSymbols_length_le f
  have hn' : distinct f ≤ 256 := hn
  unfold Arena.WaitingAt Available
  apply and_congr_right
  intro hx
  rw [mem_children]
  constructor
  · rintro H ⟨k, b, h1, h2, h3⟩
    have := H (idx k) (by rw [idx_toNat (by omega)]; exact h1) (by rw [idx_toNat (by omega)]; exact h2)
    cases b
    · exact this.1 h3
    · exact this.2 h3
  · intro H k h1 h2
    constructor
    · intro h3; exact H ⟨k.toNat, false, h1, h2, by rw [← eq_idx]; exact h3⟩
    · intro h3; exact H ⟨k.toNat, true, h1, h2, by rw [← eq_idx]; exact h3⟩

end Sys2Proof.Machine
end

