-- ==== Sys2Proof/Laws/PerInstr.lean ====
section
/-! SUPPORT. Statements about each command as syntax, one lemma per constructor of `Instr`. The family RoundTrip:
the decoder reads a well-formed command back from the words the encoder writes (30_encoding.md R79, R83). -/

namespace Sys2Proof.Laws.RoundTrip

/-- A well-formed command is read back from its encoding. -/
def Statement (i : Instr) : Prop := i.wellFormed = true → decode (encode i) = some i

theorem nop : Statement .nop := fun _ => by decide

theorem clear : Statement .clear := fun _ => by decide

theorem build : Statement .build := fun _ => by decide

theorem gencode : Statement .gencode := fun _ => by decide

theorem count (syms : List Symbol) : Statement (.count syms) := fun _ =>
  decode_of_row (r := ⟨0x10#8, .COUNT, 0x10000000#32, 0xFFFFFFFF#32, false, .syms⟩)
    (by change rowOf (commandWord 0x10#8 0#4 0#16) = _; decide)
    (by change commandWord 0x10#8 0#4 0#16 &&& 0xFFFFFFFF#32 = _; decide) (.inr rfl) (.inl rfl)
    (.inr rfl) rfl

theorem encode (syms : List Symbol) : Statement (.encode syms) := fun _ =>
  decode_of_row (r := ⟨0x40#8, .ENCODE, 0x40000000#32, 0xFFFFFFFF#32, false, .syms⟩)
    (by change rowOf (commandWord 0x40#8 0#4 0#16) = _; decide)
    (by change commandWord 0x40#8 0#4 0#16 &&& 0xFFFFFFFF#32 = _; decide) (.inr rfl) (.inl rfl)
    (.inr rfl) rfl

theorem encodeAll (syms : List Symbol) : Statement (.encodeAll syms) := fun _ =>
  decode_of_row (r := ⟨0x41#8, .ENCODE_ALL, 0x41000000#32, 0xFFFFFFFF#32, false, .syms⟩)
    (by change rowOf (commandWord 0x41#8 0#4 0#16) = _; decide)
    (by change commandWord 0x41#8 0#4 0#16 &&& 0xFFFFFFFF#32 = _; decide) (.inr rfl) (.inl rfl)
    (.inr rfl) rfl

theorem decode (bits : List Bit) : Statement (.decode bits) := fun _ =>
  decode_of_row (r := ⟨0x50#8, .DECODE, 0x50000000#32, 0xFFFFFFFF#32, false, .bits⟩)
    (by change rowOf (commandWord 0x50#8 0#4 0#16) = _; decide)
    (by change commandWord 0x50#8 0#4 0#16 &&& 0xFFFFFFFF#32 = _; decide) (.inr rfl) (.inr rfl)
    (.inl rfl) rfl

theorem rootWr (d : Word) : Statement (.rootWr d) := fun h =>
  decode_of_row (r := ⟨0x23#8, .ROOT_WR, 0x23000000#32, 0xFFFFFFFF#32, true, .none⟩)
    (by change rowOf (commandWord 0x23#8 0#4 0#16) = _; decide)
    (by change commandWord 0x23#8 0#4 0#16 &&& 0xFFFFFFFF#32 = _; decide) (.inl rfl) (.inr rfl)
    (.inr rfl) h

/-- The mask of a row with a symbol operand leaves the pattern (R79). -/
theorem symbol_mask (o : BitVec 8) (sel : BitVec 4) (c : Symbol) (m : Word) (hs : sel &&& selField m = 0#4)
    (hm : m.extractLsb' 0 16 = 0xFF00#16) (ho : o &&& opcField m = o) :
    commandWord o sel (c.setWidth 16) &&& m = commandWord o 0#4 0#16 := by
  rw [commandWord_and, hs, hm, ho, setWidth_and_eq_zero c _ (by decide)]

/-- The mask of a row with a node operand leaves the pattern (R79). -/
theorem node_mask (o : BitVec 8) (sel : NodeSel) (i : NodeIdx) (ho : o &&& 0xFF#8 = o) :
    commandWord o sel.bits (i.setWidth 16) &&& 0xFFFEFE00#32 = commandWord o 0#4 0#16 := by
  rw [commandWord_and, show opcField 0xFFFEFE00#32 = 0xFF#8 by decide, ho,
    show BitVec.extractLsb' 0 16 0xFFFEFE00#32 = 0xFE00#16 by decide, setWidth_and_eq_zero i _ (by decide)]
  cases sel <;> rfl

theorem symbolField_commandWord (o : BitVec 8) (sel : BitVec 4) (c : Symbol) :
    symbolField (commandWord o sel (c.setWidth 16)) = c := by
  rw [symbolField, idx_commandWord _ _ _ _ (by decide)]
  simp

theorem nodeField_commandWord (o : BitVec 8) (sel : BitVec 4) (i : NodeIdx) :
    nodeField (commandWord o sel (i.setWidth 16)) = i := by
  rw [nodeField, idx_commandWord _ _ _ _ (by decide)]
  simp

theorem registerField_commandWord (o : BitVec 8) (sel : BitVec 4) (r : BitVec 2) :
    registerField (commandWord o sel (r.setWidth 16)) = r := by
  rw [registerField, idx_commandWord _ _ _ _ (by decide)]
  simp

theorem nodeSelField_commandWord (o : BitVec 8) (sel : NodeSel) (x : BitVec 16) :
    nodeSelField (commandWord o sel.bits x) = sel := by
  rw [nodeSelField, selField_commandWord]
  cases sel <;> rfl

theorem regRd (r : BitVec 2) : Statement (.regRd r) := fun _ => by
  have h := decode_of_row (c := Sys2Proof.encode (.regRd r))
    (r := ⟨0x02#8, .REG_RD, 0x02000000#32, 0xFFFFFFFC#32, false, .none⟩)
    (by rw [Sys2Proof.encode, rowOf_commandWord]; rfl)
    (by
      rw [Sys2Proof.encode, commandWord_and, show opcField 0xFFFFFFFC#32 = 0xFF#8 by decide,
        show BitVec.extractLsb' 0 16 0xFFFFFFFC#32 = 0xFFFC#16 by decide, setWidth_and_eq_zero r _ (by decide)]
      rfl)
    (.inr rfl) (.inr rfl) (.inr rfl) rfl
  rw [h]
  simp only [assemble, Sys2Proof.encode, registerField_commandWord]

theorem freqRd (c : Symbol) : Statement (.freqRd c) := fun _ => by
  have h := decode_of_row (c := Sys2Proof.encode (.freqRd c))
    (r := ⟨0x12#8, .FREQ_RD, 0x12000000#32, 0xFFFFFF00#32, false, .none⟩)
    (by rw [Sys2Proof.encode, rowOf_commandWord]; rfl)
    (symbol_mask _ _ c _ (by decide) (by decide) (by decide)) (.inr rfl) (.inr rfl) (.inr rfl) rfl
  rw [h]
  simp only [assemble, Sys2Proof.encode, symbolField_commandWord]

theorem freqWr (c : Symbol) (n : Word) : Statement (.freqWr c n) := fun _ => by
  have h := decode_of_row (c := Sys2Proof.encode (.freqWr c n))
    (r := ⟨0x11#8, .FREQ_WR, 0x11000000#32, 0xFFFFFF00#32, true, .none⟩)
    (by rw [Sys2Proof.encode, rowOf_commandWord]; rfl)
    (symbol_mask _ _ c _ (by decide) (by decide) (by decide)) (.inl rfl) (.inr rfl) (.inr rfl) rfl
  rw [h]
  simp only [assemble, Sys2Proof.encode, symbolField_commandWord]

theorem codeRd (c : Symbol) (sel : BitVec 4) : Statement (.codeRd c sel) := fun hw => by
  have he : assemble .CODE_RD (Sys2Proof.encode (.codeRd c sel)) = .codeRd c sel := by
    simp only [assemble, Sys2Proof.encode, symbolField_commandWord, selField_commandWord]
  have h := decode_of_row (c := Sys2Proof.encode (.codeRd c sel))
    (r := ⟨0x31#8, .CODE_RD, 0x31000000#32, 0xFFF0FF00#32, false, .none⟩)
    (by rw [Sys2Proof.encode, rowOf_commandWord]; rfl)
    (symbol_mask _ sel c _ (by simp [show selField 0xFFF0FF00#32 = 0#4 by decide]) (by decide) (by decide))
    (.inr rfl) (.inr rfl) (.inr rfl) (by rw [he]; exact hw)
  rw [h, he]

theorem nodeRd (i : NodeIdx) (sel : NodeSel) : Statement (.nodeRd i sel) := fun hw => by
  have he : assemble .NODE_RD (Sys2Proof.encode (.nodeRd i sel)) = .nodeRd i sel := by
    simp only [assemble, Sys2Proof.encode, nodeField_commandWord, nodeSelField_commandWord]
  have h := decode_of_row (c := Sys2Proof.encode (.nodeRd i sel))
    (r := ⟨0x21#8, .NODE_RD, 0x21000000#32, 0xFFFEFE00#32, false, .none⟩)
    (by rw [Sys2Proof.encode, rowOf_commandWord]; rfl)
    (node_mask _ sel i (by decide)) (.inr rfl) (.inr rfl) (.inr rfl) (by rw [he]; exact hw)
  rw [h, he]

theorem nodeWr (i : NodeIdx) (sel : NodeSel) (d : Word) : Statement (.nodeWr i sel d) := fun hw => by
  have he : assemble .NODE_WR (Sys2Proof.encode (.nodeWr i sel d)) = .nodeWr i sel d := by
    simp only [assemble, Sys2Proof.encode, nodeField_commandWord, nodeSelField_commandWord]
  have h := decode_of_row (c := Sys2Proof.encode (.nodeWr i sel d))
    (r := ⟨0x22#8, .NODE_WR, 0x22000000#32, 0xFFFEFE00#32, true, .none⟩)
    (by rw [Sys2Proof.encode, rowOf_commandWord]; rfl)
    (node_mask _ sel i (by decide)) (.inl rfl) (.inr rfl) (.inr rfl) (by rw [he]; exact hw)
  rw [h, he]

end Sys2Proof.Laws.RoundTrip
end

