-- ==== Sys2Proof/Tests/Slice0.lean ====
section
/-! SUPPORT. The model's own tests. Expected values are those of spec/95_test_vectors.md, named by their vector, or
worked out from the rule named. The second half shows, for each obligation with hypotheses, a concrete case that
meets them together. -/

namespace Sys2Proof.Tests

set_option Elab.async false

open Sys2Proof.Machine

/-! ### Helpers -/

/-- The state after a command, or the state before it if the command gives none. -/
def doOne (s : State) (i : Instr) : State :=
  match exec i s with
  | .next t => t
  | .fault _ => s
  | .refused _ => s

/-- The state after some commands from reset. -/
def after (is : List Instr) : State := is.foldl doOne State.reset

/-- The response to a command. -/
def reply (c : Command) (s : State) : Option Response :=
  match execCommand c s with
  | .next t => t.responses.getLast?
  | .fault _ => none
  | .refused _ => none

/-- The response OK. -/
def ok (o : Output) : Option Response := some (Response.success o)

/-- The response of a failure. -/
def failed (c : Cause) : Option Response := some (Response.failure c)

/-- STATUS, as REG_RD 0 reads it. -/
def status (s : State) : Word := s.register 0#2

/-- The bits of a string of zeros and ones. -/
def bits (t : String) : List Bit := t.toList.map (· == '1')

/-- "aaabbc". -/
def aaabbc : List Symbol := [0x61#8, 0x61#8, 0x61#8, 0x62#8, 0x62#8, 0x63#8]

/-- The reference tree T1. -/
def t1 : State := after [.encodeAll aaabbc]

/-- The tree of S3, a Leaf alone. -/
def leafZ : State := after [.encodeAll [0x7A#8, 0x7A#8, 0x7A#8, 0x7A#8]]

/-- A tree loaded with NODE_WR and ROOT_WR (V-C12 to V-C15): structure words by index, root 1. -/
def loaded (ws : List (NodeIdx × Word)) : State :=
  after (ws.map (fun x => .nodeWr x.1 .structureWord x.2) ++ [.rootWr 0x80000001#32])

/-- V-C12: the root has a null right child. -/
def nullRight : State := loaded [(0#9, 0x80000061#32), (1#9, 0xC01FF000#32)]

/-- V-C13: both children of the root are one node. -/
def sharedChild : State := loaded [(0#9, 0x80000061#32), (1#9, 0xC0000000#32)]

/-- V-C14: two Leaves of one symbol. -/
def twoLeaves : State := loaded [(0#9, 0x80000061#32), (2#9, 0x80000061#32), (1#9, 0xC0002000#32)]

/-- V-C15: the root is its own left child. -/
def cycle : State := loaded [(0#9, 0x80000061#32), (1#9, 0xC0200000#32)]

/-! ### Well-formedness: each check refuses an ill-formed term (R80 conditions 3, 5, 6) -/

theorem test_wellFormed_node_read : (Instr.nodeRd 511#9 .structureWord).wellFormed = false := by decide
theorem test_wellFormed_node_write : (Instr.nodeWr 511#9 .weightWord 0#32).wellFormed = false := by decide
theorem test_wellFormed_structure_word : (Instr.nodeWr 0#9 .structureWord 0x80000161#32).wellFormed = false := by decide
theorem test_wellFormed_root_word : (Instr.rootWr 0x80000200#32).wellFormed = false := by decide
theorem test_wellFormed_code_sel : (Instr.codeRd 0x63#8 9#4).wellFormed = false := by decide
theorem test_wellFormed_last_node : (Instr.nodeWr 510#9 .structureWord 0xFFFFF0FF#32).wellFormed = true := by decide
theorem test_wellFormed_weight_word : (Instr.nodeWr 0#9 .weightWord 0xFFFFFFFF#32).wellFormed = true := by decide

/-! ### Decoding: words of the vectors and of R71, R79 -/

theorem test_decode_nop : decode { cmd := 0x00000000#32 } = some .nop := by decide
theorem test_decode_clear : decode { cmd := 0x01000000#32 } = some .clear := by decide
theorem test_decode_regRd : decode { cmd := 0x02000003#32 } = some (.regRd 3#2) := by decide
theorem test_decode_count : decode { cmd := 0x10000000#32, syms := [0x62#8] } = some (.count [0x62#8]) := by decide
/-- V-A7. -/
theorem test_decode_freqWr : decode { cmd := 0x11000061#32, data := 0xFFFFFFFF#32 } = some (.freqWr 0x61#8 0xFFFFFFFF#32) := by
  decide
theorem test_decode_freqRd : decode { cmd := 0x1200007A#32 } = some (.freqRd 0x7A#8) := by decide
theorem test_decode_build : decode { cmd := 0x20000000#32 } = some .build := by decide
/-- V-B13: node 510, weight word. -/
theorem test_decode_nodeRd : decode { cmd := 0x210101FE#32 } = some (.nodeRd 510#9 .weightWord) := by decide
/-- V-B17. -/
theorem test_decode_nodeWr : decode { cmd := 0x22000007#32, data := 0x7FFFF0FF#32 }
    = some (.nodeWr 7#9 .structureWord 0x7FFFF0FF#32) := by decide
/-- V-B22. -/
theorem test_decode_rootWr : decode { cmd := 0x23000000#32, data := 0x800001FF#32 } = some (.rootWr 0x800001FF#32) := by decide
theorem test_decode_gencode : decode { cmd := 0x30000000#32 } = some .gencode := by decide
/-- V-C3. -/
theorem test_decode_codeRd : decode { cmd := 0x31080063#32 } = some (.codeRd 0x63#8 8#4) := by decide
theorem test_decode_encode : decode { cmd := 0x40000000#32, syms := aaabbc } = some (.encode aaabbc) := by decide
theorem test_decode_encodeAll : decode { cmd := 0x41000000#32, syms := [] } = some (.encodeAll []) := by decide
theorem test_decode_decode : decode { cmd := 0x50000000#32, bits := [true, false] } = some (.decode [true, false]) := by decide
/-- V-F2 to V-F4, V-F6, V-F7, V-A9, V-B15, V-B16: reserved opcodes and bits. -/
theorem test_decode_illegal_words :
    ([0x00000001#32, 0x03000000#32, 0x51000000#32, 0xFF000000#32, 0x20100000#32, 0x02000004#32, 0x02010000#32,
      0x11000100#32, 0x21020003#32, 0x21000200#32, 0x210001FF#32, 0x31090063#32, 0x01000001#32].map
        (fun w => decode { cmd := w })).all Option.isNone = true := by decide
/-- V-A10, V-A11, V-B18, V-B20, V-B23, V-E18: operands and streams a row does not take. -/
theorem test_decode_illegal_operands :
    ([{ cmd := 0x12000061#32, data := 1#32 }, { cmd := 0x10000000#32, bits := [true] },
      { cmd := 0x22000000#32, data := 0x80000161#32 }, { cmd := 0x23000000#32, data := 0x80000200#32 },
      { cmd := 0x20000000#32, data := 1#32 }, { cmd := 0x50000000#32, syms := [0x61#8], bits := [false] }].map
        decode).all Option.isNone = true := by decide
/-- The table's numbering: CMD in bits 31..0, DATA above (V-B17). -/
theorem test_decode_table_word : decodeTableWord 64 0x7FFFF0FF22000007 = some (.nodeWr 7#9 .structureWord 0x7FFFF0FF#32) := by
  decide
/-- A fetch word is what the next step runs: FREQ_WR 'a', 3 as the first command after reset (R102). -/
theorem test_step_fetch_word :
    (match step (State.reset.withFetchWord 64 0x0000000311000061) with
      | .next t => (t.freq.entry 0x61#8, t.pos, t.pending)
      | .fault _ => (0#32, 0, [])
      | .refused _ => (0#32, 0, [])) = (3#32, 1, []) := by decide +kernel

/-! ### One step of each command -/

/-- V-F8: NOP after a failure keeps STATUS. -/
theorem test_nop : status (doOne (doOne t1 (.encode [0x61#8, 0x62#8, 0x64#8])) .nop) = 0x32#32 := by decide +kernel
/-- V-F10: CLEAR gives the reset state. -/
theorem test_clear : (fun s : State => (s.freq.entry 0x61#8, s.node.entry 4#9, s.register 3#2, s.code.entry 0x62#8, status s,
    s.errInfo)) (doOne (doOne t1 (.encode [0x61#8, 0x62#8, 0x64#8])) .clear) = (0#32, {}, 0#32, {}, 0#32, 0#64) := by
  decide +kernel
/-- R212: the root word of T1, and STATUS after V-B1's BUILD. -/
theorem test_regRd_words : reply { cmd := 0x02000003#32 } t1 = ok { rdata := 0x80000004#32 }
    ∧ reply { cmd := 0x02000000#32 } (after [.count aaabbc, .build]) = ok { rdata := 0x10#32 } := by decide +kernel
/-- V-F13: the two words of ERR_INFO differ. -/
theorem test_regRd_info : (fun s : State => (s.register 1#2, s.register 2#2)) { State.reset with errInfo := 0x123456789ABCDEF0#64 }
    = (0x9ABCDEF0#32, 0x12345678#32) := by decide
/-- V-A1. -/
theorem test_count : [0x61#8, 0x62#8, 0x63#8, 0x7A#8].map (after [.count aaabbc]).freq.entry = [3#32, 2#32, 1#32, 0#32] := by
  decide +kernel
/-- V-A4: COUNT replaces. -/
theorem test_count_replaces : [0x61#8, 0x62#8].map (after [.count aaabbc, .count [0x62#8]]).freq.entry = [0#32, 1#32] := by
  decide +kernel
/-- V-A8: FREQ_WR leaves the tree and the table. -/
theorem test_freqWr : (fun s : State => (s.freq.entry 0x61#8, status s, (s.code.entry 0x61#8).headerWord))
    (doOne t1 (.freqWr 0x61#8 0#32)) = (0#32, 0x30#32, 0x80000001#32) := by decide +kernel
/-- V-A2. -/
theorem test_freqRd : reply { cmd := 0x12000061#32 } (after [.count aaabbc]) = ok { rdata := 3#32 } := by decide +kernel
/-- V-B1: the arena of T1. -/
theorem test_build : [0#9, 1#9, 2#9, 3#9, 4#9, 5#9].map (fun i =>
    (((after [.count aaabbc, .build]).node.entry i).structureWord, ((after [.count aaabbc, .build]).node.entry i).weight))
    = [(0x80000061#32, 3#32), (0x80000062#32, 2#32), (0x80000063#32, 1#32), (0xC0401000#32, 3#32),
        (0xC0003000#32, 6#32), (0#32, 0#32)] := by decide +kernel
/-- V-B7. -/
theorem test_build_overflow : reply { cmd := 0x20000000#32 } (after [.freqWr 0x61#8 0xFFFFFFFF#32, .freqWr 0x62#8 1#32])
    = failed .overflow := by decide +kernel
/-- V-B11. -/
theorem test_nodeRd : reply { cmd := 0x21000003#32 } t1 = ok { rdata := 0xC0401000#32 } := by decide +kernel
/-- V-B12. -/
theorem test_nodeRd_weight : reply { cmd := 0x21010003#32 } t1 = ok { rdata := 3#32 } := by decide +kernel
/-- V-B17: stored as written, code table cleared, root kept. -/
theorem test_nodeWr : (fun s : State => (s.node.entry 7#9, status s, s.rootIdx))
    (doOne t1 (.nodeWr 7#9 .structureWord 0x7FFFF0FF#32)) = (⟨false, .internal, 511#9, 511#9, 0xFF#8, 0#32⟩, 0x10#32, 4#9) := by
  decide +kernel
/-- V-B19: the weight word leaves the structure. -/
theorem test_nodeWr_weight : (fun s : State => (s.node.entry 0#9, status s)) (doOne t1 (.nodeWr 0#9 .weightWord 9#32))
    = (⟨true, .leaf, 0#9, 0#9, 0x61#8, 9#32⟩, 0x10#32) := by decide +kernel
/-- V-B22: a root that names no node. -/
theorem test_rootWr : (fun s : State => (s.register 3#2, status s)) (doOne t1 (.rootWr 0x800001FF#32))
    = (0x800001FF#32, 0x10#32) := by decide +kernel
/-- V-B20: nothing but the error record. -/
theorem test_rootWr_reserved : (fun s : State => (s.register 3#2, status s)) (doOne t1 (.rootWr 0x80000200#32))
    = (0x80000004#32, 0x35#32) := by decide +kernel
/-- V-C1 with V-C2's words: a = 0, c = 10, b = 11. -/
theorem test_gencode : [0x61#8, 0x62#8, 0x63#8].map (fun c =>
      (fun e : CodeEntry => (e.headerWord, e.valueWord 0)) ((after [.count aaabbc, .build, .gencode]).code.entry c))
    = [(0x80000001#32, 0#32), (0x80000002#32, 3#32), (0x80000002#32, 2#32)] := by decide +kernel
/-- V-C12 to V-C15: each defect of R153. -/
theorem test_gencode_defects : [nullRight, sharedChild, twoLeaves, cycle].map (reply { cmd := 0x30000000#32 })
    = [failed .invalidTree, failed .invalidTree, failed .invalidTree, failed .invalidTree] := by decide +kernel
/-- V-C2. -/
theorem test_codeRd : reply { cmd := 0x31010063#32 } t1 = ok { rdata := 2#32 } := by decide +kernel
/-- V-C3. -/
theorem test_codeRd_high : reply { cmd := 0x31080063#32 } t1 = ok {} := by decide +kernel
/-- V-D1. -/
theorem test_encode : reply { cmd := 0x40000000#32, syms := [0x61#8, 0x62#8, 0x63#8] } t1 = ok { outBits := bits "01110" } := by
  decide +kernel
/-- V-D3: the index of the unknown symbol. -/
theorem test_encode_unknown : (fun s : State => (s.errInfo, status s)) (doOne t1 (.encode [0x61#8, 0x62#8, 0x64#8]))
    = (2#64, 0x32#32) := by decide +kernel
/-- S1. -/
theorem test_encodeAll : reply { cmd := 0x41000000#32, syms := aaabbc } State.reset = ok { outBits := bits "000111110" } := by
  decide +kernel
/-- V-D9: the empty stream leaves no counts, tree or table. -/
theorem test_encodeAll_empty : (fun s : State => (s.freq.entry 0x61#8, s.node.entry 4#9, s.register 3#2, s.code.entry 0x62#8,
    status s)) (doOne t1 (.encodeAll [])) = (0#32, {}, 0#32, {}, 0#32) := by decide +kernel
/-- V-E2. -/
theorem test_decode_run : reply { cmd := 0x50000000#32, bits := bits "10110" } t1
    = ok { outSyms := [0x63#8, 0x62#8, 0x61#8] } := by decide +kernel
/-- V-E3. -/
theorem test_decode_truncated : (fun s : State => (s.errInfo, status s)) (doOne t1 (.decode (bits "00011111")))
    = (8#64, 0x33#32) := by decide +kernel

/-! ### The assembler (R85, R86) -/

/-- Lines of P1, P3, V-A6 and a comment. -/
theorem test_asm_lines :
    Asm.program ["HUFF_ENCODE \"ab\" ; a comment", "NODE_RD 4, S", "CODE_RD 'b', 1", "", "COUNT [0x00, 0xFF]",
      "DECODE b\"01\"", "FREQ_WR 'a', 0xFFFFFFFF", "REG_RD INFO_HI", "COUNT \"\""]
    = some [{ cmd := 0x41000000#32, syms := [0x61#8, 0x62#8] }, { cmd := 0x21000004#32 }, { cmd := 0x31010062#32 },
        { cmd := 0x10000000#32, syms := [0x00#8, 0xFF#8] }, { cmd := 0x50000000#32, bits := [false, true] },
        { cmd := 0x11000061#32, data := 0xFFFFFFFF#32 }, { cmd := 0x02000002#32 }, { cmd := 0x10000000#32 }] := by
  decide +kernel
/-- R85: the characters `'`, `,` and `;` in quotes, before a comma and before a comment. -/
theorem test_asm_quoted :
    Asm.program ["FREQ_WR ''', 1", "CODE_RD ''', H", "FREQ_RD ''' ; a comment", "FREQ_WR ',', 2", "FREQ_RD ';' ; '"]
    = some [{ cmd := 0x11000027#32, data := 1#32 }, { cmd := 0x31000027#32 }, { cmd := 0x12000027#32 },
        { cmd := 0x1100002C#32, data := 2#32 }, { cmd := 0x1200003B#32 }] := by decide +kernel
/-- P3's pseudo-instructions. -/
theorem test_asm_pseudo : Asm.program ["LEAF 1, 'y', 1", "INODE 2, 0, 1, 2", "SETROOT 2"]
    = some [{ cmd := 0x22000001#32, data := 0x80000079#32 }, { cmd := 0x22010001#32, data := 1#32 },
        { cmd := 0x22000002#32, data := 0xC0001000#32 }, { cmd := 0x22010002#32, data := 2#32 },
        { cmd := 0x23000000#32, data := 0x80000002#32 }] := by decide +kernel

/-! ### Witnesses: each obligation's hypotheses met together -/

/-- A tree GENCODE accepts has no defect. -/
theorem sound_of_ok {A : Arena} {v : Bool} {r : NodeIdx} (h : (generateTable A v r).isOk = true) :
    ¬ Malformed A v r := by
  obtain ⟨hm, -⟩ | ⟨-, he⟩ := generateTable_cases A v r
  · exact hm
  · rw [he] at h
    cases h

theorem t1_sound : ¬ Malformed t1.node t1.rootValid t1.rootIdx := sound_of_ok (by decide +kernel)

theorem leafZ_sound : ¬ Malformed leafZ.node leafZ.rootValid leafZ.rootIdx := sound_of_ok (by decide +kernel)

/-- Codes of T1: `0` for a, `11` for b (V-C1). -/
theorem t1_code_a : HasCode t1.node t1.rootIdx 0x61#8 [false] :=
  ⟨[false], 0#9, by decide +kernel, by decide +kernel, by decide +kernel, rfl⟩

theorem t1_code_b : HasCode t1.node t1.rootIdx 0x62#8 [true, true] :=
  ⟨[true, true], 1#9, by decide +kernel, by decide +kernel, by decide +kernel, rfl⟩

theorem witness_StepsThatRunNoCommand :
    State.reset.pending = []
    ∧ ({ State.reset with pending := [.reset, .powerLoss] } : State).pending = .reset :: [.powerLoss]
    ∧ ({ State.reset with pending := [.secondHost { cmd := 0#32 }] } : State).pending = .secondHost { cmd := 0#32 } :: []
    ∧ ({ State.reset with pending := [.powerLoss] } : State).pending = .powerLoss :: [] := ⟨rfl, rfl, rfl, rfl⟩

theorem witness_StepRunsTheDecodedCommand :
    (State.reset.issue { cmd := 0x12000061#32 }).pending = .command { cmd := 0x12000061#32 } :: []
    ∧ decode { cmd := 0x12000061#32 } = some (.freqRd 0x61#8) := ⟨rfl, by decide⟩

theorem witness_EveryCommandTakesOneStep :
    (State.reset.issue { cmd := 0xFF000000#32 }).pending = .command { cmd := 0xFF000000#32 } :: [] := rfl

theorem witness_CommandsRightAfterReset : [0x00#8] ≠ [] ∧ [false] ≠ [] := by decide

/-- Each condition of R80, at a boundary of its range where it has one. -/
theorem witness_IllegalCommandsRaise :
    IllegalForm { cmd := 0x03000000#32 } ∧ IllegalForm { cmd := 0xFF000000#32 }
    ∧ IllegalForm { cmd := 0x00000001#32 } ∧ IllegalForm { cmd := 0x02000004#32 }
    ∧ IllegalForm { cmd := 0x210001FF#32 } ∧ IllegalForm { cmd := 0x220101FF#32 } ∧ IllegalForm { cmd := 0x31090063#32 }
    ∧ IllegalForm { cmd := 0x12000061#32, data := 1#32 }
    ∧ IllegalForm { cmd := 0x22000000#32, data := 0x80000161#32 }
    ∧ IllegalForm { cmd := 0x23000000#32, data := 0x80000200#32 }
    ∧ IllegalForm { cmd := 0x50000000#32, syms := [0x61#8] }
    ∧ IllegalForm { cmd := 0x10000000#32, bits := [true] } :=
  ⟨.noRow (by decide), .noRow (by decide),
    .mask ⟨0x00#8, .NOP, 0x00000000#32, 0xFFFFFFFF#32, false, .none⟩ (by decide) (by decide) (by decide),
    .mask ⟨0x02#8, .REG_RD, 0x02000000#32, 0xFFFFFFFC#32, false, .none⟩ (by decide) (by decide) (by decide),
    .node (.inl (by decide)) (by decide), .node (.inr (by decide)) (by decide), .sel (by decide) (by decide),
    .data ⟨0x12#8, .FREQ_RD, 0x12000000#32, 0xFFFFFF00#32, false, .none⟩ (by decide) (by decide) rfl (by decide),
    .structureWord (by decide) (by decide) (by decide), .rootWord (by decide) (by decide),
    .syms ⟨0x50#8, .DECODE, 0x50000000#32, 0xFFFFFFFF#32, false, .bits⟩ (by decide) (by decide) (by decide) (by decide),
    .bits ⟨0x10#8, .COUNT, 0x10000000#32, 0xFFFFFFFF#32, false, .syms⟩ (by decide) (by decide) (by decide) (by decide)⟩

/-- Both ends of every reserved range, and a word that selects a row. -/
theorem witness_CodesAreUnambiguous :
    ([0x03000000#32, 0x0F000000#32, 0x13000000#32, 0x1F000000#32, 0x24000000#32, 0x2F000000#32, 0x32000000#32,
      0x3F000000#32, 0x42000000#32, 0x4F000000#32, 0x51000000#32, 0xFF000000#32].map (fun w => (opcField w).toNat))
      = [0x03, 0x0F, 0x13, 0x1F, 0x24, 0x2F, 0x32, 0x3F, 0x42, 0x4F, 0x51, 0xFF]
    ∧ (⟨0x21#8, .NODE_RD, 0x21000000#32, 0xFFFEFE00#32, false, .none⟩ : Row) ∈ opcodeTable
    ∧ 0x210101FE#32 &&& 0xFFFEFE00#32 = 0x21000000#32 := by decide

theorem witness_DecodeOfEncode : (Instr.nodeWr 510#9 .structureWord 0xFFFFF0FF#32).wellFormed = true
    ∧ (Instr.codeRd 0xFF#8 8#4).wellFormed = true ∧ (Instr.rootWr 0x800001FF#32).wellFormed = true := by decide

theorem witness_EncodeOfDecode : decode { cmd := 0x310800FF#32 } = some (.codeRd 0xFF#8 8#4) := by decide

theorem witness_IllFormedTermsAreIllegal : (Instr.codeRd 0x63#8 9#4).wellFormed = false
    ∧ (Instr.nodeRd 511#9 .weightWord).wellFormed = false := by decide

/-- The three kinds of output, and a failure. -/
theorem witness_OneResponsePerCommand :
    reply { cmd := 0x12000061#32 } t1 = ok { rdata := 3#32 }
    ∧ reply { cmd := 0x40000000#32, syms := [0x61#8] } t1 = ok { outBits := [false] }
    ∧ reply { cmd := 0x41000000#32, syms := [0x7A#8] } t1 = ok { outBits := [false] }
    ∧ reply { cmd := 0x50000000#32, bits := [false] } t1 = ok { outSyms := [0x61#8] }
    ∧ reply { cmd := 0x50000000#32, bits := [true] } t1 = failed .truncatedStream := by decide +kernel

theorem witness_FailureWritesOnlyTheErrorRecord :
    reply { cmd := 0x20000000#32 } State.reset = failed .emptyAlphabet := by decide +kernel

/-- Every cause that a short stream can raise. -/
theorem witness_CausesAndInformation :
    reply { cmd := 0x20000000#32 } State.reset = failed .emptyAlphabet
    ∧ reply { cmd := 0x40000000#32, syms := [0x61#8, 0x64#8] } t1 = failed .unknownSymbol
    ∧ reply { cmd := 0x50000000#32, bits := bits "00011111" } t1 = failed .truncatedStream
    ∧ reply { cmd := 0x30000000#32 } State.reset = failed .invalidTree
    ∧ reply { cmd := 0x50000000#32, bits := [false] } State.reset = failed .invalidTree
    ∧ reply { cmd := 0x50000000#32, bits := [false, true] } nullRight = failed .invalidTree
    ∧ nullRight.rootValid = true ∧ nullRight.node.absent nullRight.rootIdx = false
    ∧ reply { cmd := 0x00000001#32 } State.reset = failed .illegalCommand
    ∧ reply { cmd := 0x20000000#32 } (after [.freqWr 0x61#8 0xFFFFFFFF#32, .freqWr 0x62#8 1#32]) = failed .overflow := by
  decide +kernel

/-- V-F8: a failure among successes. -/
theorem witness_ErrorRecordIsSticky :
    t1.lastErr = 0#3 ∧ Instr.clear ∉ [Instr.encode [0x64#8], .nop] ∧ Instr.nop ≠ .clear
    ∧ Runs t1 [.encode [0x64#8], .nop] (doOne (doOne t1 (.encode [0x64#8])) .nop) :=
  ⟨by decide +kernel, by decide, by decide, .cons (exec_eq _ _) (.cons (exec_eq _ _) (.nil _))⟩

/-- NOP meets the premises of every row, and a command answers OK. -/
theorem witness_AccessMatrixWrites :
    ((∀ syms, Instr.nop ≠ .count syms) ∧ (∀ c n, Instr.nop ≠ .freqWr c n) ∧ (∀ syms, Instr.nop ≠ .encodeAll syms)
      ∧ Instr.nop ≠ .clear ∧ Instr.nop ≠ .build ∧ (∀ j sel d, Instr.nop ≠ .nodeWr j sel d)
      ∧ (∀ d, Instr.nop ≠ .rootWr d) ∧ Instr.nop ≠ .gencode)
    ∧ ∃ o, AnswersOk t1 (doOne t1 (.freqRd 0x61#8)) o := ⟨by simp, { rdata := 3#32 }, by unfold AnswersOk; decide +kernel⟩

theorem witness_AccessMatrixReads :
    Instr.nop ≠ .build ∧ (∀ c, Instr.nop ≠ .freqRd c) ∧ (∀ j sel, Instr.nop ≠ .nodeRd j sel) ∧ Instr.nop ≠ .gencode
    ∧ (∀ bs, Instr.nop ≠ .decode bs) ∧ (∀ r, Instr.nop ≠ .regRd r) ∧ (∀ c sel, Instr.nop ≠ .codeRd c sel)
    ∧ (∀ syms, Instr.nop ≠ .encode syms) := by simp

theorem witness_RepeatedAccess :
    (Instr.nodeRd 510#9 .weightWord).isRead = true ∧ (Instr.nodeRd 510#9 .weightWord).wellFormed = true
    ∧ ∃ j sel d, Instr.nodeWr 510#9 .weightWord 7#32 = .nodeWr j sel d := ⟨rfl, by decide, _, _, _, rfl⟩

theorem witness_RegisterReads : (0#2).toNat = 0 ∧ (1#2).toNat = 1 ∧ (2#2).toNat = 2 ∧ (3#2).toNat = 3 := by decide

/-- The longest accepted stream (V-A13). -/
theorem witness_CountCountsTheStream : (List.replicate 0xFFFFFFFF 0x61#8).length ≤ 0xFFFFFFFF := by
  rw [List.length_replicate]

/-- The shortest stream that is too long (V-A12). -/
theorem witness_LongSymbolStreamsOverflow : 0xFFFFFFFF < (List.replicate 0x100000000 0x61#8).length := by
  rw [List.length_replicate]; decide

theorem witness_FreqWrWritesOneCount : (0x62#8 : Symbol) ≠ 0x61#8 := by decide

theorem witness_BuildOfEmptyTable : ∀ c : Symbol, State.reset.freq.entry c = 0#32 := fun c => FreqTable.entry_zero c

/-- Two counts just above the limit, and just at it (V-B7, V-B8). -/
theorem witness_BuildOverflowsExactly :
    (2 ≤ (after [.freqWr 0x61#8 0xFFFFFFFF#32, .freqWr 0x62#8 1#32]).freq.symbolCount
      ∧ (after [.freqWr 0x61#8 0xFFFFFFFF#32, .freqWr 0x62#8 1#32]).freq.total = 0x100000000)
    ∧ (after [.freqWr 0x61#8 0xFFFFFFFE#32, .freqWr 0x62#8 1#32]).freq.total = 0xFFFFFFFF
    ∧ reply { cmd := 0x20000000#32 } (after [.freqWr 0x61#8 0xFFFFFFFE#32, .freqWr 0x62#8 1#32]) = ok {} := by decide +kernel

/-- One symbol with the largest count (V-B4), and two at the limit (V-B8); a stream for ENCODE_ALL. -/
theorem witness_BuildLeavesTheTree :
    ((after [.freqWr 0x61#8 0xFFFFFFFF#32]).freq.entry 0x61#8 ≠ 0#32
      ∧ (after [.freqWr 0x61#8 0xFFFFFFFF#32]).freq.symbolCount = 1)
    ∧ ((after [.freqWr 0x61#8 0xFFFFFFFE#32, .freqWr 0x62#8 1#32]).freq.entry 0x61#8 ≠ 0#32
      ∧ (after [.freqWr 0x61#8 0xFFFFFFFE#32, .freqWr 0x62#8 1#32]).freq.total ≤ 0xFFFFFFFF)
    ∧ aaabbc ≠ [] ∧ aaabbc.length ≤ 0xFFFFFFFF := by decide +kernel

theorem sameTree_freqWr (c : Symbol) (n : Word) (s : State) : SameTree s (doOne s (.freqWr c n)) := ⟨rfl, rfl, rfl⟩

theorem witness_TreeReadersAreFunctionsOfTheTree : SameTree t1 (doOne t1 (.freqWr 0x61#8 0#32)) :=
  sameTree_freqWr _ _ _

theorem witness_BuildIsAFunctionOfFreq : SameFreq (after [.count aaabbc]) (doOne (after [.count aaabbc]) .gencode) := by
  unfold SameFreq
  have h : exec .gencode (after [.count aaabbc])
      = .next ((after [.count aaabbc]).raise (Raise.of .invalidTree 0)) := exec_error (by decide +kernel)
  simp only [doOne, h]
  rfl

theorem witness_NodeRdReadsAWord : (510#9 : NodeIdx) ≠ 511#9 := by decide

theorem witness_NodeWrWritesAWord : (510#9 : NodeIdx) ≠ 511#9 ∧ (0x7FFFF0FF#32 : Word).extractLsb' 8 4 = 0#4
    ∧ (0#9 : NodeIdx) ≠ 510#9 := by decide

theorem witness_WordsReadBackAsWritten : (0#9 : NodeIdx) ≠ 511#9 ∧ (0xC0001000#32 : Word).extractLsb' 8 4 = 0#4
    ∧ (0x800001FF#32 : Word).extractLsb' 9 22 = 0#22 := by decide

theorem witness_RootWrSetsTheRoot : (0x800001FF#32 : Word).extractLsb' 9 22 = 0#22 := by decide

/-- Each condition of R153 (V-C11, V-C12, V-C13, V-C15, V-C14, V-C16), and a tree with none. -/
theorem witness_GencodeFailsExactlyOnDefects :
    Malformed State.reset.node State.reset.rootValid State.reset.rootIdx
    ∧ Malformed (doOne t1 (.rootWr 0x80000005#32)).node true 5#9
    ∧ Malformed nullRight.node nullRight.rootValid nullRight.rootIdx
    ∧ Malformed sharedChild.node sharedChild.rootValid sharedChild.rootIdx
    ∧ Malformed cycle.node cycle.rootValid cycle.rootIdx
    ∧ Malformed twoLeaves.node twoLeaves.rootValid twoLeaves.rootIdx
    ∧ ¬ Malformed t1.node t1.rootValid t1.rootIdx :=
  ⟨.noRoot (.inl rfl), .noRoot (.inr (by decide +kernel)),
    .nullChild [] 1#9 true (by decide +kernel) (by decide +kernel) (by decide +kernel),
    .shared [false] [true] 0#9 (by decide) (by decide +kernel) (by decide +kernel),
    .shared [] [false] 1#9 (by decide) (by decide +kernel) (by decide +kernel),
    .duplicate [false] [true] 0#9 2#9 (by decide) (by decide +kernel) (by decide +kernel) (by decide +kernel)
      (by decide +kernel) (by decide +kernel), t1_sound⟩

/-- T1, a leaf of it, and a symbol that is none of its leaves'. -/
theorem witness_GencodeWritesPathCodes :
    ¬ Malformed t1.node t1.rootValid t1.rootIdx ∧ (t1.node.entry t1.rootIdx).kind = .internal
    ∧ (t1.node.follow t1.rootIdx [true, true] = some 1#9 ∧ (t1.node.entry 1#9).kind = .leaf)
    ∧ ∀ (p : List Bit) (i : NodeIdx), t1.node.follow t1.rootIdx p = some i → (t1.node.entry i).kind = .leaf →
        (t1.node.entry i).symbol ≠ 0x7A#8 := by
  refine ⟨t1_sound, by decide +kernel, by decide +kernel, fun p i hp hk hs => ?_⟩
  obtain ⟨-, T, hT, hO⟩ | ⟨hm, -⟩ := generateTable_cases t1.node t1.rootValid t1.rootIdx
  · have hz : ((generateTable t1.node t1.rootValid t1.rootIdx).toOption.map (fun T => (T.entry 0x7A#8).cvalid)) = some false := by
      decide +kernel
    rw [hT] at hz
    have hv := (hO.cvalid_iff 0x7A#8).mpr ⟨_, p, i, hp, hk, hs, rfl⟩
    simp [Except.toOption, hv] at hz
  · exact t1_sound hm

theorem witness_GencodeOfLeafRoot :
    leafZ.rootValid = true ∧ leafZ.rootIdx ≠ 511#9 ∧ (leafZ.node.entry leafZ.rootIdx).valid = true
    ∧ (leafZ.node.entry leafZ.rootIdx).kind = .leaf := by decide +kernel

theorem witness_CodeLengthBound :
    AnswersOk t1 (doOne t1 .gencode) {} ∧ ((doOne t1 .gencode).code.entry 0x62#8).cvalid = true := by
  unfold AnswersOk
  decide +kernel

/-- A tree with an Internal root and one with a Leaf root, and codes that meet the clauses. -/
theorem witness_PrefixFreeAndComplete :
    (¬ Malformed t1.node t1.rootValid t1.rootIdx ∧ (t1.node.entry t1.rootIdx).kind = .internal)
    ∧ (¬ Malformed leafZ.node leafZ.rootValid leafZ.rootIdx ∧ (leafZ.node.entry leafZ.rootIdx).kind = .leaf)
    ∧ ((doOne leafZ .gencode).code.entry 0x7A#8) = CodeEntry.ofPath [false]
    ∧ (CodeEntry.ofPath [false]).Stores [false] ∧ [false] <+: [false] :=
  ⟨⟨t1_sound, by decide +kernel⟩, ⟨leafZ_sound, by decide +kernel⟩, by decide +kernel, stores_ofPath (by decide),
    List.prefix_refl _⟩

theorem witness_CodeRdReadsAWord : 1 ≤ (1#4).toNat ∧ (8#4).toNat ≤ 8 := by decide

/-- a has the count 3 and c the count 1. -/
theorem witness_HigherCountNoLongerCode :
    t1.freq.entry 0x63#8 ≠ 0#32 ∧ (t1.freq.entry 0x63#8).toNat < (t1.freq.entry 0x61#8).toNat
    ∧ t1.freq.total ≤ 0xFFFFFFFF ∧ aaabbc.length ≤ 0xFFFFFFFF := by decide +kernel

theorem witness_EncodeConcatenatesCodes :
    aaabbc.length ≤ 0xFFFFFFFFFFFFFFFF ∧ ∀ c ∈ aaabbc, (t1.code.entry c).cvalid = true := by decide +kernel

theorem t1_a_valid (n : Nat) : ∀ d ∈ List.replicate n 0x61#8, (t1.code.entry d).cvalid = true := by
  intro d hd
  rw [List.eq_of_mem_replicate hd]
  decide +kernel

/-- The last index that can be reported, and the limit (V-D13). -/
theorem witness_EncodeStopsAtTheFirstError :
    ((∀ d ∈ List.replicate 0xFFFFFFFFFFFFFFFE 0x61#8, (t1.code.entry d).cvalid = true)
      ∧ (t1.code.entry 0x64#8).cvalid = false
      ∧ (List.replicate 0xFFFFFFFFFFFFFFFE 0x61#8).length < 0xFFFFFFFFFFFFFFFF)
    ∧ (∀ d ∈ List.replicate 0xFFFFFFFFFFFFFFFF 0x61#8, (t1.code.entry d).cvalid = true)
    ∧ (List.replicate 0xFFFFFFFFFFFFFFFF 0x61#8).length = 0xFFFFFFFFFFFFFFFF ∧ [0x61#8] ≠ [] :=
  ⟨⟨t1_a_valid _, by decide +kernel, by rw [List.length_replicate]; decide⟩, t1_a_valid _, List.length_replicate,
    by decide⟩

theorem witness_OutputLength :
    exec (.encode [0x61#8, 0x62#8]) t1 = .next (t1.respond { outBits := [false, true, true] })
    ∧ AnswersOk t1 (t1.respond { outBits := [false, true, true] }) { outBits := [false, true, true] } := by
  have h : encodeStream t1.code [0x61#8, 0x62#8] = .ok [false, true, true] := by decide +kernel
  exact ⟨exec_ok (by simp only [effect, h]; rfl), rfl⟩

theorem witness_EncodeAllIsTheSequence : aaabbc ≠ [] ∧ aaabbc.length ≤ 0xFFFFFFFF := by decide

/-- Commands in between that leave the tree (R173). -/
theorem witness_RoundTrip :
    aaabbc.length ≤ 0xFFFFFFFF ∧ (∀ i ∈ [Instr.count [0x78#8], .gencode], i.keepsTree = true)
    ∧ Runs t1 [.count [0x78#8], .gencode] (doOne (doOne t1 (.count [0x78#8])) .gencode) :=
  ⟨by decide, by decide, .cons (exec_eq _ _) (.cons (exec_eq _ _) (.nil _))⟩

/-- ENCODE_ALL leaves a table that matches the tree. -/
theorem complete_encodeAll_matches {syms : List Symbol} (hl : syms.length ≤ Config.SYM_STREAM_MAX) (s : State) :
    TableMatchesTree (s.complete (effect (.encodeAll syms) s)) := by
  cases he : effect (.encodeAll syms) s with
  | error e => exact absurd (encodeWhole_error he).1 (by omega)
  | ok x =>
    obtain ⟨t, o⟩ := x
    obtain ⟨-, rfl, rfl⟩ | ⟨-, A, r, T, bs, -, hT, -, rfl, rfl⟩ := encodeWhole_ok he
    · exact ⟨fun h => absurd h Bool.false_ne_true, fun _ => rfl⟩
    · exact ⟨fun _ => hT, fun h => absurd h.symm Bool.false_ne_true⟩

theorem encodeAll_matches {syms : List Symbol} (hl : syms.length ≤ Config.SYM_STREAM_MAX) (s : State) :
    TableMatchesTree (doOne s (.encodeAll syms)) := by
  unfold doOne
  rw [exec_eq]
  exact complete_encodeAll_matches hl s

theorem t1_eq : t1 = doOne State.reset (.encodeAll aaabbc) := by
  simp only [t1, after, List.foldl_cons, List.foldl_nil]

theorem matches_of_eq {s : State} (h : s = doOne State.reset (.encodeAll aaabbc)) : TableMatchesTree s :=
  h ▸ encodeAll_matches (by decide) State.reset

theorem witness_TableRoundTrip :
    TableMatchesTree t1 ∧ t1.tableValid = true ∧ (∀ c ∈ aaabbc, (t1.code.entry c).cvalid = true)
    ∧ (aaabbc.map (fun c => (t1.code.entry c).clen.toNat)).sum ≤ 0xFFFFFFFFFFFFFFFF :=
  ⟨matches_of_eq t1_eq, by decide +kernel, by decide +kernel, by decide +kernel⟩

/-- "ab" as codes of T1 (V-E1's tree). -/
theorem witness_DecodeSucceedsExactlyOnCodes :
    (∀ x ∈ [((0x61#8 : Symbol), [false]), (0x62#8, [true, true])],
      t1.rootValid = true ∧ HasCode t1.node t1.rootIdx x.1 x.2)
    ∧ ([((0x61#8 : Symbol), [false]), (0x62#8, [true, true])].flatMap Prod.snd).length ≤ 0xFFFFFFFFFFFFFFFF
    ∧ exec (.decode [false]) t1 = .next (t1.respond { outSyms := [0x61#8] })
    ∧ AnswersOk t1 (t1.respond { outSyms := [0x61#8] }) { outSyms := [0x61#8] } := by
  have h : decodeStream t1.node t1.rootValid t1.rootIdx [false] = .ok [0x61#8] := by decide +kernel
  refine ⟨?_, by decide, exec_ok (by simp only [effect, h]; rfl), rfl⟩
  intro x hx
  simp only [List.mem_cons, List.not_mem_nil, or_false] at hx
  rcases hx with rfl | rfl
  · exact ⟨by decide +kernel, t1_code_a⟩
  · exact ⟨by decide +kernel, t1_code_b⟩

/-- V-E7: three a, then one bit of another code. -/
theorem witness_DecodeOfTruncatedStream :
    (∀ x ∈ List.replicate 3 ((0x61#8 : Symbol), [false]), HasCode t1.node t1.rootIdx x.1 x.2) ∧ t1.rootValid = true
    ∧ [true] ≠ [] ∧ t1.node.follow t1.rootIdx [true] = some 3#9 ∧ (t1.node.entry 3#9).kind = .internal
    ∧ ((List.replicate 3 ((0x61#8 : Symbol), [false])).flatMap Prod.snd ++ [true]).length ≤ 0xFFFFFFFFFFFFFFFF :=
  ⟨fun _ h => List.eq_of_mem_replicate h ▸ t1_code_a, by decide +kernel, by decide, by decide +kernel,
    by decide +kernel, by decide⟩

/-- V-C11, V-C16 for the root; V-E13 for the null child, after one a. -/
theorem witness_DecodeOfBrokenTree :
    ([false] ≠ [] ∧ State.reset.rootValid = false)
    ∧ (doOne t1 (.rootWr 0x80000005#32)).node.absent 5#9 = true
    ∧ (∀ x ∈ [((0x61#8 : Symbol), [false])], HasCode nullRight.node nullRight.rootIdx x.1 x.2)
    ∧ nullRight.rootValid = true ∧ nullRight.node.follow nullRight.rootIdx [] = some 1#9
    ∧ (nullRight.node.entry 1#9).kind = .internal
    ∧ nullRight.node.absent ((nullRight.node.entry 1#9).child true) = true
    ∧ ([((0x61#8 : Symbol), [false])].flatMap Prod.snd ++ []).length < 0xFFFFFFFFFFFFFFFF := by
  refine ⟨⟨by decide, rfl⟩, by decide +kernel, ?_, by decide +kernel, by decide +kernel, by decide +kernel,
    by decide +kernel, by decide⟩
  intro x hx
  rw [List.mem_singleton] at hx
  subst hx
  exact ⟨[false], 0#9, by decide +kernel, by decide +kernel, by decide +kernel, rfl⟩

/-- A Leaf root takes any number of zeros (R192). -/
theorem leafZ_zeros (n : Nat) (h : n ≤ Config.STREAM_MAX) :
    decodeStream leafZ.node leafZ.rootValid leafZ.rootIdx (List.replicate n false) = .ok (List.replicate n 0x7A#8) := by
  have hv : leafZ.rootValid = true := by decide +kernel
  have ha : leafZ.node.absent leafZ.rootIdx = false := by decide +kernel
  have hc : HasCode leafZ.node leafZ.rootIdx 0x7A#8 [false] :=
    ⟨[], 0#9, by decide +kernel, by decide +kernel, by decide +kernel, rfl⟩
  have hz : ∀ m, (List.replicate m (0x7A#8 : Symbol)).flatMap (fun _ => [false]) = List.replicate m false := by
    intro m
    induction m with
    | zero => rfl
    | succ m ih => rw [List.replicate_succ, List.flatMap_cons, ih]; rfl
  unfold decodeStream
  rw [if_neg (by simp [hv, ha]), ← hz n]
  exact decodeFrom_codes 0 (fun c h => List.eq_of_mem_replicate h ▸ hc) (by rw [hz, List.length_replicate]; omega)

theorem leafZ_zeros_run (n : Nat) (h : n ≤ Config.STREAM_MAX) :
    ∃ t, exec (.decode (List.replicate n false)) leafZ = .next t
      ∧ ¬ Responds leafZ t (Response.failure .invalidTree) := by
  refine ⟨leafZ.respond { outSyms := List.replicate n 0x7A#8 }, exec_ok ?_, ?_⟩
  · simp only [effect, leafZ_zeros n h]
    rfl
  · intro h
    have h : leafZ.responses ++ [Response.success { outSyms := List.replicate n 0x7A#8 }]
        = leafZ.responses ++ [Response.failure .invalidTree] := h
    have h := congrArg (List.map Response.result) (List.append_cancel_left h)
    exact absurd h (by simp [Response.success, Response.failure])

theorem witness_LongBitStreamsOverflow :
    (List.replicate 0xFFFFFFFFFFFFFFFF false).length = 0xFFFFFFFFFFFFFFFF ∧ [false] ≠ []
    ∧ ∃ t, exec (.decode (List.replicate 0xFFFFFFFFFFFFFFFF false)) leafZ = .next t
        ∧ ¬ Responds leafZ t (Response.failure .invalidTree) :=
  ⟨List.length_replicate, List.cons_ne_nil _ _, leafZ_zeros_run _ (Nat.le_refl _)⟩

theorem witness_DecodeOfLeafRoot :
    leafZ.rootValid = true ∧ leafZ.rootIdx ≠ 511#9 ∧ (leafZ.node.entry leafZ.rootIdx).valid = true
    ∧ (leafZ.node.entry leafZ.rootIdx).kind = .leaf ∧ 4 ≤ 0xFFFFFFFFFFFFFFFF ∧ 0 < 0xFFFFFFFFFFFFFFFF := by decide +kernel

/-- V-E6: "aaa" and "bbc"; and a split inside the code of b. -/
theorem witness_DecodeSplits :
    (bits "000" ++ bits "111110").length ≤ 0xFFFFFFFFFFFFFFFF
    ∧ AnswersOk t1 (doOne t1 (.decode (bits "000"))) { outSyms := [0x61#8, 0x61#8, 0x61#8] }
    ∧ Responds (doOne t1 (.decode (bits "000"))) (doOne (doOne t1 (.decode (bits "000"))) (.decode (bits "111110")))
        (Response.success { outSyms := [0x62#8, 0x62#8, 0x63#8] })
    ∧ AnswersOk t1 (doOne t1 (.decode [true, true])) { outSyms := [0x62#8] }
    ∧ Responds t1 (doOne t1 (.decode [true])) (Response.failure .truncatedStream) := by
  unfold AnswersOk Responds
  decide +kernel

theorem reset_inv : Inv State.reset := ⟨⟨fun h => absurd h (by decide), fun _ => rfl⟩, by decide, fun _ => rfl⟩

/-- A state with a table: T1 meets the invariant. -/
theorem t1_inv : Inv t1 := ⟨matches_of_eq t1_eq, by decide +kernel, by decide +kernel⟩

theorem issue_inv {s : State} (h : Inv s) (c : Command) : Inv (s.issue c) := ⟨h.table, h.errors⟩

theorem witness_StepKeepsInv :
    Inv (t1.issue { cmd := 0x00000000#32 }) ∧ ∃ t, step (t1.issue { cmd := 0x00000000#32 }) = .next t :=
  ⟨issue_inv t1_inv _, _, rfl⟩

/-- A reachable state, and states of both kinds that meet the invariant. -/
theorem witness_ValidEntriesAreTheLeafSymbols :
    Reachable State.reset ∧ (Inv State.reset ∧ State.reset.tableValid = false) ∧ (Inv t1 ∧ t1.tableValid = true) :=
  ⟨⟨[], 0, rfl⟩, ⟨reset_inv, rfl⟩, t1_inv, by decide +kernel⟩

end Sys2Proof.Tests
end

/-! ### What a step does with the event that is next (00_scope.md R16; 10_state.md R21) -/

namespace Sys2Proof.Machine

theorem State.takeEvent_of_pending_cons {s : State} {e : HostEvent} {rest : List HostEvent}
    (hp : s.pending = e :: rest) :
    s.takeEvent = some (e, { s with pending := rest, pos := s.pos + 1 }) := by
  simp only [State.takeEvent, hp]

theorem step_of_pending_cons {s : State} {e : HostEvent} {rest : List HostEvent}
    (hp : s.pending = e :: rest) :
    step s = execEvent e { s with pending := rest, pos := s.pos + 1 } := by
  simp only [step, State.takeEvent_of_pending_cons hp]

theorem step_of_pending_command {s : State} {c : Command} {rest : List HostEvent}
    (hp : s.pending = .command c :: rest) :
    step s = execCommand c { s with pending := rest, pos := s.pos + 1 } :=
  step_of_pending_cons hp

theorem execCommand_of_decode_some {c : Command} {i : Instr} (hd : decode c = some i) (s : State) :
    execCommand c s = exec i s := by
  simp only [execCommand, hd]

/-- Settles O3: the step takes the command from the host's list, and the decoder gives `i` for it. -/
theorem stepRunsTheDecodedCommand : Obligations.StepRunsTheDecodedCommand := by
  intro s c rest i hp hd
  calc step s = execCommand c { s with pending := rest, pos := s.pos + 1 } := step_of_pending_command hp
    _ = exec i { s with pending := rest, pos := s.pos + 1 } := execCommand_of_decode_some hd _

end Sys2Proof.Machine

namespace Sys2Proof.Machine

/-! ### What a successful command writes (10_state.md R34) -/

/-- `Wrote s i t`: a successful `i` may leave `t` from `s`, before it responds. -/
inductive Wrote (s : State) : Instr → State → Prop where
  | nop : Wrote s .nop s
  | read (i : Instr) (hi : i.isRead = true) : Wrote s i s
  | encode (syms : List Symbol) : Wrote s (.encode syms) s
  | decode (bits : List Bit) : Wrote s (.decode bits) s
  | clear : Wrote s .clear s.toReset
  | count (syms : List Symbol) : Wrote s (.count syms) { s with freq := countTable syms }
  | freqWr (c : Symbol) (n : Word) : Wrote s (.freqWr c n) (s.writeFreq c n)
  | build (A : Arena) (r : NodeIdx) (hA : buildTree s.freq = .ok (A, r)) :
      Wrote s .build ({ s with node := A }.writeRoot true r).clearTable
  | nodeWr (j : NodeIdx) (sel : NodeSel) (d : Word) :
      Wrote s (.nodeWr j sel d) (s.writeNode j ((s.node.entry j).withWord sel d)).clearTable
  | rootWr (d : Word) : Wrote s (.rootWr d) (s.writeRoot (rootWordValid d) (rootWordIdx d)).clearTable
  | gencode (T : CodeTable) (hT : generateTable s.node s.rootValid s.rootIdx = .ok T) :
      Wrote s .gencode { s with code := T, tableValid := true }
  | encodeAllEmpty : Wrote s (.encodeAll []) ({ s with freq := countTable [] } : State).dropTree
  | encodeAll (syms : List Symbol) (A : Arena) (r : NodeIdx) (T : CodeTable)
      (hA : buildTree (countTable syms) = .ok (A, r)) (hT : generateTable A true r = .ok T) :
      Wrote s (.encodeAll syms) { s with
        freq := countTable syms, node := A, rootValid := true, rootIdx := r, code := T, tableValid := true }

theorem wrote_of_effect {i : Instr} {s t : State} {o : Output} (h : effect i s = .ok (t, o)) : Wrote s i t := by
  cases i <;> simp only [effect] at h
  case nop => cases h; exact .nop
  case regRd | freqRd => cases h; exact .read _ rfl
  case nodeRd | codeRd => cases (checked_ok h).2; exact .read _ rfl
  case encode syms => obtain ⟨_, -, h⟩ := bind_ok h; cases h; exact .encode syms
  case decode bits => obtain ⟨_, -, h⟩ := bind_ok h; cases h; exact .decode bits
  case clear => cases h; exact .clear
  case freqWr c n => cases h; exact .freqWr c n
  case nodeWr j sel d => cases (checked_ok h).2; exact .nodeWr j sel d
  case rootWr d => cases (checked_ok h).2; exact .rootWr d
  case count syms =>
    obtain ⟨u, hu, h⟩ := bind_ok h
    obtain ⟨-, rfl⟩ := countStream_ok hu
    cases h; exact .count syms
  case build =>
    obtain ⟨u, hu, h⟩ := bind_ok h
    obtain ⟨A, r, hA, rfl⟩ := buildFromFreq_ok hu
    cases h; exact .build A r hA
  case gencode =>
    obtain ⟨u, hu, h⟩ := bind_ok h
    obtain ⟨T, hT, rfl⟩ := generateCodes_ok hu
    cases h; exact .gencode T hT
  case encodeAll syms =>
    obtain ⟨rfl, rfl, -⟩ | ⟨-, A, r, T, bs, hA, hT, -, -, rfl⟩ := encodeWhole_ok h
    · exact .encodeAllEmpty
    · exact .encodeAll syms A r T hA hT

/-- A command fails and keeps the state but for the error record, or it succeeds and writes what R34 lets it
(R13, R236). -/
theorem exec_cases (i : Instr) (s : State) :
    (∃ e, exec i s = .next (s.raise e)) ∨ ∃ t o, Wrote s i t ∧ exec i s = .next (t.respond o) := by
  cases h : effect i s with
  | error e => exact .inl ⟨e, exec_error h⟩
  | ok x => exact .inr ⟨x.1, x.2, wrote_of_effect h, exec_ok h⟩

/-! ### The invariant (10_state.md R31; 60_exceptions.md R230, R238) -/

theorem Cause.code_ne_zero (c : Cause) : c.code ≠ 0#3 := by cases c <;> decide

theorem Cause.code_ne_seven (c : Cause) : c.code ≠ 7#3 := by cases c <;> decide

/-- A cleared table matches any tree. -/
theorem tableMatchesTree_of_cleared {s : State} (hv : s.tableValid = false) (hc : s.code = CodeTable.empty) :
    TableMatchesTree s :=
  ⟨fun h => absurd (hv.symm.trans h) Bool.false_ne_true, fun _ => hc⟩

/-- A table just generated from the tree matches it. -/
theorem tableMatchesTree_of_generated {s : State} (hv : s.tableValid = true)
    (hT : generateTable s.node s.rootValid s.rootIdx = .ok s.code) : TableMatchesTree s :=
  ⟨fun _ => hT, fun h => absurd (h.symm.trans hv) Bool.false_ne_true⟩

theorem Wrote.tableMatchesTree {s t : State} {i : Instr} (h : Wrote s i t) (hs : TableMatchesTree s) :
    TableMatchesTree t := by
  cases h with
  | nop | read | encode | decode | count | freqWr => exact hs
  | clear | build | nodeWr | rootWr | encodeAllEmpty => exact tableMatchesTree_of_cleared rfl rfl
  | gencode T hT => exact tableMatchesTree_of_generated rfl hT
  | encodeAll syms A r T hA hT => exact tableMatchesTree_of_generated rfl hT

/-- The record of a failure names its cause, which is neither 0 nor 7. -/
theorem State.raise_errorRecordLegal (s : State) (e : Raise) : ErrorRecordLegal (s.raise e) :=
  ⟨e.cause.code_ne_seven, fun h => absurd h e.cause.code_ne_zero⟩

theorem State.toReset_errorRecordLegal (s : State) : ErrorRecordLegal s.toReset :=
  ⟨show (0#3 : BitVec 3) ≠ 7#3 by decide, fun _ => rfl⟩

theorem Wrote.errorRecordLegal {s t : State} {i : Instr} (h : Wrote s i t) (hs : ErrorRecordLegal s) :
    ErrorRecordLegal t := by
  cases h with
  | clear => exact s.toReset_errorRecordLegal
  | _ => exact hs

theorem State.toReset_inv (s : State) : Inv s.toReset :=
  ⟨tableMatchesTree_of_cleared rfl rfl, s.toReset_errorRecordLegal⟩

theorem Inv.raise {s : State} (h : Inv s) (e : Raise) : Inv (s.raise e) :=
  ⟨h.table, s.raise_errorRecordLegal e⟩

theorem Inv.respond {s : State} (h : Inv s) (o : Output) : Inv (s.respond o) := ⟨h.table, h.errors⟩

/-- The invariant does not speak of the host. -/
theorem Inv.withHost {s : State} (h : Inv s) (pending : List HostEvent) (pos : Nat) :
    Inv { s with pending := pending, pos := pos } := ⟨h.table, h.errors⟩

theorem Inv.after_exec {s t : State} {i : Instr} (hs : Inv s) (h : exec i s = .next t) : Inv t := by
  obtain ⟨e, he⟩ | ⟨u, o, hu, ho⟩ := exec_cases i s
  · cases he.symm.trans h
    exact hs.raise e
  · cases ho.symm.trans h
    exact Inv.respond ⟨hu.tableMatchesTree hs.table, hu.errorRecordLegal hs.errors⟩ o

theorem execCommand_of_decode_none {c : Command} (hd : decode c = none) (s : State) :
    execCommand c s = .next s.illegal := by
  simp only [execCommand, hd]

theorem Inv.after_execCommand {s t : State} {c : Command} (hs : Inv s) (h : execCommand c s = .next t) : Inv t := by
  cases hd : decode c with
  | some i => exact hs.after_exec ((execCommand_of_decode_some hd s).symm.trans h)
  | none =>
    cases (execCommand_of_decode_none hd s).symm.trans h
    exact hs.raise _

theorem Inv.after_execEvent {s t : State} {e : HostEvent} (hs : Inv s) (h : execEvent e s = .next t) : Inv t := by
  cases e with
  | command c => exact hs.after_execCommand h
  | reset => cases h; exact s.toReset_inv
  | secondHost c => cases h
  | powerLoss => cases h

theorem step_of_pending_nil {s : State} (hp : s.pending = []) : step s = .next s := by
  simp only [step, State.takeEvent, hp]

/-- Settles O59, by the cases of the event that is next: a command that fails writes only a legal error record, and one
that succeeds leaves the table as it was with its tree, clears it, or generates it from the tree it leaves. -/
theorem stepKeepsInv : Obligations.StepKeepsInv := by
  intro s t hs h
  cases hp : s.pending with
  | nil =>
    cases (step_of_pending_nil hp).symm.trans h
    exact hs
  | cons e rest => exact (hs.withHost rest (s.pos + 1)).after_execEvent ((step_of_pending_cons hp).symm.trans h)

/-- Settles O58: reset leaves the state that `toReset` gives. -/
theorem invAtReset : Obligations.InvAtReset := State.reset.toReset_inv

/-! ### Reset and CLEAR (10_state.md R35) -/

theorem State.toReset_allZero (s : State) : AllZero s.toReset :=
  ⟨FreqTable.entry_zero, Arena.entry_empty, rfl, rfl, CodeTable.entry_empty, rfl, rfl, rfl⟩

/-- Settles O1: reset, the reset event and CLEAR all leave the architectural state of `toReset`. -/
theorem resetAndClearZeroEverything : Obligations.ResetAndClearZeroEverything :=
  ⟨State.reset.toReset_allZero, fun s => ⟨_, rfl, s.toReset_allZero⟩,
    fun s => ⟨_, exec_ok (o := {}) rfl, s.toReset_allZero, ⟨rfl, rfl⟩, rfl⟩⟩

/-! ### One step, one response (10_state.md R21; 70_reset_and_hazards.md R264) -/

/-- Every command, legal or not, ends in a next state with one response more, and leaves the host's list to the
step. -/
theorem execCommand_responds (c : Command) (s : State) :
    ∃ t r, execCommand c s = .next t ∧ SameHost s t ∧ Responds s t r := by
  cases hd : decode c with
  | some i =>
    obtain ⟨hh, r, hr⟩ := complete_host (i := i) s
    exact ⟨_, r, (execCommand_of_decode_some hd s).trans (exec_eq i s), hh, hr⟩
  | none => exact ⟨_, _, execCommand_of_decode_none hd s, ⟨rfl, rfl⟩, rfl⟩

/-- Settles O4: the step takes the command from the list, and the command responds once. -/
theorem everyCommandTakesOneStep : Obligations.EveryCommandTakesOneStep := by
  intro s c rest hp
  obtain ⟨t, r, ht, ⟨hpending, hpos⟩, hr⟩ := execCommand_responds c { s with pending := rest, pos := s.pos + 1 }
  exact ⟨t, r, (step_of_pending_command hp).trans ht, hpending, hpos, hr⟩

/-! ### The valid entries are the leaf symbols (10_state.md R32) -/

theorem Inv.after_run {s t : State} {k : Nat} (hs : Inv s) (h : Sys2Proof.core.run k s = .next t) : Inv t := by
  induction k generalizing s with
  | zero => cases h; exact hs
  | succ k ih =>
    simp only [Host.Core.run] at h
    split at h
    · next u hu => exact ih (stepKeepsInv s u hs hu) h
    · cases h
    · cases h

theorem Reachable.inv {s : State} (h : Reachable s) : Inv s := by
  obtain ⟨events, k, hk⟩ := h
  exact (invAtReset.withHost events 0).after_run hk

/-- A tree without defects has a Leaf: the code set of an Internal root is complete, and a Leaf root is one itself
(R154, R156). -/
theorem exists_hasCode {A : Arena} {root : NodeIdx} (hm : ¬ Malformed A true root) : ∃ c p, HasCode A root c p := by
  cases hk : (A.entry root).kind with
  | internal =>
    obtain ⟨c, p, hc, -⟩ := hasCode_complete hm hk []
    exact ⟨c, p, hc⟩
  | leaf =>
    have ha : A.absent root = false := by
      by_contra ha
      exact hm (.noRoot (.inr (by simpa using ha)))
    exact ⟨_, _, [], root, follow_nil ha, hk, rfl, rfl⟩

/-- A symbol has a code exactly when a path from the root leads to a Leaf of it. -/
theorem exists_hasCode_iff {A : Arena} {root : NodeIdx} {c : Symbol} :
    (∃ p, HasCode A root c p) ↔
      ∃ (p : List Bit) (i : NodeIdx), A.follow root p = some i ∧ (A.entry i).kind = .leaf ∧ (A.entry i).symbol = c :=
  ⟨fun ⟨_, q, i, hq, hk, hs, _⟩ => ⟨q, i, hq, hk, hs⟩, fun ⟨q, i, hq, hk, hs⟩ => ⟨_, q, i, hq, hk, hs, rfl⟩⟩

/-- Settles O60: the invariant is kept along every run from reset; a valid table is the table of its tree, whose
entries are the codes of that tree. -/
theorem validEntriesAreTheLeafSymbols : Obligations.ValidEntriesAreTheLeafSymbols := by
  refine ⟨fun s h => h.inv, fun s hs => ⟨fun hv c => ?_, fun hv => ?_⟩⟩
  · rw [hs.table.2 hv, CodeTable.entry_empty]
  · obtain ⟨hrv, -, hT⟩ := generateTable_ok (hs.table.1 hv)
    obtain ⟨c, hc⟩ := exists_hasCode hT.sound
    exact ⟨⟨c, (hT.cvalid_iff c).mpr hc⟩, fun d => (hT.cvalid_iff d).trans exists_hasCode_iff⟩

/-! ### The access matrix, writes (10_state.md R34) -/

theorem Wrote.sameFreq {s t : State} {i : Instr} (h : Wrote s i t) (hcount : ∀ syms, i ≠ .count syms)
    (hwr : ∀ c n, i ≠ .freqWr c n) (hall : ∀ syms, i ≠ .encodeAll syms) (hclear : i ≠ .clear) : SameFreq s t := by
  cases h with
  | clear => exact absurd rfl hclear
  | count syms => exact absurd rfl (hcount syms)
  | freqWr c n => exact absurd rfl (hwr c n)
  | encodeAllEmpty | encodeAll => exact absurd rfl (hall _)
  | nop | read | encode | decode | build | nodeWr | rootWr | gencode => rfl

theorem Wrote.sameNode {s t : State} {i : Instr} (h : Wrote s i t) (hbuild : i ≠ .build)
    (hwr : ∀ j sel d, i ≠ .nodeWr j sel d) (hall : ∀ syms, i ≠ .encodeAll syms) (hclear : i ≠ .clear) :
    t.node = s.node := by
  cases h with
  | clear => exact absurd rfl hclear
  | build => exact absurd rfl hbuild
  | nodeWr j sel d => exact absurd rfl (hwr j sel d)
  | encodeAllEmpty | encodeAll => exact absurd rfl (hall _)
  | nop | read | encode | decode | count | freqWr | rootWr | gencode => rfl

theorem Wrote.sameRoot {s t : State} {i : Instr} (h : Wrote s i t) (hbuild : i ≠ .build)
    (hwr : ∀ d, i ≠ .rootWr d) (hall : ∀ syms, i ≠ .encodeAll syms) (hclear : i ≠ .clear) :
    t.rootValid = s.rootValid ∧ t.rootIdx = s.rootIdx := by
  cases h with
  | clear => exact absurd rfl hclear
  | build => exact absurd rfl hbuild
  | rootWr d => exact absurd rfl (hwr d)
  | encodeAllEmpty | encodeAll => exact absurd rfl (hall _)
  | nop | read | encode | decode | count | freqWr | nodeWr | gencode => exact ⟨rfl, rfl⟩

theorem Wrote.sameTable {s t : State} {i : Instr} (h : Wrote s i t) (hbuild : i ≠ .build)
    (hnode : ∀ j sel d, i ≠ .nodeWr j sel d) (hroot : ∀ d, i ≠ .rootWr d) (hgen : i ≠ .gencode)
    (hall : ∀ syms, i ≠ .encodeAll syms) (hclear : i ≠ .clear) : SameTable s t := by
  cases h with
  | clear => exact absurd rfl hclear
  | build => exact absurd rfl hbuild
  | nodeWr j sel d => exact absurd rfl (hnode j sel d)
  | rootWr d => exact absurd rfl (hroot d)
  | gencode => exact absurd rfl hgen
  | encodeAllEmpty | encodeAll => exact absurd rfl (hall _)
  | nop | read | encode | decode | count | freqWr => exact ⟨rfl, rfl⟩

theorem Wrote.sameErrors {s t : State} {i : Instr} (h : Wrote s i t) (hclear : i ≠ .clear) : SameErrors s t := by
  cases h with
  | clear => exact absurd rfl hclear
  | _ => exact ⟨rfl, rfl⟩

/-- A failure is not answered OK (R236). -/
theorem State.raise_not_answersOk (s : State) (e : Raise) (o : Output) : ¬ AnswersOk s (s.raise e) o := by
  simp [AnswersOk, Response.failure]

/-- Settles O19: a command that fails writes the error record alone, and one that succeeds has written what its row of
R34 says. -/
theorem accessMatrixWrites : Obligations.AccessMatrixWrites := by
  intro i s
  obtain ⟨e, he⟩ | ⟨t, o, ht, ho⟩ := exec_cases i s
  · exact ⟨_, he, fun _ _ _ _ => rfl, fun _ _ _ _ => rfl, fun _ _ _ _ => ⟨rfl, rfl⟩, fun _ _ _ _ _ _ => ⟨rfl, rfl⟩,
      fun _ ⟨o, ho⟩ => absurd ho (s.raise_not_answersOk e o)⟩
  · exact ⟨_, ho, ht.sameFreq, ht.sameNode, ht.sameRoot, ht.sameTable, fun hc _ => ht.sameErrors hc⟩

end Sys2Proof.Machine

namespace Sys2Proof.Machine

/-! ### The access matrix, reads (10_state.md R34) -/

/-- `s` and `s'` agree on the pieces of state that R34 lists the command as a reader of. -/
def AgreeOnReads (s s' : State) : Instr → Prop
  | .regRd _ => s'.tableValid = s.tableValid ∧ SameErrors s s' ∧ s'.rootValid = s.rootValid ∧ s'.rootIdx = s.rootIdx
  | .freqRd _ | .build => SameFreq s s'
  | .nodeRd _ _ => s'.node = s.node
  | .gencode | .decode _ => SameTree s s'
  | .codeRd _ _ | .encode _ => s'.code = s.code
  | .nop | .clear | .count _ | .freqWr _ _ | .nodeWr _ _ _ | .rootWr _ | .encodeAll _ => True

/-- Each piece of state that is the same in `s` and `s'` is the same in `t` and `t'`. -/
structure KeepsAgreement (s s' t t' : State) : Prop where
  freq : SameFreq s s' → SameFreq t t'
  node : s'.node = s.node → t'.node = t.node
  rootValid : s'.rootValid = s.rootValid → t'.rootValid = t.rootValid
  rootIdx : s'.rootIdx = s.rootIdx → t'.rootIdx = t.rootIdx
  code : s'.code = s.code → t'.code = t.code
  tableValid : s'.tableValid = s.tableValid → t'.tableValid = t.tableValid
  errors : SameErrors s s' → SameErrors t t'

theorem KeepsAgreement.refl (s s' : State) : KeepsAgreement s s' s s' := ⟨id, id, id, id, id, id, id⟩

theorem KeepsAgreement.clearTable {s s' t t' : State} (h : KeepsAgreement s s' t t') :
    KeepsAgreement s s' t.clearTable t'.clearTable :=
  { h with code := fun _ => rfl, tableValid := fun _ => rfl }

theorem KeepsAgreement.writeRoot {s s' t t' : State} (h : KeepsAgreement s s' t t') (v : Bool) (j : NodeIdx) :
    KeepsAgreement s s' (t.writeRoot v j) (t'.writeRoot v j) :=
  { h with rootValid := fun _ => rfl, rootIdx := fun _ => rfl }

theorem KeepsAgreement.respond {s s' t t' : State} (h : KeepsAgreement s s' t t') (o : Output) :
    KeepsAgreement s s' (t.respond o) (t'.respond o) := { h with }

theorem KeepsAgreement.raise (s s' : State) (e : Raise) : KeepsAgreement s s' (s.raise e) (s'.raise e) :=
  { KeepsAgreement.refl s s' with errors := fun _ => ⟨rfl, rfl⟩ }

/-- A node entry written over itself in part is the same in two arenas that are the same (R130). -/
theorem KeepsAgreement.rewriteNode (s s' : State) (j : NodeIdx) (sel : NodeSel) (d : Word) :
    KeepsAgreement s s' (s.writeNode j ((s.node.entry j).withWord sel d))
      (s'.writeNode j ((s'.node.entry j).withWord sel d)) :=
  { KeepsAgreement.refl s s' with node := congrArg fun A : Arena => A.put j ((A.entry j).withWord sel d) }

/-- The same failure, or two successes with the same output that keep the agreement of `s` and `s'`. -/
inductive SameOutcome (s s' : State) : Except Raise (State × Output) → Except Raise (State × Output) → Prop where
  | error (e : Raise) : SameOutcome s s' (.error e) (.error e)
  | ok {t t' : State} (o : Output) (h : KeepsAgreement s s' t t') : SameOutcome s s' (.ok (t, o)) (.ok (t', o))

theorem SameOutcome.checked {s s' : State} {x x' : Except Raise (State × Output)} (b : Bool)
    (h : SameOutcome s s' x x') : SameOutcome s s' (checked b x) (checked b x') := by
  cases b with
  | true => exact h
  | false => exact .error _

/-- A command's effect is determined, piece by piece, by what it reads. -/
theorem effect_sameOutcome {i : Instr} {s s' : State} (h : AgreeOnReads s s' i) :
    SameOutcome s s' (effect i s) (effect i s') := by
  have unchanged : ∀ o, SameOutcome s s' (.ok (s, o)) (.ok (s', o)) := fun o => .ok o (.refl s s')
  cases i <;> simp only [AgreeOnReads] at h <;> simp only [effect]
  case nop => exact unchanged _
  case clear =>
    exact .ok _ ⟨fun _ => rfl, fun _ => rfl, fun _ => rfl, fun _ => rfl, fun _ => rfl, fun _ => rfl,
      fun _ => ⟨rfl, rfl⟩⟩
  case regRd r =>
    obtain ⟨htable, ⟨herr, hinfo⟩, hvalid, hidx⟩ := h
    have hr : s'.register r = s.register r := by simp only [State.register, htable, herr, hinfo, hvalid, hidx]
    exact hr ▸ unchanged _
  case freqRd c => exact h ▸ unchanged _
  case nodeRd j sel => exact (h ▸ unchanged _ : SameOutcome s s' _ _).checked _
  case codeRd c sel => exact (h ▸ unchanged _ : SameOutcome s s' _ _).checked _
  case freqWr c n => exact .ok _ { KeepsAgreement.refl s s' with freq := congrArg (FreqTable.put · c n) }
  case nodeWr j sel d => exact (SameOutcome.ok _ (KeepsAgreement.rewriteNode s s' j sel d).clearTable).checked _
  case rootWr d => exact (SameOutcome.ok _ ((KeepsAgreement.refl s s').writeRoot _ _).clearTable).checked _
  case count syms =>
    unfold State.countStream
    split
    · exact .error _
    · exact .ok _ { KeepsAgreement.refl s s' with freq := fun _ => rfl }
  case build =>
    have hf : s'.freq = s.freq := h
    unfold State.buildFromFreq
    rw [hf]
    cases buildTree s.freq with
    | error e => exact .error e
    | ok x => exact .ok _ ⟨fun _ => rfl, fun _ => rfl, fun _ => rfl, fun _ => rfl, fun _ => rfl, fun _ => rfl, id⟩
  case gencode =>
    obtain ⟨hnode, hvalid, hidx⟩ := h
    unfold State.generateCodes
    rw [hnode, hvalid, hidx]
    cases generateTable s.node s.rootValid s.rootIdx with
    | error e => exact .error e
    | ok T => exact .ok _ ⟨id, fun _ => rfl, fun _ => rfl, fun _ => rfl, fun _ => rfl, fun _ => rfl, id⟩
  case encode syms =>
    rw [h]
    cases encodeStream s.code syms with
    | error e => exact .error e
    | ok bs => exact unchanged _
  case decode bits =>
    obtain ⟨hnode, hvalid, hidx⟩ := h
    rw [hnode, hvalid, hidx]
    cases decodeStream s.node s.rootValid s.rootIdx bits with
    | error e => exact .error e
    | ok out => exact unchanged _
  case encodeAll syms =>
    obtain ⟨x, hx⟩ := encodeWhole_uniform syms
    rw [hx s, hx s']
    cases x with
    | error e => exact .error e
    | ok p => exact .ok _ ⟨fun _ => rfl, fun _ => rfl, fun _ => rfl, fun _ => rfl, fun _ => rfl, fun _ => rfl, id⟩

/-- From two states that agree on what a command reads it gives the same response, and it leaves what was the same the
same. -/
theorem exec_of_agreeOnReads {i : Instr} {s s' : State} (hreads : AgreeOnReads s s' i)
    (hresp : s'.responses = s.responses) :
    ∃ t t' r, exec i s = .next t ∧ exec i s' = .next t' ∧ Responds s t r ∧ Responds s t' r
      ∧ KeepsAgreement s s' t t' := by
  have h := effect_sameOutcome hreads
  generalize hx : effect i s = x at h
  generalize hx' : effect i s' = x' at h
  cases h with
  | error e =>
    refine ⟨_, _, Response.failure e.cause, exec_error hx, exec_error hx', rfl, ?_, .raise s s' e⟩
    rw [Responds, State.raise_responses, hresp]
  | ok o h =>
    refine ⟨_, _, Response.success o, exec_ok hx, exec_ok hx', ?_, ?_, h.respond o⟩
    · rw [Responds, State.respond_responses, (effect_keeps hx).1]
    · rw [Responds, State.respond_responses, (effect_keeps hx').1, hresp]

/-- Settles O20: a command that does not read the piece in which two states differ finds them alike on what it reads,
so its outcome is the same and the other pieces stay the same. -/
theorem accessMatrixReads : Obligations.AccessMatrixReads := by
  intro i s
  refine ⟨fun f hbuild hrd => ?_, fun A hrd hgen hdec => ?_, fun v j hreg hgen hdec => ?_, fun T hrd henc => ?_,
    fun v hreg => ?_, fun l n hreg => ?_⟩
  · have hreads : AgreeOnReads s { s with freq := f } i := by
      cases i with
      | build => exact absurd rfl hbuild
      | freqRd c => exact absurd rfl (hrd c)
      | _ => simp [AgreeOnReads, SameTree, SameErrors]
    obtain ⟨t, u, r, ht, hu, hrt, hru, hk⟩ := exec_of_agreeOnReads hreads rfl
    exact ⟨t, u, r, ht, hu, hrt, hru, ⟨hk.node rfl, hk.rootValid rfl, hk.rootIdx rfl⟩,
      ⟨hk.code rfl, hk.tableValid rfl⟩, hk.errors ⟨rfl, rfl⟩⟩
  · have hreads : AgreeOnReads s { s with node := A } i := by
      cases i with
      | nodeRd j sel => exact absurd rfl (hrd j sel)
      | gencode => exact absurd rfl hgen
      | decode bits => exact absurd rfl (hdec bits)
      | _ => simp [AgreeOnReads, SameFreq, SameErrors]
    obtain ⟨t, u, r, ht, hu, hrt, hru, hk⟩ := exec_of_agreeOnReads hreads rfl
    exact ⟨t, u, r, ht, hu, hrt, hru, hk.freq rfl, hk.rootValid rfl, hk.rootIdx rfl,
      ⟨hk.code rfl, hk.tableValid rfl⟩, hk.errors ⟨rfl, rfl⟩⟩
  · have hreads : AgreeOnReads s { s with rootValid := v, rootIdx := j } i := by
      cases i with
      | regRd r => exact absurd rfl (hreg r)
      | gencode => exact absurd rfl hgen
      | decode bits => exact absurd rfl (hdec bits)
      | _ => simp [AgreeOnReads, SameFreq]
    obtain ⟨t, u, r, ht, hu, hrt, hru, hk⟩ := exec_of_agreeOnReads hreads rfl
    exact ⟨t, u, r, ht, hu, hrt, hru, hk.freq rfl, hk.node rfl, ⟨hk.code rfl, hk.tableValid rfl⟩,
      hk.errors ⟨rfl, rfl⟩⟩
  · have hreads : AgreeOnReads s { s with code := T } i := by
      cases i with
      | codeRd c sel => exact absurd rfl (hrd c sel)
      | encode syms => exact absurd rfl (henc syms)
      | _ => simp [AgreeOnReads, SameFreq, SameTree, SameErrors]
    obtain ⟨t, u, r, ht, hu, hrt, hru, hk⟩ := exec_of_agreeOnReads hreads rfl
    exact ⟨t, u, r, ht, hu, hrt, hru, hk.freq rfl, ⟨hk.node rfl, hk.rootValid rfl, hk.rootIdx rfl⟩,
      hk.tableValid rfl, hk.errors ⟨rfl, rfl⟩⟩
  · have hreads : AgreeOnReads s { s with tableValid := v } i := by
      cases i with
      | regRd r => exact absurd rfl (hreg r)
      | _ => simp [AgreeOnReads, SameFreq, SameTree]
    obtain ⟨t, u, r, ht, hu, hrt, hru, hk⟩ := exec_of_agreeOnReads hreads rfl
    exact ⟨t, u, r, ht, hu, hrt, hru, hk.freq rfl, ⟨hk.node rfl, hk.rootValid rfl, hk.rootIdx rfl⟩, hk.code rfl,
      hk.errors ⟨rfl, rfl⟩⟩
  · have hreads : AgreeOnReads s { s with lastErr := l, errInfo := n } i := by
      cases i with
      | regRd r => exact absurd rfl (hreg r)
      | _ => simp [AgreeOnReads, SameFreq, SameTree]
    obtain ⟨t, u, r, ht, hu, hrt, hru, hk⟩ := exec_of_agreeOnReads hreads rfl
    exact ⟨t, u, r, ht, hu, hrt, hru, hk.freq rfl, ⟨hk.node rfl, hk.rootValid rfl, hk.rootIdx rfl⟩, hk.code rfl,
      hk.tableValid rfl⟩

end Sys2Proof.Machine

namespace Sys2Proof.Machine

/-! ### The tree BUILD leaves (10_state.md R36; 41_tree_builder.md R121, R122) -/

/-- A table of one symbol sums to that symbol's count, which fits (R126). -/
theorem total_le_of_symbolCount_one {f : FreqTable} (h : f.symbolCount = 1) : f.total ≤ Config.CNT_MAX := by
  obtain ⟨c, hc⟩ := List.length_eq_one_iff.mp ((symbolCount_eq f).symm.trans h)
  have htotal : (f.entry c).toNat = f.total := by simpa [hc] using presentSymbols_total f
  have hlt := (f.entry c).isLt
  have hmax : Config.CNT_MAX = 4294967295 := rfl
  omega

/-- BUILD finishes the tree of a non-empty table whose counts fit (R123, R126). -/
theorem buildTree_ok {f : FreqTable} (hne : ∃ c, f.entry c ≠ 0#32)
    (hfit : f.symbolCount = 1 ∨ f.total ≤ Config.CNT_MAX) : ∃ A r, buildTree f = .ok (A, r) ∧ Built f A r := by
  have hle : f.total ≤ Config.CNT_MAX := hfit.elim total_le_of_symbolCount_one id
  obtain ⟨hz, -⟩ | ⟨-, hgt, -⟩ | ⟨-, -, h⟩ := buildTree_cases f
  · obtain ⟨c, hc⟩ := hne
    exact absurd (hz c) hc
  · omega
  · exact h

theorem Built.internal_entry {f : FreqTable} {A : Arena} {r : NodeIdx} (h : Built f A r) {j : NodeIdx}
    (h1 : distinct f ≤ j.toNat) (h2 : j.toNat < 2 * distinct f - 1) :
    A.entry j = NodeEntry.newInternal (A.entry j).left (A.entry j).right (A.entry j).weight := by
  have he := (h.merge h1 h2).entry
  rwa [← eq_idx] at he

/-- The weight of an Internal node is the exact sum of its children's (R36). -/
theorem Built.internal_weight {f : FreqTable} {A : Arena} {r : NodeIdx} (h : Built f A r) {j : NodeIdx}
    (h1 : distinct f ≤ j.toNat) (h2 : j.toNat < 2 * distinct f - 1) :
    A.weight j = A.weight (A.entry j).left + A.weight (A.entry j).right := by
  have hw := (h.merge h1 h2).weight
  rwa [← eq_idx] at hw

/-- Every node but the root has one parent, on one side (R36). -/
theorem Built.existsUnique_parent {f : FreqTable} {A : Arena} {r : NodeIdx} (h : Built f A r) {i : NodeIdx}
    (hi : i.toNat < 2 * distinct f - 2) : ∃! x : NodeIdx × Bit, A.ChildOf i x.1 x.2 := by
  have hr : i ≠ r := by
    rintro rfl
    exact absurd h.root_toNat (by omega)
  obtain ⟨j, b, hj1, hj2, hjb⟩ := h.parent_exists (by omega) hr
  refine ⟨(j, b), ⟨(A.absent_eq_false_iff j).mp ((h.present j).mpr hj2), h.kind_internal hj1 hj2, hjb⟩, ?_⟩
  rintro ⟨k, d⟩ ⟨hv, hk, hkd⟩
  obtain ⟨hk1, hk2⟩ := h.internal_range ((A.absent_eq_false_iff k).mpr hv) hk
  obtain ⟨rfl, rfl⟩ := h.parent_unique hk1 hk2 hj1 hj2 (hkd.trans hjb.symm)
  rfl

/-- The leaves stand in ascending symbol order (R36, R121). -/
theorem Built.leaf_symbol_lt {f : FreqTable} {A : Arena} {r : NodeIdx} (h : Built f A r) {i j : NodeIdx}
    (hij : i.toNat < j.toNat) (hj : j.toNat < distinct f) :
    (A.entry i).symbol.toNat < (A.entry j).symbol.toNat := by
  rw [h.leaf (hij.trans hj), h.leaf hj]
  exact List.pairwise_iff_getElem.mp (presentSymbols_sorted f) _ _ _ _ hij

/-- Every symbol with a count has its Leaf (R36). -/
theorem Built.exists_leaf {f : FreqTable} {A : Arena} {r : NodeIdx} (h : Built f A r) {c : Symbol}
    (hc : f.entry c ≠ 0#32) : ∃ j : NodeIdx, j.toNat < distinct f ∧ (A.entry j).symbol = c := by
  have hn := presentSymbols_length_le f
  obtain ⟨k, hk, rfl⟩ := List.getElem_of_mem (mem_presentSymbols.mpr hc)
  have hkn : (idx k).toNat = k := idx_toNat (by omega)
  have hlt : (idx k).toNat < distinct f := hkn.symm ▸ hk
  refine ⟨idx k, hlt, ?_⟩
  rw [h.leaf hlt]
  simp only [NodeEntry.newLeaf, hkn]

/-- The tree stands in the arena as R36 lists it. -/
theorem Built.standsBuilt {f : FreqTable} {t : State} (h : Built f t.node t.rootIdx) (hv : t.rootValid = true) :
    StandsBuilt f t := by
  have hn : f.symbolCount = distinct f := symbolCount_eq f
  constructor
  case rootValid => exact hv
  case total => exact h.root_weight
  all_goals rw [hn]
  case leaf => exact fun j hj => ⟨_, h.leaf hj, mem_presentSymbols.mp (List.getElem_mem hj)⟩
  case ascending => exact fun i j => h.leaf_symbol_lt
  case every => exact fun c => h.exists_leaf
  case internal =>
    intro j h1 h2
    rw [h.internal_entry h1 h2]
    exact ⟨rfl, rfl, rfl⟩
  case empty => exact h.empty
  case rootIdx => exact h.root_toNat
  case lower => exact fun j h1 h2 => ⟨h.child_lt false h1 h2, h.child_lt true h1 h2⟩
  case weight => exact fun j => h.internal_weight
  case owned => exact fun i => h.existsUnique_parent

theorem keyLess_iff_before {A : Arena} {i j : NodeIdx} : A.KeyLess i j ↔ A.before i j = true := by
  rw [before_iff, Arena.KeyLess, Arena.weight, Arena.weight, BitVec.toNat_inj]

/-- Each Internal node was made of the two least nodes waiting, the lesser on the left (R121, R122). -/
theorem Built.mergesTwoLeast {f : FreqTable} {A : Arena} {r : NodeIdx} (h : Built f A r) :
    A.MergesTwoLeast f.symbolCount (2 * f.symbolCount - 1) := by
  rw [show f.symbolCount = distinct f from symbolCount_eq f]
  intro j h1 h2
  have hm := h.merge h1 h2
  have hleft := hm.left
  have hright := hm.right
  have horder := hm.order
  have hleast := hm.least
  rw [← eq_idx] at hleft hright horder hleast
  refine ⟨(h.waiting_iff h2 _).mpr hleft, (h.waiting_iff h2 _).mpr hright, keyLess_iff_before.mpr horder, ?_⟩
  exact fun i hi hl hr => keyLess_iff_before.mpr (hleast i ((h.waiting_iff h2 i).mp hi) hl hr)

theorem effect_build {s : State} {A : Arena} {r : NodeIdx} (hA : buildTree s.freq = .ok (A, r)) :
    effect .build s = .ok (({ s with node := A }.writeRoot true r).clearTable, {}) := by
  simp only [effect, State.buildFromFreq, hA]
  rfl

/-- What ENCODE_ALL of a non-empty stream of accepted length leaves (R172). -/
theorem exec_encodeAll_built {s : State} {syms : List Symbol} (hne : syms ≠ [])
    (hl : syms.length ≤ Config.SYM_STREAM_MAX) :
    ∃ t, exec (.encodeAll syms) s = .next t ∧ t.freq = countTable syms ∧ t.rootValid = true
      ∧ Built t.freq t.node t.rootIdx := by
  cases he : effect (.encodeAll syms) s with
  | error e => exact absurd (encodeWhole_error he).1 (by omega)
  | ok x =>
    obtain ⟨t, o⟩ := x
    refine ⟨_, exec_ok he, ?_⟩
    obtain ⟨rfl, -, -⟩ | ⟨-, A, r, T, bs, hA, -, -, -, rfl⟩ := encodeWhole_ok he
    · exact absurd rfl hne
    · obtain ⟨A', r', -, hA', hB, -⟩ := encode_chain hl hne
      cases hA.symm.trans hA'
      exact ⟨rfl, rfl, hB⟩

/-- Settles O30: BUILD and ENCODE_ALL leave a finished tree (`Built`), which stands as R36 lists it and was merged in
the order of R121 and R122. -/
theorem buildLeavesTheTree : Obligations.BuildLeavesTheTree := by
  refine ⟨fun s hne hfit => ?_, fun syms s hne hl => ?_⟩
  · obtain ⟨A, r, hA, hB⟩ := buildTree_ok hne hfit
    exact ⟨_, exec_ok (effect_build hA), rfl, hB.standsBuilt rfl, hB.mergesTwoLeast, ⟨rfl, CodeTable.entry_empty⟩, rfl,
      ⟨rfl, rfl⟩, ⟨rfl, rfl⟩⟩
  · obtain ⟨t, ht, hf, hv, hB⟩ := exec_encodeAll_built hne hl
    refine ⟨t, ht, hB.standsBuilt hv, hB.mergesTwoLeast, ?_⟩
    calc (t.node.entry t.rootIdx).weight.toNat = t.freq.total := hB.root_weight
      _ = (countTable syms).total := by rw [hf]
      _ = syms.length := countTable_total hl

end Sys2Proof.Machine

namespace Sys2Proof.Machine

/-! ### Repeated access (20_memory.md R57)

A command whose effect, done again, is the same effect may be repeated: the response between the two is nothing a command
reads. -/

theorem SameState.respond (s : State) (o : Output) : SameState s (s.respond o) :=
  ⟨rfl, ⟨rfl, rfl, rfl⟩, ⟨rfl, rfl⟩, ⟨rfl, rfl⟩⟩

/-- All that a command reads is architectural state (R22, R34). -/
theorem SameState.agreeOnReads {s s' : State} (h : SameState s s') (i : Instr) : AgreeOnReads s s' i := by
  obtain ⟨hfreq, htree, ⟨hcode, hvalid⟩, herrors⟩ := h
  cases i with
  | regRd r => exact ⟨hvalid, herrors, htree.2⟩
  | freqRd | build => exact hfreq
  | nodeRd => exact htree.1
  | gencode | decode => exact htree
  | codeRd | encode => exact hcode
  | nop | clear | count | freqWr | nodeWr | rootWr | encodeAll => trivial

theorem KeepsAgreement.sameState {s s' t t' : State} (h : KeepsAgreement s s' t t') (hs : SameState s s') :
    SameState t t' := by
  obtain ⟨hfreq, ⟨hnode, hroot, hidx⟩, ⟨hcode, hvalid⟩, herrors⟩ := hs
  exact ⟨h.freq hfreq, ⟨h.node hnode, h.rootValid hroot, h.rootIdx hidx⟩, ⟨h.code hcode, h.tableValid hvalid⟩,
    h.errors herrors⟩

/-- A command with nothing left to write in `t` writes nothing after the response either, and responds the same. -/
theorem exec_respond_of_effect_fixed {i : Instr} {t : State} {o : Output} (h : effect i t = .ok (t, o)) :
    ∃ u, exec i (t.respond o) = .next u ∧ SameState (t.respond o) u
      ∧ Responds (t.respond o) u (Response.success o) := by
  have hsame : SameState t (t.respond o) := .respond t o
  have hout := effect_sameOutcome (hsame.agreeOnReads i)
  rw [h] at hout
  generalize hx : effect i (t.respond o) = x at hout
  cases hout with
  | @ok _ t' _ hk =>
    refine ⟨_, exec_ok hx, (hk.respond o).sameState hsame, ?_⟩
    rw [Responds, State.respond_responses, (effect_keeps hx).1]

/-! #### The reads -/

/-- A legal read succeeds, and writes nothing (R57). -/
theorem effect_read {i : Instr} (hread : i.isRead = true) (hwf : i.wellFormed = true) (s : State) :
    ∃ o, effect i s = .ok (s, o) := by
  cases i with
  | regRd | freqRd => exact ⟨_, rfl⟩
  | nodeRd | codeRd =>
    simp only [Instr.wellFormed] at hwf
    exact ⟨_, by rw [effect, hwf, checked_true]⟩
  | _ => cases hread

/-! #### The writes -/

@[simp] theorem FreqTable.put_put (f : FreqTable) (c : Symbol) (v w : Word) : (f.put c v).put c w = f.put c w :=
  Vector.set_set ..

@[simp] theorem Arena.put_put (A : Arena) (j : NodeIdx) (e e' : NodeEntry) : (A.put j e).put j e' = A.put j e' :=
  Vector.setIfInBounds_setIfInBounds ..

@[simp] theorem NodeEntry.withWord_withWord (e : NodeEntry) (sel : NodeSel) (d : Word) :
    (e.withWord sel d).withWord sel d = e.withWord sel d := by
  cases sel <;> rfl

/-- A node word written again is already there (R130). -/
theorem Arena.put_withWord_again (A : Arena) {j : NodeIdx} (hj : nodeIndexOk j = true) (sel : NodeSel) (d : Word) :
    (A.put j ((A.entry j).withWord sel d)).put j
        (((A.put j ((A.entry j).withWord sel d)).entry j).withWord sel d)
      = A.put j ((A.entry j).withWord sel d) := by
  simp [Arena.entry_put _ _ _ _ hj]

/-- The commands of which R57 says that they may be done twice. -/
inductive IsWrite : Instr → Prop where
  | freqWr (c : Symbol) (n : Word) : IsWrite (.freqWr c n)
  | nodeWr (j : NodeIdx) (sel : NodeSel) (d : Word) : IsWrite (.nodeWr j sel d)
  | rootWr (d : Word) : IsWrite (.rootWr d)

theorem IsWrite.of_eq {i : Instr}
    (h : (∃ c n, i = .freqWr c n) ∨ (∃ j sel d, i = .nodeWr j sel d) ∨ ∃ d, i = .rootWr d) : IsWrite i := by
  obtain ⟨c, n, rfl⟩ | ⟨j, sel, d, rfl⟩ | ⟨d, rfl⟩ := h
  · exact .freqWr c n
  · exact .nodeWr j sel d
  · exact .rootWr d

/-- R34 lists a write as a reader of nothing. -/
theorem IsWrite.agreeOnReads {i : Instr} (h : IsWrite i) (s s' : State) : AgreeOnReads s s' i := by
  cases h <;> trivial

/-- A write that has succeeded has nothing left to write. -/
theorem IsWrite.effect_fixed {i : Instr} {s t : State} {o : Output} (hw : IsWrite i) (h : effect i s = .ok (t, o)) :
    effect i t = .ok (t, o) := by
  cases hw with
  | freqWr c n =>
    cases h
    simp [effect, State.writeFreq]
  | nodeWr j sel d =>
    obtain ⟨hok, hr⟩ := checked_ok h
    have hj : nodeIndexOk j = true := (Bool.and_eq_true_iff.mp hok).1
    cases hr
    simp only [effect, hok, checked_true, State.writeNode, State.clearTable, Arena.put_withWord_again _ hj]
  | rootWr d =>
    obtain ⟨hok, hr⟩ := checked_ok h
    cases hr
    rw [effect, hok]
    rfl

/-- A write that fails fails again in the same way: its operands are at fault. -/
theorem IsWrite.effect_error {i : Instr} {s : State} {e : Raise} (hw : IsWrite i) (h : effect i s = .error e)
    (s' : State) : effect i s' = .error e := by
  have hout := effect_sameOutcome (hw.agreeOnReads s s')
  rw [h] at hout
  generalize effect i s' = x at hout
  cases hout
  rfl

/-- Settles O21: a legal read has nothing to write, and a write that succeeded has nothing left to write; a write that
failed records the same error again. -/
theorem repeatedAccess : Obligations.RepeatedAccess := by
  refine ⟨fun i s hread hwf => ?_, fun i s hi => ?_⟩
  · obtain ⟨o, ho⟩ := effect_read hread hwf s
    obtain ⟨u, hu, hsame, hresp⟩ := exec_respond_of_effect_fixed ho
    exact ⟨_, u, Response.success o, exec_ok ho, hu, rfl, .respond s o, rfl, hsame, hresp⟩
  · have hw : IsWrite i := .of_eq hi
    cases h : effect i s with
    | ok x =>
      obtain ⟨u, hu, hsame, -⟩ := exec_respond_of_effect_fixed (hw.effect_fixed h)
      exact ⟨_, u, exec_ok h, hu, hsame⟩
    | error e =>
      exact ⟨_, _, exec_error h, exec_error (hw.effect_error h (s.raise e)), rfl, ⟨rfl, rfl, rfl⟩,
        ⟨rfl, rfl⟩, ⟨rfl, rfl⟩⟩

end Sys2Proof.Machine

namespace Sys2Proof

/-! ### The decoder and the encoder (30_encoding.md R79 to R83) -/

/-- Settles O9: each constructor of `Instr` is read back from its encoding, the masked operand fields included. -/
theorem decodeOfEncode : Obligations.DecodeOfEncode := by
  intro i
  cases i with
  | nop => exact Laws.RoundTrip.nop
  | clear => exact Laws.RoundTrip.clear
  | regRd r => exact Laws.RoundTrip.regRd r
  | count syms => exact Laws.RoundTrip.count syms
  | freqWr c n => exact Laws.RoundTrip.freqWr c n
  | freqRd c => exact Laws.RoundTrip.freqRd c
  | build => exact Laws.RoundTrip.build
  | nodeRd j sel => exact Laws.RoundTrip.nodeRd j sel
  | nodeWr j sel d => exact Laws.RoundTrip.nodeWr j sel d
  | rootWr d => exact Laws.RoundTrip.rootWr d
  | gencode => exact Laws.RoundTrip.gencode
  | codeRd c sel => exact Laws.RoundTrip.codeRd c sel
  | encode syms => exact Laws.RoundTrip.encode syms
  | encodeAll syms => exact Laws.RoundTrip.encodeAll syms
  | decode bits => exact Laws.RoundTrip.decode bits

/-! #### What the decoder refuses -/

open Machine

/-- The checks of `wellFormed` that an assembled command can fail: conditions 3, 5 and 6 of R80. -/
theorem assemble_wellFormed_eq_false_iff (m : Mnemonic) (c : Command) :
    (assemble m c).wellFormed = false ↔
      ((m = .NODE_RD ∨ m = .NODE_WR) ∧ nodeField c.cmd = 0x1FF#9)
      ∨ (m = .CODE_RD ∧ 8 < (selField c.cmd).toNat)
      ∨ (m = .NODE_WR ∧ selField c.cmd = 0#4 ∧ c.data.extractLsb' 8 4 ≠ 0#4)
      ∨ (m = .ROOT_WR ∧ c.data.extractLsb' 9 22 ≠ 0#22) := by
  cases m with
  | NODE_RD => simp [assemble, Instr.wellFormed, nodeIndexOk, Config.NULL_IDX]
  | NODE_WR =>
    by_cases hs : selField c.cmd = 0#4
    · simp [assemble, Instr.wellFormed, nodeIndexOk, Config.NULL_IDX, nodeSelField, hs, nodeDataOk, structureWordOk,
        or_iff_not_imp_left]
    · simp [assemble, Instr.wellFormed, nodeIndexOk, Config.NULL_IDX, nodeSelField, hs, nodeDataOk]
  | ROOT_WR => simp [assemble, Instr.wellFormed, rootWordOk]
  | CODE_RD => simp [assemble, Instr.wellFormed, codeSelOk]
  | _ => simp [assemble, Instr.wellFormed]

/-- In the opcode table the rows with operand checks are those of OPC 0x21, 0x22, 0x23 and 0x31 (R79). -/
theorem mnemonic_iff_opc : ∀ r ∈ opcodeTable,
    (r.mnemonic = .NODE_RD ↔ r.opc = 0x21#8) ∧ (r.mnemonic = .NODE_WR ↔ r.opc = 0x22#8)
    ∧ (r.mnemonic = .ROOT_WR ↔ r.opc = 0x23#8) ∧ (r.mnemonic = .CODE_RD ↔ r.opc = 0x31#8) := by decide

theorem rowOf_eq_none_iff {w : Word} : rowOf w = none ↔ ∀ r ∈ opcodeTable, r.opc ≠ opcField w := by
  simp only [rowOf, List.find?_eq_none, beq_iff_eq, ne_eq]

/-- How a selected row refuses a command (R80). -/
theorem rowAccepts_eq_false_iff {r : Row} {c : Command} :
    rowAccepts r c = false ↔
      c.cmd &&& r.mask ≠ r.pattern ∨ (r.usesData = false ∧ c.data ≠ 0#32) ∨ (r.streamIn ≠ .syms ∧ c.syms ≠ [])
      ∨ (r.streamIn ≠ .bits ∧ c.bits ≠ []) ∨ (assemble r.mnemonic c).wellFormed = false := by
  simp only [rowAccepts, Bool.and_eq_false_iff, Bool.or_eq_false_iff, beq_eq_false_iff_ne, List.isEmpty_eq_false_iff,
    or_assoc, ne_eq]

/-- Conditions 3, 5 and 6 of R80 are the operand checks of the selected row. -/
theorem assemble_wellFormed_eq_false_iff_of_row {c : Command} {r : Row} (hr : rowOf c.cmd = some r) :
    (assemble r.mnemonic c).wellFormed = false ↔
      ((opcField c.cmd = 0x21#8 ∨ opcField c.cmd = 0x22#8) ∧ nodeField c.cmd = 0x1FF#9)
      ∨ (opcField c.cmd = 0x31#8 ∧ 8 < (selField c.cmd).toNat)
      ∨ (opcField c.cmd = 0x22#8 ∧ selField c.cmd = 0#4 ∧ c.data.extractLsb' 8 4 ≠ 0#4)
      ∨ (opcField c.cmd = 0x23#8 ∧ c.data.extractLsb' 9 22 ≠ 0#22) := by
  obtain ⟨hmem, hopc⟩ := rowOf_mem hr
  obtain ⟨hnodeRd, hnodeWr, hrootWr, hcodeRd⟩ := mnemonic_iff_opc r hmem
  rw [assemble_wellFormed_eq_false_iff, hnodeRd, hnodeWr, hrootWr, hcodeRd, hopc]

/-- The selected row decides whether the command is illegal. -/
theorem illegalForm_iff_of_row {c : Command} {r : Row} (hr : rowOf c.cmd = some r) :
    IllegalForm c ↔ rowAccepts r c = false := by
  obtain ⟨hmem, hopc⟩ := rowOf_mem hr
  have unique : ∀ {r' : Row}, r' ∈ opcodeTable → r'.opc = opcField c.cmd → r' = r := fun h ho =>
    Option.some.inj ((rowOf_eq h ho).symm.trans hr)
  have hoperands := assemble_wellFormed_eq_false_iff_of_row hr
  rw [rowAccepts_eq_false_iff]
  constructor
  · intro h
    cases h with
    | noRow h => exact absurd hopc (h r hmem)
    | mask r' h' ho h => obtain rfl := unique h' ho; exact .inl h
    | data r' h' ho hu h => obtain rfl := unique h' ho; exact .inr (.inl ⟨hu, h⟩)
    | syms r' h' ho hu h => obtain rfl := unique h' ho; exact .inr (.inr (.inl ⟨hu, h⟩))
    | bits r' h' ho hu h => obtain rfl := unique h' ho; exact .inr (.inr (.inr (.inl ⟨hu, h⟩)))
    | node ho h => exact .inr (.inr (.inr (.inr (hoperands.mpr (.inl ⟨ho, h⟩)))))
    | sel ho h => exact .inr (.inr (.inr (.inr (hoperands.mpr (.inr (.inl ⟨ho, h⟩))))))
    | structureWord ho hs h => exact .inr (.inr (.inr (.inr (hoperands.mpr (.inr (.inr (.inl ⟨ho, hs, h⟩)))))))
    | rootWord ho h => exact .inr (.inr (.inr (.inr (hoperands.mpr (.inr (.inr (.inr ⟨ho, h⟩)))))))
  · rintro (h | ⟨hu, h⟩ | ⟨hu, h⟩ | ⟨hu, h⟩ | h)
    · exact .mask r hmem hopc h
    · exact .data r hmem hopc hu h
    · exact .syms r hmem hopc hu h
    · exact .bits r hmem hopc hu h
    · obtain ⟨ho, h⟩ | ⟨ho, h⟩ | ⟨ho, hs, h⟩ | ⟨ho, h⟩ := hoperands.mp h
      · exact .node ho h
      · exact .sel ho h
      · exact .structureWord ho hs h
      · exact .rootWord ho h

/-- Settles O7: without a row the command is illegal and refused; with one, the row's checks are the conditions. -/
theorem decoderRefusesExactlyIllegalForms : Obligations.DecoderRefusesExactlyIllegalForms := by
  intro c
  cases hr : rowOf c.cmd with
  | none => exact ⟨fun _ => .noRow (rowOf_eq_none_iff.mp hr), fun _ => by simp only [decode, hr]⟩
  | some r =>
    rw [illegalForm_iff_of_row hr]
    simp [decode, hr]

/-- Settles O6: the decoder refuses the command, so the step raises ILLEGAL_COMMAND before any meaning is run. -/
theorem illegalCommandsRaise : Obligations.IllegalCommandsRaise := fun c s h =>
  ⟨_, execCommand_of_decode_none ((decoderRefusesExactlyIllegalForms c).mpr h) s, raise_failsWith s _⟩

/-! #### The codes -/

/-- Every mask of the table keeps the OPC field whole, so a word that matches a row has the row's OPC (R79). -/
theorem opcField_of_match {r : Row} (hr : r ∈ opcodeTable) {w : Word} (h : w &&& r.mask = r.pattern) :
    r.opc = opcField w := by
  have hrow : ∀ r ∈ opcodeTable, opcField r.mask = BitVec.allOnes 8 ∧ opcField r.pattern = r.opc := by decide
  obtain ⟨hmask, hpattern⟩ := hrow r hr
  calc r.opc = opcField (w &&& r.mask) := by rw [h, hpattern]
    _ = opcField w &&& opcField r.mask := BitVec.extractLsb'_and
    _ = opcField w := by rw [hmask, BitVec.and_allOnes]

/-- The reserved OPC values of R82. -/
theorem reserved_opc_noRow : ∀ r ∈ opcodeTable,
    ¬ ((0x03 ≤ r.opc.toNat ∧ r.opc.toNat ≤ 0x0F) ∨ (0x13 ≤ r.opc.toNat ∧ r.opc.toNat ≤ 0x1F)
      ∨ (0x24 ≤ r.opc.toNat ∧ r.opc.toNat ≤ 0x2F) ∨ (0x32 ≤ r.opc.toNat ∧ r.opc.toNat ≤ 0x3F)
      ∨ (0x42 ≤ r.opc.toNat ∧ r.opc.toNat ≤ 0x4F) ∨ 0x51 ≤ r.opc.toNat) := by decide

/-- Settles O8: rows that one word matches have one OPC, and a reserved OPC has no row. -/
theorem codesAreUnambiguous : Obligations.CodesAreUnambiguous := by
  refine ⟨fun r₁ h₁ r₂ h₂ w hm₁ hm₂ => ?_, fun c hc => ?_, rfl, rfl, rfl, rfl, rfl, rfl, rfl, fun r => ?_⟩
  · exact Option.some.inj
      ((rowOf_eq h₁ (opcField_of_match h₁ hm₁)).symm.trans (rowOf_eq h₂ (opcField_of_match h₂ hm₂)))
  · exact (decoderRefusesExactlyIllegalForms c).mpr (.noRow fun r hr ho => reserved_opc_noRow r hr (ho ▸ hc))
  · cases r with
    | ok => decide
    | failed e => exact e.code_ne_seven

/-! #### What decodes is its encoding -/

/-- A word that a mask takes to a bare OPC, read by fields: the mask leaves SEL and the `n` low bits of IDX free. -/
theorem eq_commandWord_of_mask {w m : Word} {o : BitVec 8} (n : Nat) (htop : m.extractLsb' 20 12 = 0xFFF#12)
    (hidx : ∀ k, k < 16 → n ≤ k → m.getLsbD k = true) (h : w &&& m = commandWord o 0#4 0#16) :
    w = commandWord o (selField w) ((w.extractLsb' 0 n).setWidth 16) := by
  conv_lhs => rw [mask_eta htop h, idx_zero hidx h]

/-- The bits of SEL that a mask keeps are 0 in a word it takes to a bare OPC. -/
theorem selField_and_of_mask {w m : Word} {o : BitVec 8} (h : w &&& m = commandWord o 0#4 0#16) :
    selField w &&& selField m = 0#4 := by
  rw [← selField_commandWord o 0#4 0#16, ← h, selField, selField, selField, BitVec.extractLsb'_and]

theorem selField_eq_zero_of_mask {w m : Word} {o : BitVec 8} (hm : selField m = BitVec.allOnes 4)
    (h : w &&& m = commandWord o 0#4 0#16) : selField w = 0#4 := by
  have hs := selField_and_of_mask h
  rwa [hm, BitVec.and_allOnes] at hs

/-- The mask of the node rows leaves SEL 0 or 1, which is the node selector's (R79, R85). -/
theorem nodeSelField_bits_of_mask {w m : Word} {o : BitVec 8} (hm : selField m = 0xE#4)
    (h : w &&& m = commandWord o 0#4 0#16) : (nodeSelField w).bits = selField w := by
  have hall : ∀ s : BitVec 4, s &&& 0xE#4 = 0#4 →
      (if s = 0#4 then NodeSel.structureWord else .weightWord).bits = s := by decide
  exact hall _ (hm ▸ selField_and_of_mask h)

/-- A row without operands in CMD matches its pattern only. -/
theorem eq_of_and_allOnes {w p : Word} (h : w &&& 0xFFFFFFFF#32 = p) : p = w :=
  h ▸ BitVec.and_allOnes

/-- The mask of a row with one operand of `n` bits and no selector leaves that operand. -/
theorem commandWord_operand_of_mask {w m : Word} {o : BitVec 8} (n : Nat) (htop : m.extractLsb' 20 12 = 0xFFF#12)
    (hsel : selField m = BitVec.allOnes 4) (hidx : ∀ k, k < 16 → n ≤ k → m.getLsbD k = true)
    (h : w &&& m = commandWord o 0#4 0#16) : commandWord o 0#4 ((w.extractLsb' 0 n).setWidth 16) = w := by
  conv_rhs => rw [eq_commandWord_of_mask n htop hidx h, selField_eq_zero_of_mask hsel h]

/-- The mask of a node row leaves the selector and the node index. -/
theorem commandWord_node_of_mask {w : Word} {o : BitVec 8} (h : w &&& 0xFFFEFE00#32 = commandWord o 0#4 0#16) :
    commandWord o (nodeSelField w).bits ((nodeField w).setWidth 16) = w := by
  rw [nodeSelField_bits_of_mask (by decide) h]
  exact (eq_commandWord_of_mask 9 (by decide) (by decide) h).symm

/-- The row of a mnemonic in the opcode table. -/
def Mnemonic.row? (m : Mnemonic) : Option Row := opcodeTable.find? (fun r => r.mnemonic == m)

theorem Mnemonic.row?_of_mem : ∀ r ∈ opcodeTable, r.mnemonic.row? = some r := by decide

/-- The command word of an assembled command is the one it was assembled from: the mask of its row leaves the bits of
its operands in CMD and no others. -/
theorem encode_assemble_cmd {r : Row} (hr : r ∈ opcodeTable) {c : Command} (h : c.cmd &&& r.mask = r.pattern) :
    (encode (assemble r.mnemonic c)).cmd = c.cmd := by
  have hrow := Mnemonic.row?_of_mem r hr
  cases hm : r.mnemonic <;> (rw [hm] at hrow; cases hrow)
  case REG_RD => exact commandWord_operand_of_mask (m := 0xFFFFFFFC#32) 2 (by decide) (by decide) (by decide) h
  case FREQ_WR | FREQ_RD =>
    exact commandWord_operand_of_mask (m := 0xFFFFFF00#32) 8 (by decide) (by decide) (by decide) h
  case NODE_RD | NODE_WR => exact commandWord_node_of_mask h
  case CODE_RD => exact (eq_commandWord_of_mask (m := 0xFFF0FF00#32) 8 (by decide) (by decide) h).symm
  all_goals exact eq_of_and_allOnes h

/-- The other parts of an assembled command's encoding: the operands its row uses. -/
theorem encode_assemble_operands {r : Row} (hr : r ∈ opcodeTable) (c : Command) :
    (encode (assemble r.mnemonic c)).data = (if r.usesData then c.data else 0#32)
    ∧ (encode (assemble r.mnemonic c)).syms = (if r.streamIn = .syms then c.syms else [])
    ∧ (encode (assemble r.mnemonic c)).bits = (if r.streamIn = .bits then c.bits else []) := by
  have hrow := Mnemonic.row?_of_mem r hr
  cases hm : r.mnemonic <;> (rw [hm] at hrow; cases hrow; exact ⟨rfl, rfl, rfl⟩)

theorem Command.ext_fields {c d : Command} (hcmd : c.cmd = d.cmd) (hdata : c.data = d.data) (hsyms : c.syms = d.syms)
    (hbits : c.bits = d.bits) : c = d := by
  cases c; cases d; cases hcmd; cases hdata; cases hsyms; cases hbits
  rfl

/-- Settles O10: the row's mask fixes every bit of the command word that no operand fills, and what the row does not
use is 0 or empty. -/
theorem encodeOfDecode : Obligations.EncodeOfDecode := by
  intro c i h
  obtain ⟨r, hrow, hmask, hdata, hsyms, hbits, hwf, rfl⟩ := decode_eq_some h
  obtain ⟨hr, -⟩ := rowOf_mem hrow
  obtain ⟨edata, esyms, ebits⟩ := encode_assemble_operands hr c
  exact ⟨Command.ext_fields (encode_assemble_cmd hr hmask)
    (edata.trans (ite_eq_left_iff.mpr fun hu => (hdata.resolve_left hu).symm))
    (esyms.trans (ite_eq_left_iff.mpr fun hu => (hsyms.resolve_left hu).symm))
    (ebits.trans (ite_eq_left_iff.mpr fun hu => (hbits.resolve_left hu).symm)), hwf⟩

/-- Settles O11: each word has the OPC and the operand bits that R79 and R71 give its command. -/
theorem specWordsDecode : Obligations.SpecWordsDecode := by
  refine ⟨?_, ?_, ?_, ?_, ?_, ?_, ?_⟩ <;> decide

end Sys2Proof

namespace Sys2Proof.Machine.Asm

/-! ### The assembler on parsed operands (30_encoding.md R85, R86) -/

/-! #### The value of an operand -/

theorem fits_toNat {w n : Nat} (v : BitVec w) (h : w ≤ n) : fits n v.toNat = some v.toNat :=
  fits_some (Nat.lt_of_lt_of_le v.isLt (Nat.pow_le_pow_right (by decide) h))

@[simp] theorem registerOperand_toNat (r : BitVec 2) : registerOperand (.number r.toNat) = some r.toNat :=
  fits_toNat r (by decide)

@[simp] theorem indexOperand_symbol (c : Symbol) : indexOperand (.number c.toNat) = some c.toNat :=
  fits_toNat c (by decide)

@[simp] theorem indexOperand_node (i : NodeIdx) : indexOperand (.number i.toNat) = some i.toNat :=
  fits_toNat i (by decide)

@[simp] theorem wordOperand_toNat (d : Word) : wordOperand (.number d.toNat) = some d.toNat :=
  fits_toNat d (Nat.le_refl 32)

@[simp] theorem nodeSelOperand_toNat (sel : NodeSel) :
    nodeSelOperand (.number sel.bits.toNat) = some sel.bits.toNat :=
  fits_toNat sel.bits (Nat.le_refl 4)

@[simp] theorem codeSelOperand_toNat (k : BitVec 4) : codeSelOperand (.number k.toNat) = some k.toNat :=
  fits_toNat k (Nat.le_refl 4)

/-! #### The commands the lines stand for -/

theorem regRd_eq_encode (r : BitVec 2) : regRd r.toNat = encode (.regRd r) := by
  rw [regRd, encode, ← word_eq_fields 0x02000000 0x02#8 0#4 r (by decide) rfl]
  rfl

theorem nodeWr_eq_encode (i : NodeIdx) (sel : NodeSel) (n : Nat) :
    nodeWr i.toNat sel.bits.toNat n = encode (.nodeWr i sel (BitVec.ofNat 32 n)) := by
  rw [nodeWr, encode, ← word_eq_fields 0x22000000 0x22#8 sel.bits i (by decide) rfl]

theorem rootWr_eq_encode (n : Nat) : rootWr n = encode (.rootWr (BitVec.ofNat 32 n)) := rfl

/-! #### The lines of R85 with operands in CMD, for each spelling of a register or a word -/

theorem instruction_regRd {x : Operand} {r : BitVec 2} (hx : registerOperand x = some r.toNat) :
    instruction "REG_RD".toList [x] = some [encode (.regRd r)] := by
  simp [instruction, lineOne, hx, regRd_eq_encode]

theorem instruction_freqWr (c : Symbol) (n : Word) :
    instruction "FREQ_WR".toList [.number c.toNat, .number n.toNat] = some [encode (.freqWr c n)] := by
  have hword := word_eq_fields 0x11000000 0x11#8 0#4 c (by decide) rfl
  simpa [instruction, lineTwo, encode] using hword

theorem instruction_freqRd (c : Symbol) :
    instruction "FREQ_RD".toList [.number c.toNat] = some [encode (.freqRd c)] := by
  have hword := word_eq_fields 0x12000000 0x12#8 0#4 c (by decide) rfl
  simpa [instruction, lineOne, encode] using hword

theorem instruction_nodeRd (i : NodeIdx) {y : Operand} {sel : NodeSel}
    (hy : nodeSelOperand y = some sel.bits.toNat) :
    instruction "NODE_RD".toList [.number i.toNat, y] = some [encode (.nodeRd i sel)] := by
  have hword := word_eq_fields 0x21000000 0x21#8 sel.bits i (by decide) rfl
  simpa [instruction, lineTwo, encode, hy] using hword

theorem instruction_nodeWr (i : NodeIdx) (sel : NodeSel) (d : Word) :
    instruction "NODE_WR".toList [.number i.toNat, .number sel.bits.toNat, .number d.toNat]
      = some [encode (.nodeWr i sel d)] := by
  simp [instruction, lineThree, nodeWr_eq_encode]

theorem instruction_rootWr (d : Word) :
    instruction "ROOT_WR".toList [.number d.toNat] = some [encode (.rootWr d)] := by
  simp [instruction, lineOne, rootWr_eq_encode]

theorem instruction_codeRd (c : Symbol) {y : Operand} {k : BitVec 4} (hy : codeSelOperand y = some k.toNat) :
    instruction "CODE_RD".toList [.number c.toNat, y] = some [encode (.codeRd c k)] := by
  have hword := word_eq_fields 0x31000000 0x31#8 k c (by decide) rfl
  simpa [instruction, lineTwo, encode, hy] using hword

/-- Settles O12: the lines with operands in CMD by the word of their fields, and those without by evaluation. -/
theorem assemblerLinesEncode : Obligations.AssemblerLinesEncode :=
  ⟨fun c n d r i sel k _ _ =>
    ⟨rfl, rfl, instruction_regRd (registerOperand_toNat r), rfl, instruction_freqWr c n, instruction_freqRd c, rfl,
      instruction_nodeRd i (nodeSelOperand_toNat sel), instruction_nodeWr i sel d, instruction_rootWr d, rfl,
      instruction_codeRd c (codeSelOperand_toNat k), rfl, rfl, rfl⟩,
    instruction_regRd rfl, instruction_regRd rfl, instruction_regRd rfl, instruction_regRd rfl,
    fun i => ⟨instruction_nodeRd i rfl, instruction_nodeRd i rfl⟩, fun c => instruction_codeRd c rfl⟩

/-! #### The pseudo-instructions of R86 -/

/-- An operand moved to its field. -/
theorem ofNat_shiftLeft {w : Nat} (v : BitVec w) (k : Nat) :
    BitVec.ofNat 32 (v.toNat <<< k) = v.setWidth 32 <<< k := by
  apply BitVec.eq_of_toNat_eq
  simp [Nat.shiftLeft_eq, Nat.mod_mul_mod]

theorem fits_node (i : NodeIdx) : fits 9 i.toNat = some i.toNat := fits_toNat i (Nat.le_refl 9)

theorem nodeWr_structure (i : NodeIdx) (n : Nat) :
    nodeWr i.toNat 0 n = encode (.nodeWr i .structureWord (BitVec.ofNat 32 n)) := nodeWr_eq_encode i .structureWord n

theorem nodeWr_weight (i : NodeIdx) (n : Nat) :
    nodeWr i.toNat 1 n = encode (.nodeWr i .weightWord (BitVec.ofNat 32 n)) := nodeWr_eq_encode i .weightWord n

theorem instruction_leaf (i : NodeIdx) (c : Symbol) (w : Word) :
    instruction "LEAF".toList [.number i.toNat, .number c.toNat, .number w.toNat]
      = some [encode (.nodeWr i .structureWord (0x80000000#32 ||| c.setWidth 32)), encode (.nodeWr i .weightWord w)] := by
  simp [instruction, lineThree, nodeWr_structure, nodeWr_weight]

theorem instruction_inode (i l r : NodeIdx) (w : Word) :
    instruction "INODE".toList [.number i.toNat, .number l.toNat, .number r.toNat, .number w.toNat]
      = some [encode (.nodeWr i .structureWord (0xC0000000#32 ||| (l.setWidth 32 <<< 21) ||| (r.setWidth 32 <<< 12))),
          encode (.nodeWr i .weightWord w)] := by
  simp [instruction, lineFour, fits_node, nodeWr_structure, nodeWr_weight, ofNat_shiftLeft]

theorem instruction_setRoot (i : NodeIdx) :
    instruction "SETROOT".toList [.number i.toNat] = some [encode (.rootWr (0x80000000#32 ||| i.setWidth 32))] := by
  simp [instruction, lineOne, rootWr_eq_encode]

/-- Settles O13: the structure and root words are put together from their fields; the other expansions are
evaluated. -/
theorem pseudoInstructionsExpand : Obligations.PseudoInstructionsExpand :=
  ⟨fun i l r c w => ⟨instruction_leaf i c w, instruction_inode i l r w, instruction_setRoot i⟩,
    rfl, rfl, rfl, rfl, fun _ => rfl, fun _ => rfl, rfl, rfl⟩

end Sys2Proof.Machine.Asm

namespace Sys2Proof.Machine

/-! ### What every command answers (30_encoding.md R78, R80) -/

/-- A term that fails an operand check raises ILLEGAL_COMMAND: only the commands with a check can be one. -/
theorem effect_of_not_wellFormed {i : Instr} (hwf : i.wellFormed = false) (s : State) :
    effect i s = .error (Raise.of .illegalCommand 0) := by
  cases i with
  | nodeRd | nodeWr | rootWr | codeRd =>
    simp only [Instr.wellFormed] at hwf
    rw [effect, hwf, checked_false]
  | _ => cases hwf

/-- Settles O14: the operand checks stand before everything else the command does. -/
theorem illFormedTermsAreIllegal : Obligations.IllFormedTermsAreIllegal := fun _ s hwf =>
  ⟨_, exec_error (effect_of_not_wellFormed hwf s), raise_failsWith s _⟩

/-- Which parts of its output a command fills: `FillsOnly i o`. -/
structure FillsOnly (i : Instr) (o : Output) : Prop where
  rdata : o.rdata ≠ 0#32 → i.isRead = true
  outBits : o.outBits ≠ [] → (∃ syms, i = .encode syms) ∨ ∃ syms, i = .encodeAll syms
  outSyms : o.outSyms ≠ [] → ∃ bits, i = .decode bits

theorem FillsOnly.nothing (i : Instr) : FillsOnly i {} :=
  ⟨fun h => absurd rfl h, fun h => absurd rfl h, fun h => absurd rfl h⟩

theorem FillsOnly.read {i : Instr} (hi : i.isRead = true) (w : Word) : FillsOnly i { rdata := w } :=
  ⟨fun _ => hi, fun h => absurd rfl h, fun h => absurd rfl h⟩

theorem FillsOnly.encode (syms : List Symbol) (bs : List Bit) : FillsOnly (.encode syms) { outBits := bs } :=
  ⟨fun h => absurd rfl h, fun _ => .inl ⟨syms, rfl⟩, fun h => absurd rfl h⟩

theorem FillsOnly.encodeAll (syms : List Symbol) (bs : List Bit) : FillsOnly (.encodeAll syms) { outBits := bs } :=
  ⟨fun h => absurd rfl h, fun _ => .inr ⟨syms, rfl⟩, fun h => absurd rfl h⟩

theorem FillsOnly.decode (bits : List Bit) (out : List Symbol) : FillsOnly (.decode bits) { outSyms := out } :=
  ⟨fun h => absurd rfl h, fun h => absurd rfl h, fun _ => ⟨bits, rfl⟩⟩

/-- The output of a command that succeeds (R78). -/
theorem effect_fillsOnly {i : Instr} {s t : State} {o : Output} (h : effect i s = .ok (t, o)) : FillsOnly i o := by
  cases i <;> simp only [effect] at h
  case nop | clear | freqWr => cases h; exact .nothing _
  case nodeWr | rootWr => cases (checked_ok h).2; exact .nothing _
  case count | build | gencode => obtain ⟨_, -, h⟩ := bind_ok h; cases h; exact .nothing _
  case regRd | freqRd => cases h; exact .read rfl _
  case nodeRd | codeRd => cases (checked_ok h).2; exact .read rfl _
  case encode syms => obtain ⟨bs, -, h⟩ := bind_ok h; cases h; exact .encode syms bs
  case decode bits => obtain ⟨out, -, h⟩ := bind_ok h; cases h; exact .decode bits out
  case encodeAll syms =>
    obtain ⟨-, -, rfl⟩ | ⟨-, A, r, T, bs, -, -, -, rfl, -⟩ := encodeWhole_ok h
    · exact .nothing _
    · exact .encodeAll syms bs

/-- A command answers a failure, or a success with what it may fill (R13, R78). -/
theorem execCommand_cases (c : Command) (s : State) :
    (∃ e, execCommand c s = .next (s.raise e))
    ∨ ∃ i t o, decode c = some i ∧ effect i s = .ok (t, o) ∧ execCommand c s = .next (t.respond o) := by
  cases hd : decode c with
  | none => exact .inl ⟨_, execCommand_of_decode_none hd s⟩
  | some i =>
    rw [execCommand_of_decode_some hd]
    cases h : effect i s with
    | error e => exact .inl ⟨e, exec_error h⟩
    | ok x => exact .inr ⟨i, x.1, x.2, rfl, h, exec_ok h⟩

/-- Settles O15: a failure answers with nothing in it, a success with the output of its command. -/
theorem oneResponsePerCommand : Obligations.OneResponsePerCommand := by
  intro c s
  obtain ⟨e, he⟩ | ⟨i, t, o, hd, h, ho⟩ := execCommand_cases c s
  · exact ⟨_, .failure e.cause, he, rfl, fun h => absurd rfl h, fun h => absurd rfl h, fun h => absurd rfl h,
      fun _ => ⟨rfl, rfl, rfl⟩⟩
  · obtain ⟨hrdata, hbits, hsyms⟩ := effect_fillsOnly h
    obtain ⟨hresp, -, -⟩ := effect_keeps h
    refine ⟨_, .success o, ho, by rw [Responds, State.respond_responses, hresp], fun hne => ⟨rfl, i, hd, hrdata hne⟩,
      fun hne => ⟨rfl, ?_⟩, fun hne => ⟨rfl, ?_⟩, fun hne => absurd rfl hne⟩
    · rw [hd]
      obtain ⟨syms, rfl⟩ | ⟨syms, rfl⟩ := hbits hne
      · exact .inl ⟨syms, rfl⟩
      · exact .inr ⟨syms, rfl⟩
    · obtain ⟨bits, rfl⟩ := hsyms hne
      exact ⟨bits, hd⟩

/-! ### The words of the register-access commands (30_encoding.md R73 to R77) -/

theorem nodeIndexOk_of_ne {j : NodeIdx} (h : j ≠ 511#9) : nodeIndexOk j = true := bne_iff_ne.mpr h

theorem effect_nodeRd {j : NodeIdx} (hj : j ≠ 511#9) (sel : NodeSel) (s : State) :
    effect (.nodeRd j sel) s = .ok (s, { rdata := (s.node.entry j).word sel }) := by
  rw [effect, nodeIndexOk_of_ne hj, checked_true]

theorem NodeKind.bit_eq_true_iff (k : NodeKind) : k.bit = true ↔ k = .internal := by cases k <;> decide

/-- Settles O33: the structure word has the entry's fields at their bits. -/
theorem nodeRdReadsAWord : Obligations.NodeRdReadsAWord := by
  intro j s hj
  refine ⟨⟨_, _, exec_ok (effect_nodeRd hj .structureWord s), respond_onlyAnswers s _, structureWord_valid _, ?_,
    structureWord_left _, structureWord_right _, structureWord_reserved _, structureWord_symbol _⟩,
    _, exec_ok (effect_nodeRd hj .weightWord s), respond_onlyAnswers s _⟩
  exact structureWord_kind _ ▸ NodeKind.bit_eq_true_iff _

theorem effect_rootWr {d : Word} (hd : d.extractLsb' 9 22 = 0#22) (s : State) :
    effect (.rootWr d) s = .ok ((s.writeRoot (rootWordValid d) (rootWordIdx d)).clearTable, {}) := by
  rw [effect, show rootWordOk d = true from beq_iff_eq.mpr hd, checked_true]

theorem State.clearTable_tableCleared (s : State) : TableCleared s.clearTable := ⟨rfl, CodeTable.entry_empty⟩

theorem TableCleared.respond {s : State} (h : TableCleared s) (o : Output) : TableCleared (s.respond o) := h

/-- Settles O36: the root registers take the fields of the word, and the table of the tree before is cleared. -/
theorem rootWrSetsTheRoot : Obligations.RootWrSetsTheRoot := fun _ s hd =>
  ⟨_, exec_ok (effect_rootWr hd s), rfl, rfl, rfl, (State.clearTable_tableCleared _).respond _, rfl, rfl, ⟨rfl, rfl⟩,
    ⟨rfl, rfl⟩⟩

theorem headerWord_cvalid (e : CodeEntry) : e.headerWord.getLsbD 31 = e.cvalid := by
  rw [headerWord_getLsbD]; rfl

theorem headerWord_reserved (e : CodeEntry) : e.headerWord.extractLsb' 8 23 = 0#23 := by
  ext k hk
  rw [BitVec.getElem_extractLsb', headerWord_getLsbD]
  simp [show ¬ 8 + k < 8 by omega, show 8 + k ≠ 31 by omega]

theorem headerWord_clen (e : CodeEntry) : e.headerWord.extractLsb' 0 8 = e.clen := by
  ext k hk
  rw [BitVec.getElem_extractLsb', headerWord_getLsbD]
  simp [hk]

theorem effect_codeRd (c : Symbol) {sel : BitVec 4} (hsel : sel.toNat ≤ 8) (s : State) :
    effect (.codeRd c sel) s = .ok (s, { rdata := (s.code.entry c).word sel }) := by
  rw [effect, show codeSelOk sel = true from decide_eq_true hsel, checked_true]

theorem CodeEntry.word_of_pos (e : CodeEntry) {sel : BitVec 4} (h : 1 ≤ sel.toNat) :
    e.word sel = e.valueWord (sel.toNat - 1) :=
  if_neg fun h0 => by simp [h0] at h

/-- Settles O42: SEL 0 is the header word, any other SEL a value word. -/
theorem codeRdReadsAWord : Obligations.CodeRdReadsAWord := by
  refine fun c s => ⟨⟨_, _, exec_ok (effect_codeRd c (by decide) s), respond_onlyAnswers s _, headerWord_cvalid _,
    headerWord_reserved _, headerWord_clen _⟩, fun sel hpos hle =>
    ⟨_, _, exec_ok (effect_codeRd c hle s), respond_onlyAnswers s _, fun k hk => ?_⟩⟩
  rw [CodeEntry.word_of_pos _ hpos, valueWord_getLsbD _ _ _ hk]

end Sys2Proof.Machine

namespace Sys2Proof.Machine

/-! ### The frequency counter (40_frequency_counter.md R101 to R104) -/

theorem countStream_of_length_le {syms : List Symbol} (h : syms.length ≤ Config.SYM_STREAM_MAX) (s : State) :
    s.countStream syms = .ok { s with freq := countTable syms } :=
  if_neg h.not_gt

theorem countStream_of_length_gt {syms : List Symbol} (h : Config.SYM_STREAM_MAX < syms.length) (s : State) :
    s.countStream syms = .error (Raise.of .overflow Config.SYM_STREAM_MAX) :=
  if_pos h

theorem effect_count_of_length_le {syms : List Symbol} (h : syms.length ≤ Config.SYM_STREAM_MAX) (s : State) :
    effect (.count syms) s = .ok ({ s with freq := countTable syms }, {}) := by
  rw [effect, countStream_of_length_le h]
  rfl

/-- A stream that is too long stops COUNT at its length check. -/
theorem effect_count_of_length_gt {syms : List Symbol} (h : Config.SYM_STREAM_MAX < syms.length) (s : State) :
    effect (.count syms) s = .error (Raise.of .overflow Config.SYM_STREAM_MAX) := by
  rw [effect, countStream_of_length_gt h]
  rfl

/-- A stream that is too long stops ENCODE_ALL at the length check of its count, before it builds a tree (R172). -/
theorem effect_encodeAll_of_length_gt {syms : List Symbol} (h : Config.SYM_STREAM_MAX < syms.length) (s : State) :
    effect (.encodeAll syms) s = .error (Raise.of .overflow Config.SYM_STREAM_MAX) := by
  rw [effect, State.encodeWhole, countStream_of_length_gt h]
  rfl

/-- Settles O24: no count wraps within the accepted length, so the table COUNT leaves is the table of occurrences. -/
theorem countCountsTheStream : Obligations.CountCountsTheStream := fun _ s h =>
  ⟨_, exec_ok (effect_count_of_length_le h s), rfl, ⟨rfl, rfl, rfl⟩, ⟨rfl, rfl⟩, ⟨rfl, rfl⟩, ⟨rfl, rfl⟩,
    countTable_total h, fun c => ⟨countTable_toNat h c, countTable_ne_zero h⟩⟩

/-- Settles O26: the table has the count at its symbol and is read as before everywhere else. -/
theorem freqWrWritesOneCount : Obligations.FreqWrWritesOneCount := by
  refine fun c n s => ⟨_, exec_ok (i := .freqWr c n) (o := {}) rfl, rfl, ?_, fun d hd => ?_, ⟨rfl, rfl, rfl⟩,
    ⟨rfl, rfl⟩, ⟨rfl, rfl⟩, ⟨rfl, rfl⟩⟩
  · rw [State.respond_freq, State.writeFreq_freq, FreqTable.entry_put, if_pos rfl]
  · rw [State.respond_freq, State.writeFreq_freq, FreqTable.entry_put, if_neg hd]

/-- Settles O25: both commands check the length of the stream before they write. -/
theorem longSymbolStreamsOverflow : Obligations.LongSymbolStreamsOverflow := fun _ s h =>
  ⟨⟨_, exec_error (effect_count_of_length_gt h s), raise_failsWith s _⟩,
    _, exec_error (effect_encodeAll_of_length_gt h s), raise_failsWith s _⟩

theorem exec_freqRd (c : Symbol) (s : State) : exec (.freqRd c) s = .next (s.respond { rdata := s.freq.entry c }) :=
  exec_ok rfl

/-- Settles O27: FREQ_RD only answers, and what it reads after FREQ_WR is the count that stands in the entry (O26). -/
theorem freqRdReadsOneCount : Obligations.FreqRdReadsOneCount := by
  refine ⟨fun c s => ⟨_, exec_freqRd c s, respond_onlyAnswers s _⟩, fun c n s => ?_⟩
  obtain ⟨t, ht, -, hn, -⟩ := freqWrWritesOneCount c n s
  refine ⟨t, _, ht, exec_freqRd c t, ?_⟩
  rw [hn]
  rfl

end Sys2Proof.Machine

namespace Sys2Proof.Machine

/-! ### What BUILD answers (41_tree_builder.md R125 to R127) -/

theorem effect_build_error {s : State} {e : Raise} (h : buildTree s.freq = .error e) :
    effect .build s = .error e := by
  simp only [effect, State.buildFromFreq, h]
  rfl

theorem buildTree_of_all_zero {f : FreqTable} (hz : ∀ c, f.entry c = 0#32) :
    buildTree f = .error (Raise.of .emptyAlphabet 0) := by
  simp [buildTree, presentSymbols_eq_nil.mpr hz]

/-- Settles O28: no symbol is present, so BUILD fails before it plants a leaf. -/
theorem buildOfEmptyTable : Obligations.BuildOfEmptyTable := fun s hz =>
  ⟨_, exec_error (effect_build_error (buildTree_of_all_zero hz)), raise_failsWith s _⟩

/-- Settles O32: BUILD's tree, or its error, is a function of the table, and its response names nothing else. -/
theorem buildIsAFunctionOfFreq : Obligations.BuildIsAFunctionOfFreq := by
  intro s s' hf
  have hsame : buildTree s'.freq = buildTree s.freq := congrArg buildTree hf
  cases h : buildTree s.freq with
  | error e =>
    exact ⟨_, _, .failure e.cause, exec_error (effect_build_error h), exec_error (effect_build_error (hsame.trans h)),
      rfl, rfl, fun hok => nomatch hok⟩
  | ok x =>
    exact ⟨_, _, .success {}, exec_ok (effect_build h), exec_ok (effect_build (hsame.trans h)), rfl, rfl,
      fun _ => ⟨rfl, rfl, rfl⟩⟩

theorem symbolCount_eq_zero_iff {f : FreqTable} : f.symbolCount = 0 ↔ ∀ c, f.entry c = 0#32 := by
  rw [symbolCount_eq, List.length_eq_zero_iff, presentSymbols_eq_nil]

/-- Counts that do not fit are those of two symbols or more: one count fits (R126). -/
theorem two_le_symbolCount_of_overfull {f : FreqTable} (hne : ∃ c, f.entry c ≠ 0#32)
    (hgt : Config.CNT_MAX < f.total) : 2 ≤ f.symbolCount := by
  have hzero : f.symbolCount ≠ 0 := by
    obtain ⟨c, hc⟩ := hne
    exact fun h => hc (symbolCount_eq_zero_iff.mp h c)
  have hone : f.symbolCount ≠ 1 := fun h => absurd (total_le_of_symbolCount_one h) hgt.not_ge
  omega

/-- No Internal node is heavier than the root, which was made last. -/
theorem Built.internal_weight_le {f : FreqTable} {A : Arena} {r : NodeIdx} (h : Built f A r) {j : NodeIdx}
    (h1 : distinct f ≤ j.toNat) (h2 : j.toNat < 2 * distinct f - 1) : A.weight j ≤ f.total :=
  calc A.weight j = A.weight (idx j.toNat) := by rw [← eq_idx]
    _ ≤ A.weight (idx (2 * distinct f - 2)) := h.weight_mono h1 (by omega) (by omega)
    _ = A.weight r := by rw [← h.root]
    _ = f.total := h.root_weight

/-- No node is heavier than the sum of the counts (R126): it is the root, or the child of an Internal node, or empty. -/
theorem Built.weight_le_total {f : FreqTable} {A : Arena} {r : NodeIdx} (h : Built f A r) (i : NodeIdx) :
    A.weight i ≤ f.total := by
  by_cases hi : i.toNat < 2 * distinct f - 1
  · by_cases hr : i = r
    · exact (hr ▸ h.root_weight).le
    · obtain ⟨j, b, hj1, hj2, rfl⟩ := h.parent_exists hi hr
      exact (h.child_weight b hj1 hj2).trans (h.internal_weight_le hj1 hj2)
  · rw [Arena.weight, h.empty i (Nat.le_of_not_lt hi)]
    exact Nat.zero_le _

theorem State.raise_responds_failure {s : State} {e : Raise} {c : Cause} :
    Responds s (s.raise e) (Response.failure c) ↔ e.cause = c := by
  simp [Responds, Response.failure]

/-- A success is not answered with a failure (R13, R78). -/
theorem State.respond_not_responds_failure {s t : State} {o : Output} {c : Cause} (ht : t.responses = s.responses) :
    ¬ Responds s (t.respond o) (Response.failure c) := by
  simp [Responds, ht, Response.success, Response.failure]

/-- Settles O29, by BUILD's three outcomes: an empty table has too few symbols to overflow, counts that do not fit are
those of two symbols or more, and a finished tree has counts that fit and no node heavier than their sum. -/
theorem buildOverflowsExactly : Obligations.BuildOverflowsExactly := by
  intro s
  obtain ⟨hz, hA⟩ | ⟨hne, hgt, hA⟩ | ⟨-, hle, A, r, hA, hB⟩ := buildTree_cases s.freq
  · have hfew : ¬ (2 ≤ s.freq.symbolCount ∧ Config.CNT_MAX < s.freq.total) := by
      simp [symbolCount_eq_zero_iff.mpr hz]
    refine ⟨_, exec_error (effect_build_error hA), iff_of_false hfew ?_, fun h => absurd h hfew,
      fun h => absurd h (s.raise_not_answersOk _ _)⟩
    exact fun h => nomatch State.raise_responds_failure.mp h
  · have hover : 2 ≤ s.freq.symbolCount ∧ Config.CNT_MAX < s.freq.total :=
      ⟨two_le_symbolCount_of_overfull hne hgt, hgt⟩
    exact ⟨_, exec_error (effect_build_error hA), iff_of_true hover rfl, fun _ => raise_failsWith s _,
      fun h => absurd h (s.raise_not_answersOk _ _)⟩
  · have hfits : ¬ (2 ≤ s.freq.symbolCount ∧ Config.CNT_MAX < s.freq.total) := fun h => absurd hle h.2.not_ge
    exact ⟨_, exec_ok (effect_build hA), iff_of_false hfits (State.respond_not_responds_failure rfl),
      fun h => absurd h hfits, fun _ => hB.weight_le_total⟩

/-! ### Writing node words and root words (41_tree_builder.md R129 to R131) -/

theorem nodeDataOk_iff (sel : NodeSel) (d : Word) :
    nodeDataOk sel d = true ↔ (sel = .structureWord → d.extractLsb' 8 4 = 0#4) := by
  cases sel with
  | structureWord => simp [nodeDataOk, structureWordOk]
  | weightWord => simp [nodeDataOk]

theorem effect_nodeWr {j : NodeIdx} (hj : j ≠ 511#9) {sel : NodeSel} {d : Word} (hd : nodeDataOk sel d = true)
    (s : State) : effect (.nodeWr j sel d) s
      = .ok ((s.writeNode j ((s.node.entry j).withWord sel d)).clearTable, {}) := by
  rw [effect, nodeIndexOk_of_ne hj, hd, Bool.and_self, checked_true]

theorem NodeKind.ofBit_eq_internal_iff (b : Bool) : NodeKind.ofBit b = .internal ↔ b = true := by cases b <;> decide

/-- The word an entry was written with is the word it then has (R73, R74). -/
theorem NodeEntry.word_withWord (e : NodeEntry) {sel : NodeSel} {d : Word} (hd : nodeDataOk sel d = true) :
    (e.withWord sel d).word sel = d := by
  cases sel with
  | structureWord => exact structureWord_withStructureWord e d hd
  | weightWord => rfl

/-- Settles O34: the entry named takes the fields of the word, the others are read as before, and the table of the tree
before is cleared. -/
theorem nodeWrWritesAWord : Obligations.NodeWrWritesAWord := by
  intro j sel d s hj hd
  have hentry := fun k => s.node.entry_put j k ((s.node.entry j).withWord sel d) (nodeIndexOk_of_ne hj)
  have hself := (hentry j).trans (if_pos rfl)
  refine ⟨_, exec_ok (effect_nodeWr hj ((nodeDataOk_iff sel d).mpr hd) s), rfl, ?_, ?_,
    fun k hk => (hentry k).trans (if_neg hk), (State.clearTable_tableCleared _).respond _, rfl, rfl, rfl, ⟨rfl, rfl⟩,
    ⟨rfl, rfl⟩⟩
  · rintro rfl
    rw [State.respond_node, State.clearTable_node, State.writeNode_node, hself]
    exact ⟨rfl, NodeKind.ofBit_eq_internal_iff _, rfl, rfl, rfl, rfl⟩
  · rintro rfl
    exact hself

theorem exec_regRd (r : BitVec 2) (s : State) : exec (.regRd r) s = .next (s.respond { rdata := s.register r }) :=
  exec_ok rfl

/-- Settles O35: what stands in the entry after NODE_WR, and in the root registers after ROOT_WR, has the word written
as its word. -/
theorem wordsReadBackAsWritten : Obligations.WordsReadBackAsWritten := by
  refine ⟨fun j sel d s hj hd => ?_, fun d s hd => ?_⟩
  · have hok : nodeDataOk sel d = true := (nodeDataOk_iff sel d).mpr hd
    refine ⟨_, _, exec_ok (effect_nodeWr hj hok s), exec_ok (effect_nodeRd hj sel _), ?_⟩
    rw [State.respond_node, State.clearTable_node, State.writeNode_node,
      Arena.entry_put _ _ _ _ (nodeIndexOk_of_ne hj), if_pos rfl, NodeEntry.word_withWord _ hok]
    rfl
  · have hword : rootWord (rootWordValid d) (rootWordIdx d) = d := rootWord_of_fields d (beq_iff_eq.mpr hd)
    refine ⟨_, _, exec_ok (effect_rootWr hd s), exec_regRd 3#2 _, ?_⟩
    exact congrArg (fun w => _ ++ [Response.success { rdata := w }]) hword

end Sys2Proof.Machine

namespace Sys2Proof.Machine

/-! ### The code generator (42_code_generator.md R151 to R159) -/

theorem effect_gencode {s : State} {T : CodeTable} (hT : generateTable s.node s.rootValid s.rootIdx = .ok T) :
    effect .gencode s = .ok ({ s with code := T, tableValid := true }, {}) := by
  simp only [effect, State.generateCodes, hT]
  rfl

theorem effect_gencode_error {s : State} {e : Raise}
    (h : generateTable s.node s.rootValid s.rootIdx = .error e) : effect .gencode s = .error e := by
  simp only [effect, State.generateCodes, h]
  rfl

theorem exec_gencode_of_malformed {s : State} (hm : Malformed s.node s.rootValid s.rootIdx) :
    exec .gencode s = .next (s.raise (Raise.of .invalidTree 0)) := by
  obtain ⟨hno, -⟩ | ⟨-, he⟩ := generateTable_cases s.node s.rootValid s.rootIdx
  · exact absurd hm hno
  · exact exec_error (effect_gencode_error he)

/-- On a tree without defects GENCODE writes the table of the tree, and nothing else (R152, R153). -/
theorem exec_gencode_of_sound {s : State} (hm : ¬ Malformed s.node s.rootValid s.rootIdx) :
    ∃ T, TableOf s.node s.rootIdx T
      ∧ exec .gencode s = .next (State.respond { s with code := T, tableValid := true } {}) := by
  obtain ⟨-, T, hT, hTable⟩ | ⟨hbad, -⟩ := generateTable_cases s.node s.rootValid s.rootIdx
  · exact ⟨T, hTable, exec_ok (effect_gencode hT)⟩
  · exact absurd hbad hm

/-- Settles O37, by GENCODE's two cases. -/
theorem gencodeFailsExactlyOnDefects : Obligations.GencodeFailsExactlyOnDefects := by
  intro s
  by_cases hm : Malformed s.node s.rootValid s.rootIdx
  · exact ⟨_, exec_gencode_of_malformed hm, fun _ => raise_failsWith s _, fun hno => absurd hm hno⟩
  · obtain ⟨T, -, hT⟩ := exec_gencode_of_sound hm
    exact ⟨_, hT, fun hbad => absurd hbad hm, fun _ => ⟨rfl, rfl, rfl, ⟨rfl, rfl, rfl⟩, ⟨rfl, rfl⟩, ⟨rfl, rfl⟩⟩⟩

/-- Two runs of a command that agree on what it reads respond the same, whatever was answered before (R34). -/
theorem exec_responds_alike {i : Instr} {s s' : State} (hreads : AgreeOnReads s s' i) :
    ∃ t t' r, exec i s = .next t ∧ exec i s' = .next t' ∧ Responds s t r ∧ Responds s' t' r := by
  have h := effect_sameOutcome hreads
  generalize hx : effect i s = x at h
  generalize hx' : effect i s' = x' at h
  cases h with
  | error e => exact ⟨_, _, .failure e.cause, exec_error hx, exec_error hx', rfl, rfl⟩
  | ok o _ =>
    refine ⟨_, _, .success o, exec_ok hx, exec_ok hx', ?_, ?_⟩
    · rw [Responds, State.respond_responses, (effect_keeps hx).1]
    · rw [Responds, State.respond_responses, (effect_keeps hx').1]

/-- Settles O31: GENCODE's table, or its error, is a function of the tree, and DECODE reads nothing but the tree. -/
theorem treeReadersAreFunctionsOfTheTree : Obligations.TreeReadersAreFunctionsOfTheTree := by
  intro s s' htree
  refine ⟨?_, fun bits => exec_responds_alike (i := .decode bits) htree⟩
  obtain ⟨hnode, hvalid, hidx⟩ := htree
  have hsame : generateTable s'.node s'.rootValid s'.rootIdx = generateTable s.node s.rootValid s.rootIdx := by
    rw [hnode, hvalid, hidx]
  cases h : generateTable s.node s.rootValid s.rootIdx with
  | error e =>
    exact ⟨_, _, .failure e.cause, exec_error (effect_gencode_error h),
      exec_error (effect_gencode_error (hsame.trans h)), rfl, rfl, fun hok => nomatch hok⟩
  | ok T =>
    exact ⟨_, _, .success {}, exec_ok (effect_gencode h), exec_ok (effect_gencode (hsame.trans h)), rfl, rfl,
      fun _ => ⟨rfl, rfl⟩⟩

/-- Below an Internal root the path to a Leaf is the code of its symbol (R151). -/
theorem hasCode_of_follow {A : Arena} {root j : NodeIdx} {p : List Bit} (hr : (A.entry root).kind = .internal)
    (hp : A.follow root p = some j) (hj : (A.entry j).kind = .leaf) : HasCode A root (A.entry j).symbol p := by
  have hne : p ≠ [] := by
    rintro rfl
    rw [(follow_nil_some hp).2, hr] at hj
    cases hj
  exact ⟨p, j, hp, hj, rfl, (if_neg hne).symm⟩

/-- Settles O38: the table stores the codes of the tree, and has an empty entry for a symbol of no leaf. -/
theorem gencodeWritesPathCodes : Obligations.GencodeWritesPathCodes := by
  intro s hm hr
  obtain ⟨T, hT, hexec⟩ := exec_gencode_of_sound hm
  refine ⟨_, hexec, rfl, fun p j hp hj => (hT.stores_iff _ p).mpr (hasCode_of_follow hr hp hj),
    fun c hc => hT.uncoded c fun p hp => ?_⟩
  obtain ⟨q, j, hq, hj, hs⟩ := exists_hasCode_iff.mp ⟨p, hp⟩
  exact hc q j hq hj hs

theorem generateTable_of_leaf_root {A : Arena} {root : NodeIdx} (ha : A.absent root = false)
    (hk : (A.entry root).kind = .leaf) :
    generateTable A true root = .ok (CodeTable.empty.put (A.entry root).symbol (CodeEntry.ofPath [false])) := by
  simp only [generateTable, ha, hk]
  rfl

/-- Settles O39: GENCODE writes the code `0` of the root's symbol into an empty table. -/
theorem gencodeOfLeafRoot : Obligations.GencodeOfLeafRoot := by
  intro s hrv _ hv hk
  have hT := generateTable_of_leaf_root ((s.node.absent_eq_false_iff _).mpr hv) hk
  rw [← hrv] at hT
  refine ⟨_, exec_ok (effect_gencode hT), rfl, rfl, fun c => ?_⟩
  rw [State.respond_code, CodeTable.entry_put, CodeTable.entry_empty]
  rfl

/-- An entry with a code stores a code of the tree, of a length that an entry can hold (R30, R159). -/
theorem TableOf.exists_stores {A : Arena} {root : NodeIdx} {T : CodeTable} (h : TableOf A root T) {c : Symbol}
    (hc : (T.entry c).cvalid = true) :
    ∃ p, (T.entry c).Stores p ∧ 1 ≤ p.length ∧ p.length ≤ Config.MAX_LEN := by
  obtain ⟨p, hp⟩ := (h.cvalid_iff c).mp hc
  exact ⟨p, (h.stores_iff c p).mpr hp, (h.coded c p hp).2⟩

/-- Settles O40: CLEN is the length of the code the entry stores. -/
theorem codeLengthBound : Obligations.CodeLengthBound := by
  intro s
  by_cases hm : Malformed s.node s.rootValid s.rootIdx
  · exact ⟨_, exec_gencode_of_malformed hm, fun h => absurd h (s.raise_not_answersOk _ _)⟩
  · obtain ⟨T, hT, hexec⟩ := exec_gencode_of_sound hm
    refine ⟨_, hexec, fun _ c hc => ?_⟩
    obtain ⟨p, ⟨-, hlen, -, hval⟩, hpos, hmax⟩ := hT.exists_stores hc
    rw [← hlen] at hval hpos hmax
    exact ⟨hpos, hmax, hval⟩

/-- The only code of a tree with a Leaf root is `0` (R154). -/
theorem HasCode.eq_of_leaf_root {A : Arena} {root : NodeIdx} {c : Symbol} {p : List Bit} (h : HasCode A root c p)
    (hk : (A.entry root).kind = .leaf) : p = [false] := by
  obtain ⟨q, j, hq, -, -, rfl⟩ := h
  exact if_pos (follow_leaf hk hq).1

/-- Settles O41: the table stores the codes of the tree, so it has the properties of the tree's code set. -/
theorem prefixFreeAndComplete : Obligations.PrefixFreeAndComplete := by
  intro s hm
  obtain ⟨T, hT, hexec⟩ := exec_gencode_of_sound hm
  have hcode := hT.stores_iff
  refine ⟨_, hexec, rfl, fun c d p q hp hq hpre => ?_, fun hk z => ?_, fun hk c p hp => ?_⟩
  · exact (hasCode_prefix_free ((hcode c p).mp hp) ((hcode d q).mp hq) hpre).1
  · obtain ⟨c, p, hp, hz⟩ := hasCode_complete hT.sound hk z
    exact ⟨c, p, (hcode c p).mpr hp, hz⟩
  · exact ((hcode c p).mp hp).eq_of_leaf_root hk

/-! #### Counts and code lengths (R157) -/

/-- A Leaf weighs the count of its symbol (R36). -/
theorem Built.leaf_weight {f : FreqTable} {A : Arena} {r : NodeIdx} (h : Built f A r) {j : NodeIdx}
    (ha : A.absent j = false) (hk : (A.entry j).kind = .leaf) : A.weight j = (f.entry (A.entry j).symbol).toNat := by
  rw [Arena.weight, h.leaf (h.leaf_range ha hk)]
  rfl

/-- A code is as long as its path, but for the code of a Leaf root, which has one bit (R151, R154). -/
theorem code_length_eq_max (q : List Bit) : (if q = [] then [false] else q).length = max 1 q.length := by
  cases q with
  | nil => rfl
  | cons b q => simp

/-- The code of a symbol with a higher count is no longer. -/
theorem Built.code_length_le {f : FreqTable} {A : Arena} {r : NodeIdx} (h : Built f A r) {x y : Symbol}
    {p q : List Bit} (hp : HasCode A r x p) (hq : HasCode A r y q) (hlt : (f.entry y).toNat < (f.entry x).toNat) :
    p.length ≤ q.length := by
  obtain ⟨p', i, hi, hik, rfl, rfl⟩ := hp
  obtain ⟨q', j, hj, hjk, rfl, rfl⟩ := hq
  rw [← h.leaf_weight (follow_present hi).2 hik, ← h.leaf_weight (follow_present hj).2 hjk] at hlt
  rw [code_length_eq_max, code_length_eq_max]
  exact max_le_max_left 1 (h.depth_weight hj hi hlt)

/-- In a table of the tree that BUILD makes of `f`, a symbol with a higher count has no longer code (R157). -/
theorem Built.clen_le {f : FreqTable} {A : Arena} {r : NodeIdx} {T : CodeTable} (h : Built f A r)
    (hT : TableOf A r T) {x y : Symbol} (hy : f.entry y ≠ 0#32) (hlt : (f.entry y).toNat < (f.entry x).toNat) :
    (T.entry x).cvalid = true ∧ (T.entry y).cvalid = true ∧ (T.entry x).clen.toNat ≤ (T.entry y).clen.toNat := by
  have hx : f.entry x ≠ 0#32 := fun h0 => by simp [h0] at hlt
  obtain ⟨p, hp⟩ := (h.hasCode_iff x).mpr hx
  obtain ⟨q, hq⟩ := (h.hasCode_iff y).mpr hy
  obtain ⟨hxv, hxlen, -⟩ := (hT.stores_iff x p).mpr hp
  obtain ⟨hyv, hylen, -⟩ := (hT.stores_iff y q).mpr hq
  exact ⟨hxv, hyv, hxlen ▸ hylen ▸ h.code_length_le hp hq hlt⟩

/-- What BUILD of a non-empty table whose counts fit leaves (R123). -/
theorem exec_build_built {s : State} (hne : ∃ c, s.freq.entry c ≠ 0#32)
    (hfit : s.freq.symbolCount = 1 ∨ s.freq.total ≤ Config.CNT_MAX) :
    ∃ t, exec .build s = .next t ∧ t.rootValid = true ∧ Built s.freq t.node t.rootIdx := by
  obtain ⟨A, r, hA, hB⟩ := buildTree_ok hne hfit
  exact ⟨_, exec_ok (effect_build hA), rfl, hB⟩

/-- ENCODE_ALL of a stream of accepted length leaves no count, or the tree of its counts with its table (R172). -/
theorem exec_encodeAll_cases {syms : List Symbol} (hl : syms.length ≤ Config.SYM_STREAM_MAX) (s : State) :
    ∃ t, exec (.encodeAll syms) s = .next t
      ∧ ((∀ c, t.freq.entry c = 0#32) ∨ (Built t.freq t.node t.rootIdx ∧ TableOf t.node t.rootIdx t.code)) := by
  cases he : effect (.encodeAll syms) s with
  | error e => exact absurd (encodeWhole_error he).1 hl.not_gt
  | ok x =>
    obtain ⟨t, o⟩ := x
    refine ⟨_, exec_ok he, ?_⟩
    obtain ⟨-, rfl, -⟩ | ⟨hne, A, r, T, bs, hA, hT, -, -, rfl⟩ := encodeWhole_ok he
    · exact .inl FreqTable.entry_zero
    · obtain ⟨A', r', -, hA', hB, -⟩ := encode_chain hl hne
      cases hA.symm.trans hA'
      exact .inr ⟨hB, (generateTable_ok hT).2.2⟩

/-- Settles O43: BUILD and ENCODE_ALL leave a finished tree (`Built`), which GENCODE accepts; without counts there is
nothing to compare. -/
theorem higherCountNoLongerCode : Obligations.HigherCountNoLongerCode := by
  refine ⟨fun s hne hfit => ?_, fun syms s hl => ?_⟩
  · obtain ⟨t, hbuild, hv, hB⟩ := exec_build_built hne hfit
    have hsound : ¬ Malformed t.node t.rootValid t.rootIdx := hv ▸ hB.sound
    obtain ⟨T, hT, hgen⟩ := exec_gencode_of_sound hsound
    exact ⟨t, _, hbuild, hgen, rfl, fun x y hy hlt => hB.clen_le hT hy hlt⟩
  · obtain ⟨t, ht, hz | ⟨hB, hT⟩⟩ := exec_encodeAll_cases hl s
    · exact ⟨t, ht, fun x y hy _ => absurd (hz y) hy⟩
    · exact ⟨t, ht, fun x y hy hlt => hB.clen_le hT hy hlt⟩

end Sys2Proof.Machine

namespace Sys2Proof.Machine

/-! ### The encoder (43_encoder.md R171 to R175) -/

theorem effect_encode {s : State} {syms : List Symbol} {bs : List Bit} (h : encodeStream s.code syms = .ok bs) :
    effect (.encode syms) s = .ok (s, { outBits := bs }) := by
  simp only [effect, h]
  rfl

theorem effect_encode_error {s : State} {syms : List Symbol} {e : Raise} (h : encodeStream s.code syms = .error e) :
    effect (.encode syms) s = .error e := by
  simp only [effect, h]
  rfl

/-- ENCODE of symbols that all have codes emits the bits of their entries (R171). -/
theorem effect_encode_of_valid {s : State} {syms : List Symbol} (hl : syms.length ≤ Config.STREAM_MAX)
    (hv : ∀ c ∈ syms, (s.code.entry c).cvalid = true) :
    effect (.encode syms) s = .ok (s, { outBits := syms.flatMap fun c => (s.code.entry c).bits }) :=
  effect_encode (encodeFrom_known 0 hv (by rwa [Nat.zero_add]))

/-- Settles O44: ENCODE only answers, and what it emits for a symbol are the bits of its entry. -/
theorem encodeConcatenatesCodes : Obligations.EncodeConcatenatesCodes := fun _ s hl hv =>
  ⟨_, _, exec_ok (effect_encode_of_valid hl hv), respond_onlyAnswers s _, rfl⟩

theorem effect_encode_unknown {s : State} {pre post : List Symbol} {c : Symbol}
    (hv : ∀ d ∈ pre, (s.code.entry d).cvalid = true) (hc : (s.code.entry c).cvalid = false)
    (hl : pre.length < Config.STREAM_MAX) :
    effect (.encode (pre ++ c :: post)) s = .error (Raise.of .unknownSymbol pre.length) := by
  have h := encodeFrom_unknown (post := post) 0 hv hc (by rwa [Nat.zero_add])
  rw [Nat.zero_add] at h
  exact effect_encode_error h

theorem effect_encode_overflow {s : State} {pre post : List Symbol} (hv : ∀ d ∈ pre, (s.code.entry d).cvalid = true)
    (hl : pre.length = Config.STREAM_MAX) (hp : post ≠ []) :
    effect (.encode (pre ++ post)) s = .error (Raise.of .overflow Config.STREAM_MAX) :=
  effect_encode_error (encodeFrom_overflow 0 hv (by rwa [Nat.zero_add]) hp)

/-- Settles O45: the loop fails at the first symbol without a code or at the limit, and a failure writes the error
record alone. -/
theorem encodeStopsAtTheFirstError : Obligations.EncodeStopsAtTheFirstError := fun _ _ s hv =>
  ⟨fun _ hc hl => ⟨_, exec_error (effect_encode_unknown hv hc hl), raise_failsWith s _⟩,
    fun hl hp => ⟨_, exec_error (effect_encode_overflow hv hl hp), raise_failsWith s _⟩⟩

/-! #### ENCODE_ALL (R172) -/

theorem effect_encodeAll_nil (s : State) :
    effect (.encodeAll []) s = .ok (({ s with freq := countTable [] } : State).dropTree, {}) := rfl

/-- Settles O47: the writes are those of COUNT of the empty stream, then of `dropTree`. -/
theorem encodeAllOfEmptyStream : Obligations.EncodeAllOfEmptyStream := fun s =>
  ⟨_, exec_ok (effect_encodeAll_nil s), rfl, ⟨rfl, rfl⟩, ⟨rfl, rfl⟩, FreqTable.entry_zero, Arena.entry_empty, rfl, rfl,
    rfl, CodeTable.entry_empty⟩

/-- ENCODE_ALL of a non-empty stream: its count, the tree of the count, the table of the tree, the codes. -/
theorem effect_encodeAll {syms : List Symbol} (hne : syms ≠ []) (hl : syms.length ≤ Config.SYM_STREAM_MAX) (s : State)
    {A : Arena} {r : NodeIdx} {T : CodeTable} {bs : List Bit} (hA : buildTree (countTable syms) = .ok (A, r))
    (hT : generateTable A true r = .ok T) (hbs : encodeStream T syms = .ok bs) :
    effect (.encodeAll syms) s = .ok ({ s with
        freq := countTable syms, node := A, rootValid := true, rootIdx := r, code := T, tableValid := true },
      { outBits := bs }) := by
  cases h : effect (.encodeAll syms) s with
  | error e => exact absurd (encodeWhole_error h).1 hl.not_gt
  | ok x =>
    obtain ⟨hnil, -, -⟩ | ⟨-, A', r', T', bs', hA', hT', hbs', ho, ht⟩ := encodeWhole_ok h
    · exact absurd hnil hne
    · cases hA.symm.trans hA'
      cases hT.symm.trans hT'
      cases hbs.symm.trans hbs'
      exact congrArg Except.ok (Prod.ext ht ho)

/-- Settles O48: each of the four commands finds what the one before it left, and together they write what ENCODE_ALL
writes. -/
theorem encodeAllIsTheSequence : Obligations.EncodeAllIsTheSequence := by
  intro syms s hne hl
  obtain ⟨A, r, T, hA, -, hT, -, -, hbs, -⟩ := encode_chain hl hne
  exact ⟨_, _, _, _, _, _, exec_ok (effect_count_of_length_le hl s), exec_ok (effect_build hA),
    exec_ok (effect_gencode hT), exec_ok (effect_encode hbs), exec_ok (effect_encodeAll hne hl s hA hT hbs),
    rfl, rfl, rfl, rfl, rfl, ⟨rfl, ⟨rfl, rfl, rfl⟩, ⟨rfl, rfl⟩, ⟨rfl, rfl⟩⟩, ⟨rfl, rfl⟩, ⟨rfl, rfl⟩, rfl, rfl⟩

/-- ENCODE_ALL of a stream of accepted length, the empty one included, leaves its counts, and a table and a tree with
which its output encodes and decodes it (R172, R173). -/
theorem exec_encodeAll_answers {syms : List Symbol} (hl : syms.length ≤ Config.SYM_STREAM_MAX) (s : State) :
    ∃ t, exec (.encodeAll syms) s = .next t
      ∧ AnswersOk s t { outBits := syms.flatMap fun c => (t.code.entry c).bits } ∧ t.freq = countTable syms
      ∧ decodeStream t.node t.rootValid t.rootIdx (syms.flatMap fun c => (t.code.entry c).bits) = .ok syms := by
  by_cases hne : syms = []
  · subst hne
    exact ⟨_, exec_ok (effect_encodeAll_nil s), rfl, rfl, rfl⟩
  · obtain ⟨A, r, T, hA, -, hT, hTable, hv, hbs, hlen⟩ := encode_chain hl hne
    exact ⟨_, exec_ok (effect_encodeAll hne hl s hA hT hbs), rfl, rfl,
      decodeStream_encoded hTable (generateTable_ok hT).2.1 hv hlen⟩

/-! #### The length of the output (R175) -/

/-- A command that answered OK had that output. -/
theorem effect_of_answersOk {i : Instr} {s t : State} {o : Output} (h : exec i s = .next t) (ho : AnswersOk s t o) :
    ∃ u, effect i s = .ok (u, o) := by
  rw [exec_next_iff] at h
  subst h
  cases he : effect i s with
  | error e =>
    rw [he] at ho
    exact absurd ho (s.raise_not_answersOk e o)
  | ok x =>
    obtain ⟨u, o'⟩ := x
    rw [he] at ho
    have hr : Response.success o' = Response.success o := by
      simpa [AnswersOk, Response.success, (effect_keeps he).1] using ho
    cases o
    cases o'
    cases hr
    exact ⟨u, rfl⟩

/-- ENCODE that answers has emitted the bits of the entries of all its symbols (R171). -/
theorem encodeFrom_ok {t : CodeTable} {cs : List Symbol} {k : Nat} {bs : List Bit} (h : encodeFrom t k cs = .ok bs) :
    bs = cs.flatMap fun c => (t.entry c).bits := by
  induction cs generalizing k bs with
  | nil => cases h; rfl
  | cons c cs ih =>
    rw [encodeFrom] at h
    split at h
    · cases h
    split at h
    · cases h
    cases hr : encodeFrom t (k + 1) cs with
    | error e => rw [hr] at h; cases h
    | ok rest =>
      rw [hr] at h
      cases h
      rw [List.flatMap_cons, ih hr]

theorem length_flatMap_bits (t : CodeTable) (syms : List Symbol) :
    (syms.flatMap fun c => (t.entry c).bits).length = (syms.map fun c => (t.entry c).clen.toNat).sum := by
  simp only [List.length_flatMap, bits_length]

/-- A sum over a stream, taken symbol by symbol. -/
theorem sum_map_eq_sum_count (g : Symbol → Nat) (syms : List Symbol) :
    (syms.map g).sum
      = ((List.range 256).map fun k => syms.count (BitVec.ofNat 8 k) * g (BitVec.ofNat 8 k)).sum := by
  rw [sum_map_range]
  induction syms with
  | nil => simp
  | cons c cs ih =>
    have hc : ∑ k ∈ Finset.range 256, (if c = BitVec.ofNat 8 k then 1 else 0) * g (BitVec.ofNat 8 k) = g c := by
      rw [Finset.sum_eq_single_of_mem c.toNat (Finset.mem_range.mpr c.isLt)]
      · simp
      · intro k hk hne
        have hck : c ≠ BitVec.ofNat 8 k := by
          rintro rfl
          exact hne (by rw [BitVec.toNat_ofNat, Nat.mod_eq_of_lt (Finset.mem_range.mp hk)])
        rw [if_neg hck, Nat.zero_mul]
    simp only [List.map_cons, List.sum_cons, List.count_cons, beq_iff_eq, Nat.add_mul, Finset.sum_add_distrib, ih, hc]
    exact Nat.add_comm _ _

/-- Settles O46: the output is the bits of the entries, CLEN of them for each symbol; ENCODE_ALL's counts are those of
the stream. -/
theorem outputLength : Obligations.OutputLength := by
  refine ⟨fun syms s t bs h ho => ?_, fun syms s hl => ?_⟩
  · obtain ⟨u, hu⟩ := effect_of_answersOk h ho
    obtain ⟨bs', hbs, hbs'⟩ := bind_ok hu
    cases hbs'
    rw [encodeFrom_ok hbs, length_flatMap_bits]
  · obtain ⟨t, ht, ho, hfreq, -⟩ := exec_encodeAll_answers hl s
    refine ⟨t, _, ht, ho, ?_⟩
    rw [length_flatMap_bits, sum_map_eq_sum_count, hfreq]
    simp only [countTable_toNat hl]

/-! #### The round trip (R173, R174) -/

theorem effect_decode {s : State} {bits : List Bit} {out : List Symbol}
    (h : decodeStream s.node s.rootValid s.rootIdx bits = .ok out) :
    effect (.decode bits) s = .ok (s, { outSyms := out }) := by
  simp only [effect, h]
  rfl

theorem SameTree.trans {s t u : State} : SameTree s t → SameTree t u → SameTree s u
  | ⟨hnode, hvalid, hidx⟩, ⟨hnode', hvalid', hidx'⟩ =>
    ⟨hnode'.trans hnode, hvalid'.trans hvalid, hidx'.trans hidx⟩

theorem Wrote.sameTree {s t : State} {i : Instr} (h : Wrote s i t) (hk : i.keepsTree = true) : SameTree s t := by
  cases h with
  | clear | build | nodeWr | rootWr | encodeAllEmpty | encodeAll => cases hk
  | nop | read | encode | decode | count | freqWr | gencode => exact ⟨rfl, rfl, rfl⟩

theorem exec_sameTree {i : Instr} {s t : State} (hk : i.keepsTree = true) (h : exec i s = .next t) : SameTree s t := by
  obtain ⟨e, he⟩ | ⟨u, o, hu, ho⟩ := exec_cases i s
  · cases he.symm.trans h
    exact ⟨rfl, rfl, rfl⟩
  · cases ho.symm.trans h
    exact hu.sameTree hk

/-- Commands that each keep the tree keep it together (R173). -/
theorem Runs.sameTree {s t : State} {is : List Instr} (h : Runs s is t) (hk : ∀ i ∈ is, i.keepsTree = true) :
    SameTree s t := by
  induction h with
  | nil s => exact ⟨rfl, rfl, rfl⟩
  | cons h _ ih =>
    exact (exec_sameTree (hk _ (List.mem_cons_self ..)) h).trans (ih fun i hi => hk i (List.mem_cons_of_mem _ hi))

/-- Settles O49: the commands in between leave the tree, which is all that DECODE reads. -/
theorem roundTrip : Obligations.RoundTrip := by
  intro syms s hl
  obtain ⟨t, ht, ho, -, hdec⟩ := exec_encodeAll_answers hl s
  refine ⟨t, _, ht, ho, fun is u hk hruns => ?_⟩
  obtain ⟨hnode, hvalid, hidx⟩ := hruns.sameTree hk
  rw [← hnode, ← hvalid, ← hidx] at hdec
  exact ⟨_, exec_ok (effect_decode hdec), rfl⟩

/-- Every code has a bit, so a stream is no longer than its output (R159). -/
theorem TableOf.length_le_sum_clen {A : Arena} {root : NodeIdx} {T : CodeTable} (h : TableOf A root T)
    {syms : List Symbol} (hv : ∀ c ∈ syms, (T.entry c).cvalid = true) :
    syms.length ≤ (syms.map fun c => (T.entry c).clen.toNat).sum := by
  have hpos : ∀ n ∈ syms.map fun c => (T.entry c).clen.toNat, 1 ≤ n := by
    intro n hn
    obtain ⟨c, hc, rfl⟩ := List.mem_map.mp hn
    obtain ⟨p, ⟨-, hlen, -⟩, hp, -⟩ := h.exists_stores (hv c hc)
    exact hlen ▸ hp
  simpa using List.length_le_sum_of_one_le _ hpos

/-- Settles O50: a valid table is that of the tree, so ENCODE emits codes of the tree, which DECODE reads. -/
theorem tableRoundTrip : Obligations.TableRoundTrip := by
  intro syms s hmatch hvalid hv hsum
  obtain ⟨hroot, hpresent, hT⟩ := generateTable_ok (hmatch.1 hvalid)
  have hdec : decodeStream s.node s.rootValid s.rootIdx (syms.flatMap fun c => (s.code.entry c).bits) = .ok syms :=
    hroot ▸ decodeStream_encoded hT hpresent hv ((length_flatMap_bits s.code syms).trans_le hsum)
  exact ⟨_, _, _, exec_ok (effect_encode_of_valid ((hT.length_le_sum_clen hv).trans hsum) hv), rfl,
    exec_ok (effect_decode hdec), rfl⟩

end Sys2Proof.Machine

namespace Sys2Proof.Machine

/-! ### The decoder (44_decoder.md R191 to R196) -/

theorem effect_decode_error {s : State} {bits : List Bit} {e : Raise}
    (h : decodeStream s.node s.rootValid s.rootIdx bits = .error e) : effect (.decode bits) s = .error e := by
  simp only [effect, h]
  rfl

/-- Settles O56: with no bits the loop makes no turn, and the root is not looked at. -/
theorem decodeWithoutBits : Obligations.DecodeWithoutBits := fun s =>
  ⟨_, exec_ok (effect_decode rfl), respond_onlyAnswers s _⟩

/-- DECODE answers with the symbols its stream decodes to, or with the cause of the failure (R13, R236). -/
theorem exec_decode_responds {s u : State} {bits : List Bit} {r : Response} (h : exec (.decode bits) s = .next u)
    (hr : Responds s u r) :
    (∃ out, decodeStream s.node s.rootValid s.rootIdx bits = .ok out ∧ r = Response.success { outSyms := out })
    ∨ ∃ e, decodeStream s.node s.rootValid s.rootIdx bits = .error e ∧ r = Response.failure e.cause := by
  cases hd : decodeStream s.node s.rootValid s.rootIdx bits with
  | ok out =>
    cases (exec_ok (effect_decode hd)).symm.trans h
    exact .inl ⟨out, rfl, (List.singleton_inj.mp (List.append_cancel_left hr)).symm⟩
  | error e =>
    cases (exec_error (effect_decode_error hd)).symm.trans h
    exact .inr ⟨e, rfl, (List.singleton_inj.mp (List.append_cancel_left hr)).symm⟩

/-- DECODE that answers OK has decoded its stream. -/
theorem decodeStream_of_answersOk {s t : State} {bits : List Bit} {out : List Symbol}
    (h : exec (.decode bits) s = .next t) (ho : AnswersOk s t { outSyms := out }) :
    decodeStream s.node s.rootValid s.rootIdx bits = .ok out := by
  obtain ⟨out', hd, hr⟩ | ⟨e, -, hr⟩ := exec_decode_responds h ho
  · cases hr
    exact hd
  · cases hr

/-! #### The root (R191) -/

/-- DECODE of some bits fails on an absent root; otherwise the loop runs. -/
theorem decodeStream_cases (A : Arena) (rootValid : Bool) (root : NodeIdx) (bits : List Bit) :
    (bits ≠ [] ∧ (rootValid = false ∨ A.absent root = true)
      ∧ decodeStream A rootValid root bits = .error (Raise.of .invalidTree 0))
    ∨ ((bits ≠ [] → rootValid = true ∧ A.absent root = false)
      ∧ decodeStream A rootValid root bits = decodeFrom A root 0 none bits) := by
  by_cases h : bits ≠ [] ∧ (rootValid = false ∨ A.absent root = true)
  · exact .inl ⟨h.1, h.2, if_pos (by simpa using h)⟩
  · exact .inr ⟨by simpa using h, if_neg (by simpa using h)⟩

theorem decodeStream_of_absent {A : Arena} {rootValid : Bool} {root : NodeIdx} {bits : List Bit} (hne : bits ≠ [])
    (h : rootValid = false ∨ A.absent root = true) :
    decodeStream A rootValid root bits = .error (Raise.of .invalidTree 0) := by
  obtain ⟨-, -, hd⟩ | ⟨hroot, -⟩ := decodeStream_cases A rootValid root bits
  · exact hd
  · obtain ⟨hv, ha⟩ := hroot hne
    simp [hv, ha] at h

theorem decodeStream_of_present {A : Arena} {rootValid : Bool} {root : NodeIdx} {bits : List Bit}
    (h : bits ≠ [] → rootValid = true ∧ A.absent root = false) :
    decodeStream A rootValid root bits = decodeFrom A root 0 none bits := by
  obtain ⟨hne, habsent, -⟩ | ⟨-, hd⟩ := decodeStream_cases A rootValid root bits
  · obtain ⟨hv, ha⟩ := h hne
    simp [hv, ha] at habsent
  · exact hd

/-- DECODE that answers had a root if it had bits. -/
theorem decodeStream_ok {A : Arena} {rootValid : Bool} {root : NodeIdx} {bits : List Bit} {out : List Symbol}
    (h : decodeStream A rootValid root bits = .ok out) :
    (bits ≠ [] → rootValid = true ∧ A.absent root = false) ∧ decodeFrom A root 0 none bits = .ok out := by
  obtain ⟨-, -, hd⟩ | ⟨hroot, hd⟩ := decodeStream_cases A rootValid root bits
  · cases hd.symm.trans h
  · exact ⟨hroot, hd.symm.trans h⟩

/-- A symbol that has a code has it in a tree with a root. -/
theorem HasCode.root_present {A : Arena} {root : NodeIdx} {c : Symbol} {p : List Bit} (h : HasCode A root c p) :
    A.absent root = false := by
  obtain ⟨q, i, hq, -⟩ := h
  exact (follow_present hq).1

/-- A path to an Internal node starts at one. -/
theorem follow_internal_start {A : Arena} {i j : NodeIdx} {p : List Bit} (h : A.follow i p = some j)
    (hj : (A.entry j).kind = .internal) : (A.entry i).kind = .internal := by
  cases p with
  | nil => exact (follow_nil_some h).2 ▸ hj
  | cons b p => exact (follow_cons_some h).2.1

/-! #### Sequences of codes (R191, R193) -/

/-- Codes of the tree decode to their symbols, if they fit in the stream. -/
theorem decodeStream_codes {A : Arena} {rootValid : Bool} {root : NodeIdx} {xs : List (Symbol × List Bit)}
    (hc : ∀ x ∈ xs, rootValid = true ∧ HasCode A root x.1 x.2)
    (hl : (xs.flatMap Prod.snd).length ≤ Config.STREAM_MAX) :
    decodeStream A rootValid root (xs.flatMap Prod.snd) = .ok (xs.map Prod.fst) := by
  have hroot : xs.flatMap Prod.snd ≠ [] → rootValid = true ∧ A.absent root = false := by
    cases xs with
    | nil => exact fun h => absurd rfl h
    | cons x xs =>
      obtain ⟨hv, hx⟩ := hc x (List.mem_cons_self ..)
      exact fun _ => ⟨hv, hx.root_present⟩
  have h := decodeFrom_pairs 0 [] (fun x hx => (hc x hx).2) ((Nat.zero_add _).trans_le hl)
  rw [List.append_nil] at h
  rw [decodeStream_of_present hroot, h]
  exact congrArg Except.ok (List.append_nil _)

/-- What fails behind some codes fails the whole stream. -/
theorem decodeStream_codes_error {A : Arena} {root : NodeIdx} {xs : List (Symbol × List Bit)} {rest : List Bit}
    {e : Raise} (hc : ∀ x ∈ xs, HasCode A root x.1 x.2) (ha : A.absent root = false)
    (hl : (xs.flatMap Prod.snd).length ≤ Config.STREAM_MAX)
    (he : decodeFrom A root (xs.flatMap Prod.snd).length none rest = .error e) :
    decodeStream A true root (xs.flatMap Prod.snd ++ rest) = .error e := by
  rw [decodeStream_of_present fun _ => ⟨rfl, ha⟩, decodeFrom_pairs 0 rest hc ((Nat.zero_add _).trans_le hl),
    Nat.zero_add, he]
  rfl

/-- A turn of the loop that does not fail (R191): a `0` at a Leaf root, a step to a Leaf, or a step to an Internal
node. -/
theorem decodeFrom_cons_ok {A : Arena} {root : NodeIdx} {k : Nat} {cur : Option NodeIdx} {b : Bit} {bs : List Bit}
    {out : List Symbol} (h : decodeFrom A root k cur (b :: bs) = .ok out) :
    ((A.entry root).kind = .leaf ∧ b = false
      ∧ ∃ o, decodeFrom A root (k + 1) cur bs = .ok o ∧ out = (A.entry root).symbol :: o)
    ∨ ((A.entry root).kind = .internal ∧ ∃ n, (A.entry (cur.getD root)).child b = n ∧ A.absent n = false
      ∧ (((A.entry n).kind = .leaf
          ∧ ∃ o, decodeFrom A root (k + 1) none bs = .ok o ∧ out = (A.entry n).symbol :: o)
        ∨ ((A.entry n).kind = .internal ∧ decodeFrom A root (k + 1) (some n) bs = .ok out))) := by
  rw [decodeFrom] at h
  split at h
  · cases h
  split at h
  next hr =>
    split at h
    · cases h
    next hb =>
    split at h
    · cases h
    next o ho => exact .inl ⟨hr, Bool.eq_false_iff.mpr hb, o, ho, (Except.ok.inj h).symm⟩
  next hr =>
    simp only at h
    split at h
    · cases h
    next ha =>
    refine .inr ⟨hr, _, rfl, Bool.eq_false_iff.mpr ha, ?_⟩
    split at h
    next hl =>
      split at h
      · cases h
      next o ho => exact .inl ⟨hl, o, ho, (Except.ok.inj h).symm⟩
    next hl => exact .inr ⟨hl, h⟩

/-- DECODE's loop stands at the root, or at the Internal node that the bits `p` since the last symbol lead to: the
states ROOT and IN_PROGRESS (R191). -/
inductive StandsAt (A : Arena) (root : NodeIdx) : Option NodeIdx → List Bit → Prop where
  | root (ha : A.absent root = false) : StandsAt A root none []
  | inProgress {p : List Bit} {i : NodeIdx} (hp : A.follow root p = some i) (hi : (A.entry i).kind = .internal) :
      StandsAt A root (some i) p

theorem StandsAt.follow {A : Arena} {root : NodeIdx} {cur : Option NodeIdx} {p : List Bit}
    (h : StandsAt A root cur p) : A.follow root p = some (cur.getD root) := by
  cases h with
  | root ha => exact follow_nil ha
  | inProgress hp hi => exact hp

theorem StandsAt.root_present {A : Arena} {root : NodeIdx} {cur : Option NodeIdx} {p : List Bit}
    (h : StandsAt A root cur p) : A.absent root = false :=
  (follow_present h.follow).1

theorem StandsAt.internal {A : Arena} {root : NodeIdx} {cur : Option NodeIdx} {p : List Bit}
    (h : StandsAt A root cur p) (hr : (A.entry root).kind = .internal) :
    (A.entry (cur.getD root)).kind = .internal := by
  cases h with
  | root ha => exact hr
  | inProgress hp hi => exact hi

/-- At a Leaf root the loop is always in state ROOT (R192). -/
theorem StandsAt.of_leaf_root {A : Arena} {root : NodeIdx} {cur : Option NodeIdx} {p : List Bit}
    (h : StandsAt A root cur p) (hr : (A.entry root).kind = .leaf) : cur = none ∧ p = [] := by
  cases h with
  | root ha => exact ⟨rfl, rfl⟩
  | inProgress hp hi => cases hr.symm.trans (follow_internal_start hp hi)

/-- A decoding that answers has read codes of the tree, the first of them from where it stood (R191, R193). -/
theorem decodeFrom_ok_codes {A : Arena} {root : NodeIdx} {k : Nat} {cur : Option NodeIdx} {p bits : List Bit}
    {out : List Symbol} (hs : StandsAt A root cur p) (h : decodeFrom A root k cur bits = .ok out) :
    ∃ xs : List (Symbol × List Bit), (∀ x ∈ xs, HasCode A root x.1 x.2) ∧ p ++ bits = xs.flatMap Prod.snd
      ∧ out = xs.map Prod.fst := by
  induction bits generalizing k cur p out with
  | nil =>
    cases hs with
    | root ha => cases h; exact ⟨[], nofun, rfl, rfl⟩
    | inProgress hp hi => cases h
  | cons b bs ih =>
    have emit : ∀ {q : List Bit} {c : Symbol} {o : List Symbol}, HasCode A root c q →
        decodeFrom A root (k + 1) none bs = .ok o →
        ∃ xs : List (Symbol × List Bit), (∀ x ∈ xs, HasCode A root x.1 x.2) ∧ q ++ bs = xs.flatMap Prod.snd
          ∧ c :: o = xs.map Prod.fst := by
      intro q c o hc ho
      obtain ⟨xs, hxs, hbs, rfl⟩ := ih (.root hs.root_present) ho
      rw [List.nil_append] at hbs
      exact ⟨(c, q) :: xs, List.forall_mem_cons.mpr ⟨hc, hxs⟩, by rw [hbs, List.flatMap_cons], rfl⟩
    rw [List.append_cons]
    obtain ⟨hr, rfl, o, ho, rfl⟩ | ⟨hr, n, rfl, ha, hnode⟩ := decodeFrom_cons_ok h
    · obtain ⟨rfl, rfl⟩ := hs.of_leaf_root hr
      exact emit ⟨[], root, hs.follow, hr, rfl, rfl⟩ ho
    · have hnext := follow_snoc b hs.follow (hs.internal hr) ha
      obtain ⟨hl, o, ho, rfl⟩ | ⟨hi, ho⟩ := hnode
      · exact emit ⟨p ++ [b], _, hnext, hl, rfl, (if_neg (by simp)).symm⟩ ho
      · exact ih (.inProgress hnext hi) ho

/-- A decoding that answers has not met the length limit (R191). -/
theorem decodeFrom_ok_length {A : Arena} {root : NodeIdx} {k : Nat} {cur : Option NodeIdx} {bits : List Bit}
    {out : List Symbol} (hk : k ≤ Config.STREAM_MAX) (h : decodeFrom A root k cur bits = .ok out) :
    k + bits.length ≤ Config.STREAM_MAX := by
  induction bits generalizing k cur out with
  | nil => exact hk
  | cons b bs ih =>
    have hne : k ≠ Config.STREAM_MAX := by
      rintro rfl
      rw [decodeFrom, if_pos rfl] at h
      cases h
    obtain ⟨cur', o, ho⟩ : ∃ cur' o, decodeFrom A root (k + 1) cur' bs = .ok o := by
      obtain ⟨-, -, o, ho, -⟩ | ⟨-, n, -, -, ⟨-, o, ho, -⟩ | ⟨-, ho⟩⟩ := decodeFrom_cons_ok h
      exacts [⟨_, _, ho⟩, ⟨_, _, ho⟩, ⟨_, _, ho⟩]
    have hlen := ih (by omega) ho
    rw [List.length_cons]
    omega

/-- Settles O51: the loop reads code after code, and where it answers the bits since the last symbol are none. -/
theorem decodeSucceedsExactlyOnCodes : Obligations.DecodeSucceedsExactlyOnCodes := by
  refine ⟨fun xs s hc hl => ⟨_, exec_ok (effect_decode (decodeStream_codes hc hl)), respond_onlyAnswers s _⟩, ?_⟩
  intro bits out s t h ho
  obtain ⟨hroot, hd⟩ := decodeStream_ok (decodeStream_of_answersOk h ho)
  refine ⟨(Nat.zero_add _).ge.trans (decodeFrom_ok_length (Nat.zero_le _) hd), ?_⟩
  by_cases hne : bits = []
  · subst hne
    cases hd
    exact ⟨[], nofun, rfl, rfl⟩
  · obtain ⟨hv, ha⟩ := hroot hne
    obtain ⟨xs, hxs, hbits, hout⟩ := decodeFrom_ok_codes (.root ha) hd
    exact ⟨xs, fun x hx => ⟨hv, hxs x hx⟩, hbits, hout⟩

/-! #### Failures behind some codes (R192 to R194) -/

/-- DECODE fails with what the loop raises behind some codes, and changes only the error record. -/
theorem exec_decode_codes_error {s : State} {xs : List (Symbol × List Bit)} {rest : List Bit} {e : Raise}
    (hc : ∀ x ∈ xs, HasCode s.node s.rootIdx x.1 x.2) (hv : s.rootValid = true)
    (ha : s.node.absent s.rootIdx = false) (hl : (xs.flatMap Prod.snd).length ≤ Config.STREAM_MAX)
    (he : decodeFrom s.node s.rootIdx (xs.flatMap Prod.snd).length none rest = .error e) :
    ∃ t, exec (.decode (xs.flatMap Prod.snd ++ rest)) s = .next t ∧ FailsWith s t e.cause e.info :=
  ⟨_, exec_error (effect_decode_error (hv ▸ decodeStream_codes_error hc ha hl he)), raise_failsWith s e⟩

/-- Settles O52: behind the codes the loop is in state ROOT, from which the path leaves it in state IN_PROGRESS. -/
theorem decodeOfTruncatedStream : Obligations.DecodeOfTruncatedStream := by
  intro xs p i s hc hv hne hp hi hl
  rw [List.length_append] at hl ⊢
  exact exec_decode_codes_error hc hv (follow_present hp).1 (by rw [Config.STREAM_MAX]; omega)
    (decodeFrom_truncated (follow_internal_start hp hi) _ none rfl hp hne hi hl)

/-- Settles O53: the root is looked at before the bits, and each child when its bit is read. -/
theorem decodeOfBrokenTree : Obligations.DecodeOfBrokenTree := by
  refine ⟨fun bits s hne h => ⟨_, exec_error (effect_decode_error (decodeStream_of_absent hne h)),
    raise_failsWith s _⟩, ?_⟩
  intro xs p rest b i s hc hv hp hi hnull hl
  rw [List.length_append] at hl ⊢
  rw [List.append_assoc]
  exact exec_decode_codes_error hc hv (follow_present hp).1 (by rw [Config.STREAM_MAX]; omega)
    (decodeFrom_nullChild (follow_internal_start hp hi) _ none b rest rfl hp hi hnull hl)

/-! #### A Leaf root (R192) -/

/-- The code of a Leaf root's symbol is a single `0` (R154). -/
theorem HasCode.of_leaf_root {A : Arena} {root : NodeIdx} (ha : A.absent root = false)
    (hr : (A.entry root).kind = .leaf) : HasCode A root (A.entry root).symbol [false] :=
  ⟨[], root, follow_nil ha, hr, rfl, rfl⟩

/-- A `1` at a Leaf root fails at its bit. -/
theorem decodeFrom_true_of_leaf_root {A : Arena} {root : NodeIdx} {k : Nat} (cur : Option NodeIdx) (rest : List Bit)
    (hr : (A.entry root).kind = .leaf) (hk : k < Config.STREAM_MAX) :
    decodeFrom A root k cur (true :: rest) = .error (Raise.of .invalidTree k) := by
  rw [decodeFrom, if_neg hk.ne, hr]
  rfl

/-- Zeros are codes of a Leaf root's symbol. -/
theorem exists_codes_of_leaf_root {A : Arena} {root : NodeIdx} (ha : A.absent root = false)
    (hr : (A.entry root).kind = .leaf) (m : Nat) :
    ∃ xs : List (Symbol × List Bit), (∀ x ∈ xs, HasCode A root x.1 x.2)
      ∧ xs.flatMap Prod.snd = List.replicate m false ∧ xs.map Prod.fst = List.replicate m (A.entry root).symbol := by
  refine ⟨List.replicate m ((A.entry root).symbol, [false]), fun x hx => ?_, ?_, List.map_replicate⟩
  · exact List.eq_of_mem_replicate hx ▸ .of_leaf_root ha hr
  · rw [List.flatMap_replicate, List.flatten_replicate_singleton]

/-- Settles O55: `m` zeros are `m` codes of the root's symbol. -/
theorem decodeOfLeafRoot : Obligations.DecodeOfLeafRoot := by
  intro m s hv hidx hvalid hr
  have ha : s.node.absent s.rootIdx = false := by simp [Arena.absent, Config.NULL_IDX, hidx, hvalid]
  obtain ⟨xs, hc, hbits, hsyms⟩ := exists_codes_of_leaf_root ha hr m
  have hlen : (xs.flatMap Prod.snd).length = m := by rw [hbits, List.length_replicate]
  rw [← hbits, ← hsyms]
  refine ⟨fun hm => ?_, fun rest hm => ?_⟩
  · exact ⟨_, exec_ok (effect_decode (decodeStream_codes (fun x hx => ⟨hv, hc x hx⟩) (hlen.trans_le hm))),
      respond_onlyAnswers s _⟩
  · have htrue : decodeFrom s.node s.rootIdx (xs.flatMap Prod.snd).length none (true :: rest)
        = .error (Raise.of .invalidTree m) := by
      rw [hlen]
      exact decodeFrom_true_of_leaf_root none rest hr hm
    exact exec_decode_codes_error hc hv ha (hlen.trans_le hm.le) htrue

/-! #### The length limit (R191) -/

/-- A stream longer than the limit, whose bits up to the limit all make a step, fails with OVERFLOW. -/
theorem decodeFrom_overflow {A : Arena} {root : NodeIdx} {k : Nat} {cur : Option NodeIdx} {pre post : List Bit}
    (hk : k + pre.length = Config.STREAM_MAX) (hpost : post ≠ [])
    (h : ∀ e, decodeFrom A root k cur pre = .error e → e.cause ≠ .invalidTree) :
    decodeFrom A root k cur (pre ++ post) = .error (Raise.of .overflow Config.STREAM_MAX) := by
  induction pre generalizing k cur with
  | nil =>
    obtain ⟨b, post, rfl⟩ := List.exists_cons_of_ne_nil hpost
    rw [List.nil_append, decodeFrom, if_pos (by simpa using hk)]
  | cons b pre ih =>
    rw [List.length_cons] at hk
    have hne : k ≠ Config.STREAM_MAX := by omega
    obtain hstep | ⟨cur', f, hstep⟩ := decodeFrom_step A root cur b
    · exact absurd rfl (h _ (hstep k pre hne))
    · have hrest : ∀ e, decodeFrom A root (k + 1) cur' pre = .error e → e.cause ≠ .invalidTree :=
        fun e he => h e (by rw [hstep k pre hne, he]; rfl)
      rw [List.cons_append, hstep k _ hne, ih (by omega) hrest]
      rfl

/-- Settles O54: no bit up to the limit fails, so the loop comes to the first bit behind it. -/
theorem longBitStreamsOverflow : Obligations.LongBitStreamsOverflow := by
  intro pre post s t hpre hpost h hok
  have hvalid : ∀ e, decodeStream s.node s.rootValid s.rootIdx pre = .error e → e.cause ≠ .invalidTree := by
    intro e he hcause
    cases (exec_error (effect_decode_error he)).symm.trans h
    exact hok (State.raise_responds_failure.mpr hcause)
  have hne : pre ≠ [] := List.ne_nil_of_length_pos (by omega)
  obtain ⟨-, -, hd⟩ | ⟨hroot, hd⟩ := decodeStream_cases s.node s.rootValid s.rootIdx pre
  · exact absurd rfl (hvalid _ hd)
  · have hover : decodeStream s.node s.rootValid s.rootIdx (pre ++ post)
        = .error (Raise.of .overflow Config.STREAM_MAX) := by
      rw [decodeStream_of_present fun _ => hroot hne]
      exact decodeFrom_overflow ((Nat.zero_add _).trans hpre) hpost (hd ▸ hvalid)
    exact ⟨_, exec_error (effect_decode_error hover), raise_failsWith s _⟩

/-! #### Split streams (R196) -/

/-- A stream split where DECODE answers decodes as its second part does, behind the output of the first. -/
theorem decodeStream_append {A : Arena} {rootValid : Bool} {root : NodeIdx} {xs ys : List Bit} {out : List Symbol}
    (hl : (xs ++ ys).length ≤ Config.STREAM_MAX) (h : decodeStream A rootValid root xs = .ok out) :
    (∀ o, decodeStream A rootValid root ys = .ok o → decodeStream A rootValid root (xs ++ ys) = .ok (out ++ o))
    ∧ ∀ e, decodeStream A rootValid root ys = .error e →
      ∃ e', decodeStream A rootValid root (xs ++ ys) = .error e' ∧ e'.cause = e.cause := by
  rw [List.length_append] at hl
  obtain ⟨hxs, hd⟩ := decodeStream_ok h
  obtain ⟨hne, habsent, hy⟩ | ⟨hys, hy⟩ := decodeStream_cases A rootValid root ys
  · rw [hy, decodeStream_of_absent (by simp [hne]) habsent]
    exact ⟨nofun, fun e he => ⟨e, he, rfl⟩⟩
  · have hroot : xs ++ ys ≠ [] → rootValid = true ∧ A.absent root = false := by
      intro hne
      by_cases hx : xs = []
      · exact hys (by simpa [hx] using hne)
      · exact hxs hx
    rw [hy, decodeStream_of_present hroot, decodeFrom_append hd, Nat.zero_add]
    refine ⟨fun o ho => ?_, fun e he => ?_⟩
    · rw [decodeFrom_shift ho xs.length hl]
      rfl
    · obtain ⟨e', he', hcause⟩ := decodeFrom_error_shift (m := xs.length) he (by omega) hl
      exact ⟨e', by rw [he']; rfl, hcause⟩

/-- A stream that decodes as a whole can fail to do so split only because it is split inside a code. -/
theorem decodeStream_error_of_append_ok {A : Arena} {rootValid : Bool} {root : NodeIdx} {xs ys : List Bit}
    {out : List Symbol} {e : Raise} (h : decodeStream A rootValid root (xs ++ ys) = .ok out)
    (he : decodeStream A rootValid root xs = .error e) : e.cause = .truncatedStream := by
  obtain ⟨hroot, hd⟩ := decodeStream_ok h
  rw [decodeStream_of_present fun hne => hroot (by simp [hne])] at he
  by_contra hcause
  cases (decodeFrom_error_append he hcause).symm.trans hd

/-- Settles O57: a DECODE that answers leaves the tree and would have gone on in state ROOT, as the next one begins. -/
theorem decodeSplits : Obligations.DecodeSplits := by
  intro xs ys s t hl h
  refine ⟨fun out ho u r hu hr => ?_, fun ⟨out, v, hv, ho⟩ hfail => ?_⟩
  · obtain ⟨happend_ok, happend_error⟩ := decodeStream_append hl (decodeStream_of_answersOk h ho)
    obtain ⟨hnode, hvalid, hidx⟩ := exec_sameTree rfl h
    have hcases := exec_decode_responds hu hr
    rw [hnode, hvalid, hidx] at hcases
    obtain ⟨o, hd, rfl⟩ | ⟨e, hd, rfl⟩ := hcases
    · exact ⟨_, _, exec_ok (effect_decode (happend_ok o hd)), rfl, rfl, fun _ => rfl⟩
    · obtain ⟨e', he', hcause⟩ := happend_error e hd
      exact ⟨_, _, exec_error (effect_decode_error he'), rfl, congrArg Result.failed hcause, nofun⟩
  · have hd := decodeStream_of_answersOk hv ho
    cases hx : decodeStream s.node s.rootValid s.rootIdx xs with
    | ok o =>
      cases (exec_ok (effect_decode hx)).symm.trans h
      exact absurd ⟨o, rfl⟩ hfail
    | error e =>
      cases (exec_error (effect_decode_error hx)).symm.trans h
      exact State.raise_responds_failure.mpr (decodeStream_error_of_append_ok hd hx)

end Sys2Proof.Machine

namespace Sys2Proof.Machine

/-! ### NOP and the registers (45_control.md R210, R212) -/

/-- Settles O22: the effect of NOP is the state as it is, so only the response is new. -/
theorem nopDoesNothing : Obligations.NopDoesNothing := fun s => ⟨_, exec_ok rfl, respond_onlyAnswers s _⟩

/-! #### The fields of STATUS (R23) -/

theorem statusWord_lastErr (tableValid rootValid : Bool) (e : BitVec 3) :
    (statusWord tableValid rootValid e).extractLsb' 0 3 = e := by
  ext k hk
  rw [BitVec.getElem_extractLsb', statusWord_getLsbD]
  simp [hk]

theorem statusWord_reserved_three (tableValid rootValid : Bool) (e : BitVec 3) :
    (statusWord tableValid rootValid e).getLsbD 3 = false := by
  rw [statusWord_getLsbD]; rfl

theorem statusWord_rootValid (tableValid rootValid : Bool) (e : BitVec 3) :
    (statusWord tableValid rootValid e).getLsbD 4 = rootValid := by
  rw [statusWord_getLsbD]; rfl

theorem statusWord_tableValid (tableValid rootValid : Bool) (e : BitVec 3) :
    (statusWord tableValid rootValid e).getLsbD 5 = tableValid := by
  rw [statusWord_getLsbD]; rfl

theorem statusWord_reserved_high (tableValid rootValid : Bool) (e : BitVec 3) :
    (statusWord tableValid rootValid e).extractLsb' 6 26 = 0#26 := by
  ext k hk
  rw [BitVec.getElem_extractLsb', statusWord_getLsbD]
  simp [show ¬ 6 + k < 3 by omega, show 6 + k ≠ 4 by omega, show 6 + k ≠ 5 by omega]

/-! #### The reserved bits of the root word (R29) -/

theorem rootWord_reserved (v : Bool) (i : NodeIdx) : (rootWord v i).extractLsb' 9 22 = 0#22 := by
  ext k hk
  rw [BitVec.getElem_extractLsb', rootWord_getLsbD]
  simp [show ¬ 9 + k < 9 by omega, show 9 + k ≠ 31 by omega]

/-! #### The register map (R212) -/

theorem State.register_status (s : State) : s.register 0#2 = statusWord s.tableValid s.rootValid s.lastErr := rfl

theorem State.register_infoLow (s : State) : s.register 1#2 = infoLow s.errInfo := rfl

theorem State.register_infoHigh (s : State) : s.register 2#2 = infoHigh s.errInfo := rfl

theorem State.register_root (s : State) : s.register 3#2 = rootWord s.rootValid s.rootIdx := rfl

/-- Settles O23: REG_RD only answers, and each register it reads has its fields at their bits. -/
theorem registerReads : Obligations.RegisterReads := by
  refine fun r s => ⟨_, _, exec_regRd r s, respond_onlyAnswers s _, ?_, ?_, ?_, ?_⟩
  · rintro rfl
    rw [State.register_status]
    exact ⟨statusWord_lastErr _ _ _, statusWord_reserved_three _ _ _, statusWord_rootValid _ _ _,
      statusWord_tableValid _ _ _, statusWord_reserved_high _ _ _⟩
  · rintro rfl; exact s.register_infoLow
  · rintro rfl; exact s.register_infoHigh
  · rintro rfl
    rw [State.register_root]
    exact ⟨rootWord_valid _ _, rootWord_reserved _ _, rootWord_idx _ _⟩

end Sys2Proof.Machine

namespace Sys2Proof.Machine

/-! ### How a command fails (60_exceptions.md R231) -/

/-- `Failed s i e`: the failures of `i` from `s`, each with the cause and the information word it raises. -/
inductive Failed (s : State) : Instr → Raise → Prop where
  | illFormed (i : Instr) (hwf : i.wellFormed = false) : Failed s i (Raise.of .illegalCommand 0)
  | countTooLong (syms : List Symbol) (hl : Config.SYM_STREAM_MAX < syms.length) :
      Failed s (.count syms) (Raise.of .overflow Config.SYM_STREAM_MAX)
  | encodeAllTooLong (syms : List Symbol) (hl : Config.SYM_STREAM_MAX < syms.length) :
      Failed s (.encodeAll syms) (Raise.of .overflow Config.SYM_STREAM_MAX)
  | noSymbols : Failed s .build (Raise.of .emptyAlphabet 0)
  | overweight : Failed s .build (Raise.of .overflow 0)
  | malformed : Failed s .gencode (Raise.of .invalidTree 0)
  | noCode (pre : List Symbol) (x : Symbol) (post : List Symbol) (hpre : ∀ d ∈ pre, (s.code.entry d).cvalid = true)
      (hx : (s.code.entry x).cvalid = false) (hl : pre.length < Config.STREAM_MAX) :
      Failed s (.encode (pre ++ x :: post)) (Raise.of .unknownSymbol pre.length)
  | encodeTooLong (syms : List Symbol) (hl : Config.STREAM_MAX < syms.length) :
      Failed s (.encode syms) (Raise.of .overflow Config.STREAM_MAX)
  | noRoot (bits : List Bit) (hroot : s.rootValid = false ∨ s.node.absent s.rootIdx = true) :
      Failed s (.decode bits) (Raise.of .invalidTree 0)
  | truncated (bits : List Bit) (hl : bits.length ≤ Config.STREAM_MAX) :
      Failed s (.decode bits) (Raise.of .truncatedStream bits.length)
  | brokenStep (pre : List Bit) (b : Bit) (post : List Bit) (hv : s.rootValid = true)
      (ha : s.node.absent s.rootIdx = false) (hl : pre.length < Config.STREAM_MAX)
      (hpre : ∀ e, decodeStream s.node s.rootValid s.rootIdx pre = .error e → e.cause ≠ .invalidTree)
      (hb : decodeStream s.node s.rootValid s.rootIdx (pre ++ [b]) = .error (Raise.of .invalidTree pre.length)) :
      Failed s (.decode (pre ++ b :: post)) (Raise.of .invalidTree pre.length)
  | decodeTooLong (bits : List Bit) (hl : Config.STREAM_MAX < bits.length) :
      Failed s (.decode bits) (Raise.of .overflow Config.STREAM_MAX)

theorem failed_build {s : State} {e : Raise} (h : s.buildFromFreq = .error e) : Failed s .build e := by
  unfold State.buildFromFreq at h
  obtain ⟨-, hA⟩ | ⟨-, -, hA⟩ | ⟨-, -, A, r, hA, -⟩ := buildTree_cases s.freq
  · rw [hA] at h
    cases h
    exact .noSymbols
  · rw [hA] at h
    cases h
    exact .overweight
  · rw [hA] at h
    cases h

theorem failed_gencode {s : State} {e : Raise} (h : s.generateCodes = .error e) : Failed s .gencode e := by
  unfold State.generateCodes at h
  split at h
  next hT =>
    cases h
    cases generateTable_error hT
    exact .malformed
  next => cases h

theorem failed_encode {s : State} {syms : List Symbol} {e : Raise} (h : encodeStream s.code syms = .error e) :
    Failed s (.encode syms) e := by
  obtain ⟨pre, x, post, rfl, hpre, hx, hl, rfl⟩ | ⟨rfl, hl⟩ := encodeFrom_error (Nat.zero_le _) h
  · rw [Nat.zero_add] at hl ⊢
    exact .noCode pre x post hpre hx hl
  · exact .encodeTooLong syms (by rwa [Nat.zero_add] at hl)

/-- On a present root DECODE fails as its loop does, and the loop's failures name the first bit whose step fails. -/
theorem failed_decode {s : State} {bits : List Bit} {e : Raise}
    (h : decodeStream s.node s.rootValid s.rootIdx bits = .error e) : Failed s (.decode bits) e := by
  obtain ⟨-, hroot, hd⟩ | ⟨hroot, hd⟩ := decodeStream_cases s.node s.rootValid s.rootIdx bits
  · cases hd.symm.trans h
    exact .noRoot bits hroot
  · rw [hd] at h
    obtain ⟨rfl, hl⟩ | ⟨pre, b, post, rfl, hl, rfl, hb, hpre⟩ | ⟨rfl, hl⟩ := decodeFrom_error (Nat.zero_le _) h
    · rw [Nat.zero_add] at hl ⊢
      exact .truncated bits hl
    · obtain ⟨hv, ha⟩ := hroot (by simp)
      have hloop : ∀ bs, decodeStream s.node s.rootValid s.rootIdx bs = decodeFrom s.node s.rootIdx 0 none bs :=
        fun _ => decodeStream_of_present fun _ => ⟨hv, ha⟩
      rw [← hloop, Nat.zero_add] at hb
      rw [← hloop, Nat.zero_add] at hpre
      rw [Nat.zero_add] at hl ⊢
      refine .brokenStep pre b post hv ha hl (fun e he => ?_) hb
      obtain ⟨out, ho⟩ | ht := hpre
      · cases ho.symm.trans he
      · cases ht.symm.trans he
        nofun
    · exact .decodeTooLong bits (by rwa [Nat.zero_add] at hl)

/-- A failing bind whose second part never fails is the failure of its first part. -/
theorem error_of_bind_ok {α β : Type} {x : Except Raise α} {f : α → β} {e : Raise}
    (h : (x >>= fun a => Except.ok (f a)) = .error e) : x = .error e := by
  obtain hx | ⟨a, -, ha⟩ := bind_error h
  · exact hx
  · cases ha

theorem failed_of_effect {i : Instr} {s : State} {e : Raise} (h : effect i s = .error e) : Failed s i e := by
  cases i <;> simp only [effect] at h
  case nop | clear | regRd | freqWr | freqRd => cases h
  case nodeRd | nodeWr | rootWr | codeRd =>
    obtain ⟨hwf, rfl⟩ := checked_error h
    exact .illFormed _ hwf
  case count syms =>
    obtain ⟨hl, rfl⟩ := countStream_error (error_of_bind_ok h)
    exact .countTooLong syms hl
  case encodeAll syms =>
    obtain ⟨hl, rfl⟩ := encodeWhole_error h
    exact .encodeAllTooLong syms hl
  case build => exact failed_build (error_of_bind_ok h)
  case gencode => exact failed_gencode (error_of_bind_ok h)
  case encode syms => exact failed_encode (error_of_bind_ok h)
  case decode bits => exact failed_decode (error_of_bind_ok h)

/-- A command that answers a failure is not in the table, or has failed in one of the ways of its row (R80, R231). -/
theorem execCommand_failed {c : Command} {s t : State} {e : Cause} (h : execCommand c s = .next t)
    (hr : Responds s t (Response.failure e)) :
    ∃ x : Raise, x.cause = e ∧ t = s.raise x
      ∧ ((decode c = none ∧ x = Raise.of .illegalCommand 0)
        ∨ ∃ i, decode c = some i ∧ i.wellFormed = true ∧ Failed s i x) := by
  cases hd : decode c with
  | none =>
    cases (execCommand_of_decode_none hd s).symm.trans h
    exact ⟨_, State.raise_responds_failure.mp hr, rfl, .inl ⟨rfl, rfl⟩⟩
  | some i =>
    rw [execCommand_of_decode_some hd] at h
    cases he : effect i s with
    | error x =>
      cases (exec_error he).symm.trans h
      exact ⟨x, State.raise_responds_failure.mp hr, rfl, .inr ⟨i, rfl, (encodeOfDecode c i hd).2, failed_of_effect he⟩⟩
    | ok x =>
      cases (exec_ok he).symm.trans h
      exact absurd hr (State.respond_not_responds_failure (effect_keeps he).1)

/-- An index in a stream fits the information word (R24). -/
theorem Raise.of_info_toNat (c : Cause) {n : Nat} (h : n ≤ Config.STREAM_MAX) : (Raise.of c n).info.toNat = n :=
  Nat.mod_eq_of_lt (Nat.lt_of_le_of_lt h (by decide))

/-- Settles O17, by the ways a command can fail: each raises its cause with its word. -/
theorem causesAndInformation : Obligations.CausesAndInformation := by
  intro c s t e h hr
  obtain ⟨x, rfl, rfl, ⟨hd, rfl⟩ | ⟨i, hd, hwf, hf⟩⟩ := execCommand_failed h hr
  · exact ⟨hd, rfl⟩
  cases hf with
  | illFormed i hbad => exact absurd (hbad.symm.trans hwf) Bool.false_ne_true
  | noSymbols => exact ⟨hd, rfl⟩
  | noCode pre x post hpre hx hl => exact ⟨pre, x, post, hd, hpre, hx, Raise.of_info_toNat .unknownSymbol hl.le⟩
  | truncated bits hl => exact ⟨bits, hd, Raise.of_info_toNat .truncatedStream hl⟩
  | malformed => exact .inl ⟨hd, rfl⟩
  | noRoot bits hroot =>
    exact .inr ⟨bits, hd, fun _ => rfl, fun hv ha => absurd hroot (by simp [hv, ha])⟩
  | brokenStep pre b post hv ha hl hpre hb =>
    refine .inr ⟨_, hd, fun hroot => absurd hroot (by simp [hv, ha]), fun _ _ =>
      ⟨pre, b, post, _, rfl, Raise.of_info_toNat .invalidTree hl.le, exec_eq _ s, fun hfail => ?_,
        _, exec_error (effect_decode_error hb), raise_failsWith s _⟩⟩
    obtain ⟨out, -, hok⟩ | ⟨e, he, hcause⟩ := exec_decode_responds (exec_eq _ s) hfail
    · cases hok
    · exact hpre e he (by simpa [Response.failure] using hcause.symm)
  | overweight => exact .inl ⟨hd, rfl⟩
  | countTooLong syms hl => exact .inr (.inl ⟨syms, .inl hd, rfl, hl⟩)
  | encodeAllTooLong syms hl => exact .inr (.inl ⟨syms, .inr hd, rfl, hl⟩)
  | encodeTooLong syms hl => exact .inr (.inr (.inl ⟨syms, hd, rfl, hl⟩))
  | decodeTooLong bits hl => exact .inr (.inr (.inr ⟨bits, hd, rfl, hl⟩))

/-! ### The error record (60_exceptions.md R236, R238) -/

theorem State.respond_responds {s t : State} (ht : t.responses = s.responses) (o : Output) :
    Responds s (t.respond o) (Response.success o) :=
  congrArg (· ++ [Response.success o]) ht

/-- Settles O16: a command that fails applies the error record to the state it started from. -/
theorem failureWritesOnlyTheErrorRecord : Obligations.FailureWritesOnlyTheErrorRecord := by
  intro c s
  obtain ⟨e, he⟩ | ⟨i, t, o, -, hf, ho⟩ := execCommand_cases c s
  · refine ⟨_, .failure e.cause, he, rfl, fun e' hcause => ?_⟩
    cases hcause
    exact raise_failsWith s e
  · exact ⟨_, _, ho, State.respond_responds (effect_keeps hf).1 o, nofun⟩

/-- From `s` to `t` the command responded with `r`, and the error record was kept if `r` is a success and overwritten
if it is a failure (R238). -/
structure Records (s t : State) (r : Response) : Prop where
  responds : Responds s t r
  kept : r.result = .ok → SameErrors s t
  written : ∀ e, r.result = .failed e → t.lastErr = e.code

theorem exec_records {i : Instr} (hi : i ≠ .clear) (s : State) : ∃ t r, exec i s = .next t ∧ Records s t r := by
  cases he : effect i s with
  | error e =>
    refine ⟨_, .failure e.cause, exec_error he, rfl, nofun, fun e' hcause => ?_⟩
    cases hcause
    rfl
  | ok x =>
    obtain ⟨hresp, -, herr⟩ := effect_keeps he
    exact ⟨_, _, exec_ok he, State.respond_responds hresp x.2, fun _ => herr hi, nofun⟩

/-- LAST_ERR is 0 behind a command exactly if it was 0 before and the command succeeded. -/
theorem Records.lastErr_eq_zero_iff {s t : State} {r : Response} (h : Records s t r) :
    t.lastErr = 0#3 ↔ s.lastErr = 0#3 ∧ r.result = .ok := by
  cases hres : r.result with
  | ok => simp [(h.kept hres).1]
  | failed e => simp [h.written e hres, e.code_ne_zero]

/-- Along commands without CLEAR, LAST_ERR stays 0 exactly as long as they succeed. -/
theorem Runs.lastErr_eq_zero_iff {s t : State} {is : List Instr} (h : Runs s is t) (hc : .clear ∉ is) :
    ∃ rs, t.responses = s.responses ++ rs ∧ rs.length = is.length
      ∧ (t.lastErr = 0#3 ↔ s.lastErr = 0#3 ∧ ∀ r ∈ rs, r.result = .ok) := by
  induction h with
  | nil s => exact ⟨[], by simp, rfl, by simp⟩
  | @cons s u t i is hexec _ ih =>
    obtain ⟨hi, his⟩ := not_or.mp (mt List.mem_cons.mpr hc)
    obtain ⟨u', r, hu, hrec⟩ := exec_records (Ne.symm hi) s
    cases hexec.symm.trans hu
    obtain ⟨rs, hresp, hlen, hiff⟩ := ih his
    refine ⟨r :: rs, ?_, by simp [hlen], ?_⟩
    · rw [hresp, hrec.responds, List.append_assoc, List.singleton_append]
    · rw [hiff, hrec.lastErr_eq_zero_iff, and_assoc, List.forall_mem_cons]

/-- Settles O18: one command keeps or overwrites the record by its result, and a run does so command by command. -/
theorem errorRecordIsSticky : Obligations.ErrorRecordIsSticky := by
  refine ⟨fun i s hi => ?_, fun is s t hs hc h => ?_⟩
  · obtain ⟨t, r, ht, hresp, hkept, hwritten⟩ := exec_records hi s
    exact ⟨t, r, ht, hresp, hkept, hwritten⟩
  · obtain ⟨rs, hresp, hlen, hiff⟩ := h.lastErr_eq_zero_iff hc
    exact ⟨rs, hresp, hlen, hiff.trans (and_iff_right hs)⟩

end Sys2Proof.Machine

namespace Sys2Proof.Machine

/-! ### Reset and idle steps (60_exceptions.md R248, R250; 70_reset_and_hazards.md R261, R262) -/

/-- Settles O2: the step idles on an empty list, and otherwise does what the event at its head says. -/
theorem stepsThatRunNoCommand : Obligations.StepsThatRunNoCommand := fun _ _ =>
  ⟨step_of_pending_nil, step_of_pending_cons, fun _ => step_of_pending_cons, step_of_pending_cons⟩

/-- Settles O5, from the rules of the commands: on the all-zero state no symbol is present, there is no root, and no
symbol has a code. -/
theorem commandsRightAfterReset : Obligations.CommandsRightAfterReset := by
  obtain ⟨hfreq, -, hroot, -, hcode, -⟩ : AllZero State.reset := resetAndClearZeroEverything.1
  refine ⟨buildOfEmptyTable State.reset hfreq, ?gencode, fun syms hne => ?encode,
    fun bits hne => decodeOfBrokenTree.1 bits State.reset hne (.inl hroot), decodeWithoutBits State.reset⟩
  case gencode =>
    obtain ⟨t, ht, hfails, -⟩ := gencodeFailsExactlyOnDefects State.reset
    exact ⟨t, ht, hfails (.noRoot (.inl hroot))⟩
  case encode =>
    obtain ⟨c, rest, rfl⟩ := List.exists_cons_of_ne_nil hne
    have hstop := (encodeStopsAtTheFirstError [] rest State.reset (fun _ hd => nomatch hd)).1 c
    exact hstop (congrArg CodeEntry.cvalid (hcode c)) (by decide)

end Sys2Proof.Machine
